-- ==== Sys2Proof/Word.lean ====
section
/-!
DEFINITION. The word types of picovm-1 CORE: bytes, 16-bit addresses, the 32-bit accumulator, the 64-bit carrier of
a value of 1, 2, 4 or 8 bytes, and the operand width.
-/

namespace Sys2Proof

/-- One byte of the memory buffer (10_state.md R32). -/
abbrev Byte := BitVec 8

/-- A 16-bit address, instruction pointer or stack pointer (00_scope.md R9, 10_state.md R33, R36). -/
abbrev Addr := BitVec 16

/-- The 32-bit accumulator of the integer ALU and the bits of a 32-bit float (42_alu.md R170, 43_fpu.md R200). -/
abbrev Acc := BitVec 32

/-- The carrier of a value of `w` bytes, `w` in 1, 2, 4, 8: its low `8*w` bits are the value, the rest is zero. -/
abbrev Value := BitVec 64

/-- The operand width of an access: 1, 2, 4 or 8 bytes (00_scope.md R14, 30_encoding.md R100). -/
inductive Width where
  | w1
  | w2
  | w4
  | w8
  deriving DecidableEq, Repr

/-- The width in bytes. -/
def Width.bytes : Width → Nat
  | .w1 => 1
  | .w2 => 2
  | .w4 => 4
  | .w8 => 8

end Sys2Proof
end

