-- ==== Sys2Proof/Config.lean ====
section
/-!
DEFINITION. The configuration record of 10_state.md R31 and the two configuration functions that 00_scope.md R9
leaves open (`FNAN` and `CONVI_OOR`), which are free values here: opaque constants, of which nothing can be proved.
-/

namespace Sys2Proof

/-- `WIDTH_MODE` (00_scope.md R9): per-instruction width, or one fixed global width of 8, 16 or 32 bits. -/
inductive WidthMode where
  | perOpcode
  | fixed8
  | fixed16
  | fixed32
  deriving DecidableEq, Repr

/-- `BRANCH_SRC` (00_scope.md R9): where a branch condition is taken from. -/
inductive BranchSrc where
  | flags
  | stack
  deriving DecidableEq, Repr

/-- `NOT_KIND` (00_scope.md R9): what the NOT command computes. -/
inductive NotKind where
  | logical
  | bitwise
  deriving DecidableEq, Repr

/-- The float operations whose NaN results `FNAN` names (00_scope.md R9). CONVF never gives a NaN (43_fpu.md R208). -/
inductive FloatOp where
  | fadd
  | fsub
  | fmul
  | fdiv
  deriving DecidableEq, Repr

/-- The plain-data part of the configuration record (10_state.md R31). Every combination is legal (00_scope.md R10).
No instruction reads it as data or writes it. -/
structure Config where
  widthMode     : WidthMode
  indexedByte   : Bool
  bitwise       : Bool
  fpu           : Bool
  branchSrc     : BranchSrc
  notKind       : NotKind
  convSetsFlags : Bool
  deriving DecidableEq, Repr

/-- The defaults of 00_scope.md R9 (`CFG0` of 95_test_vectors.md). -/
def Config.cfg0 : Config :=
  { widthMode := .perOpcode, indexedByte := false, bitwise := true, fpu := true,
    branchSrc := .flags, notKind := .logical, convSetsFlags := true }

/-- FREE VALUE (log entry 8): the bits from which `FNAN(op, a, b)` is made (00_scope.md R9, 43_fpu.md R202). The spec's
one law, that `FNAN` is a NaN, is imposed where it is used (`Machine.fnan`). -/
opaque Config.fnanBits : FloatOp → Acc → Acc → Acc

/-- FREE VALUE (log entry 9): `CONVI_OOR(v)`, the result of CONVI for a NaN or an input out of range
(00_scope.md R9, 43_fpu.md R209). No law is assumed. -/
opaque Config.conviOor : Acc → Acc

end Sys2Proof
end

