-- ==== Sys2Proof/Machine/Bytes.lean ====
section
/-!
DEFINITION. The Operand Size Resolver (30_encoding.md R100) and the byte order: little-endian lists of bytes and the
values they stand for (20_memory.md R65). Also the layout of the flag register (10_state.md R38).
-/

namespace Sys2Proof.Machine

/-- The width that a width code selects under a configuration (30_encoding.md R100). -/
def resolveWidth (c : Config) (ww : BitVec 2) : Width :=
  match c.widthMode with
  | .perOpcode =>
    match ww.toNat with
    | 0 => .w1
    | 1 => .w2
    | 2 => .w4
    | _ => .w8
  | .fixed8 => .w1
  | .fixed16 => .w2
  | .fixed32 => .w4

/-- The low `n` bytes of a value, the least significant first (20_memory.md R64, R65). -/
def leBytes : Nat → Value → List Byte
  | 0, _ => []
  | n + 1, v => v.setWidth 8 :: leBytes n (v >>> 8)

/-- The value of a list of bytes, the least significant first (20_memory.md R63, R65). -/
def ofLE : List Byte → Value
  | [] => 0
  | b :: bs => b.setWidth 64 ||| (ofLE bs <<< 8)

/-- The 16-bit value of a list of two bytes (20_memory.md R66, `Fetch16`). -/
def ofLE16 (bs : List Byte) : Addr := (ofLE bs).setWidth 16

/-- The first byte of a list of operand bytes (20_memory.md R66, `Fetch8`). -/
def firstByte (bs : List Byte) : Byte := bs.headD 0

/-- The value keeping only its low `8*w` bits: `trunc_{8*w}` of 42_alu.md R170, zero-extended. -/
def maskTo (w : Width) (v : Value) : Value :=
  match w with
  | .w1 => (v.setWidth 8).setWidth 64
  | .w2 => (v.setWidth 16).setWidth 64
  | .w4 => (v.setWidth 32).setWidth 64
  | .w8 => v

/-- The flag register with the given Z and N and bits 7:2 zero (10_state.md R38). -/
def flagsOf (z n : Bool) : BitVec 8 := (BitVec.ofBool n ++ BitVec.ofBool z).setWidth 8

end Sys2Proof.Machine
end

