-- ==== Sys2Proof/Syntax.lean ====
section
/-!
DEFINITION. The instructions of picovm-1 CORE: one constructor per row of spec/opcode_table.json, holding the fields
and operands that 30_encoding.md R92 to R109 give the row.
-/

namespace Sys2Proof

/-- The displacement of a branch: `d8` when `s = 0`, `d16` when `s = 1` (30_encoding.md R103, R109). -/
inductive Disp where
  | d8 (d : BitVec 8)
  | d16 (d : BitVec 16)
  deriving DecidableEq, Repr

/-- The instructions. `ww` is the width code `op[1:0]` (30_encoding.md R92); the width it selects depends on the
configuration (R100). -/
inductive Instr where
  /-- LOAD.DIR: push `w` bytes read at the inline address (40_load_store.md R134). -/
  | loadDir (ww : BitVec 2) (a16 : Addr)
  /-- LOAD.XB: push `w` bytes read at popped base + inline unsigned offset (R135). -/
  | loadXb (ww : BitVec 2) (off8 : Byte)
  /-- LOAD.XW: push `w` bytes read at popped base + popped offset (R136). -/
  | loadXw (ww : BitVec 2)
  /-- LOAD.IMM: push the `w` inline bytes; `imm` is their little-endian value (R137, 30_encoding.md R109). -/
  | loadImm (ww : BitVec 2) (imm : Value)
  /-- STORE.DIR: pop `w` bytes and write them at the inline address (R138). -/
  | storeDir (ww : BitVec 2) (a16 : Addr)
  /-- STORE.XB: pop `w` bytes, then a base, and write at base + inline unsigned offset (R139). -/
  | storeXb (ww : BitVec 2) (off8 : Byte)
  /-- STORE.XW: pop `w` bytes, an offset and a base, and write at base + offset (R140); `ww` is 0 or 1 (R95). -/
  | storeXw (ww : BitVec 2)
  /-- POP: discard `w` bytes (R141). -/
  | pop (ww : BitVec 2)
  /-- DUP with inline depth 0 (41_dup_dig.md R161). -/
  | dup0 (ww : BitVec 2)
  /-- DUP with inline depth 1 (R161). -/
  | dup1 (ww : BitVec 2)
  /-- DUP with inline depth 2 (R161). -/
  | dup2 (ww : BitVec 2)
  /-- DUP with the depth in the extension byte (R161, 30_encoding.md R97). -/
  | dupX (ww : BitVec 2) (k8 : Byte)
  /-- DIG with inline depth 0 (R162). -/
  | dig0 (ww : BitVec 2)
  /-- DIG with inline depth 1 (R162). -/
  | dig1 (ww : BitVec 2)
  /-- DIG with inline depth 2 (R162). -/
  | dig2 (ww : BitVec 2)
  /-- DIG with the depth in the extension byte (R162, 30_encoding.md R97). -/
  | digX (ww : BitVec 2) (k8 : Byte)
  /-- CALL, absolute (44_control.md R233). -/
  | call (a16 : Addr)
  /-- CALLI, indirect (R234). -/
  | calli
  /-- RET (R235). -/
  | ret
  /-- ADD (42_alu.md R175). -/
  | add (ww : BitVec 2)
  /-- SUB (R176). -/
  | sub (ww : BitVec 2)
  /-- MUL (R177). -/
  | mul (ww : BitVec 2)
  /-- DIV, unsigned (R178). -/
  | div (ww : BitVec 2)
  /-- MOD, unsigned (R179). -/
  | mod (ww : BitVec 2)
  /-- AND (R180). -/
  | and (ww : BitVec 2)
  /-- OR (R181). -/
  | or (ww : BitVec 2)
  /-- XOR (R182). -/
  | xor (ww : BitVec 2)
  /-- NOT, unary (R183). -/
  | not (ww : BitVec 2)
  /-- FADD (43_fpu.md R203). -/
  | fadd
  /-- FSUB (R204). -/
  | fsub
  /-- FMUL (R205). -/
  | fmul
  /-- FDIV (R206). -/
  | fdiv
  /-- CONVF, integer to float (R208). -/
  | convf
  /-- CONVI, float to integer (R209). -/
  | convi
  /-- BRA (44_control.md R224). -/
  | bra (d : Disp)
  /-- BEQ (R225). -/
  | beq (d : Disp)
  /-- BNE (R226). -/
  | bne (d : Disp)
  /-- BLT (R227). -/
  | blt (d : Disp)
  /-- BGT (R228). -/
  | bgt (d : Disp)
  /-- BLE (R229). -/
  | ble (d : Disp)
  /-- BGE (R230). -/
  | bge (d : Disp)
  /-- BRA.S in its second encoding 0xD0 (R231). -/
  | braAlt (d : BitVec 8)
  /-- YIELD (R240). -/
  | yield
  /-- HALT (R243). -/
  | halt
  deriving DecidableEq, Repr

end Sys2Proof
end

