-- ==== Sys2Proof/WellFormed.lean ====
section
/-!
DEFINITION. Which instructions a configuration has and which operands their encodings can hold (30_encoding.md R94 to
R102, R108, R109).
-/

namespace Sys2Proof

/-- The group an instruction belongs to is present in the configuration (the `present_when` of the opcode table,
30_encoding.md R94, R99, R101, R102). -/
def Instr.present (c : Config) : Instr → Bool
  | .loadDir _ _ => true
  | .loadXb _ _ => c.indexedByte
  | .loadXw _ => true
  | .loadImm _ _ => !c.indexedByte
  | .storeDir _ _ => true
  | .storeXb _ _ => c.indexedByte
  | .storeXw _ => true
  | .pop _ => true
  | .dup0 _ => true
  | .dup1 _ => true
  | .dup2 _ => true
  | .dupX _ _ => true
  | .dig0 _ => true
  | .dig1 _ => true
  | .dig2 _ => true
  | .digX _ _ => true
  | .call _ => true
  | .calli => true
  | .ret => true
  | .add _ => true
  | .sub _ => true
  | .mul _ => true
  | .div _ => true
  | .mod _ => true
  | .and _ => c.bitwise
  | .or _ => c.bitwise
  | .xor _ => c.bitwise
  | .not _ => c.bitwise
  | .fadd => c.fpu
  | .fsub => c.fpu
  | .fmul => c.fpu
  | .fdiv => c.fpu
  | .convf => c.fpu
  | .convi => c.fpu
  | .bra _ => true
  | .beq _ => true
  | .bne _ => true
  | .blt _ => true
  | .bgt _ => true
  | .ble _ => true
  | .bge _ => true
  | .braAlt _ => true
  | .yield => true
  | .halt => true

/-- The operands are values the encoding can hold: STORE.XW has width codes 0 and 1 only (30_encoding.md R95), and the
immediate of LOAD.IMM is a value of `w` bytes (R109). Every other operand's type is its range. -/
def Instr.operandsFit (c : Config) : Instr → Bool
  | .loadDir _ _ => true
  | .loadXb _ _ => true
  | .loadXw _ => true
  | .loadImm ww imm => decide (imm.toNat < 2 ^ (8 * (Machine.resolveWidth c ww).bytes))
  | .storeDir _ _ => true
  | .storeXb _ _ => true
  | .storeXw ww => decide (ww.toNat < 2)
  | .pop _ => true
  | .dup0 _ => true
  | .dup1 _ => true
  | .dup2 _ => true
  | .dupX _ _ => true
  | .dig0 _ => true
  | .dig1 _ => true
  | .dig2 _ => true
  | .digX _ _ => true
  | .call _ => true
  | .calli => true
  | .ret => true
  | .add _ => true
  | .sub _ => true
  | .mul _ => true
  | .div _ => true
  | .mod _ => true
  | .and _ => true
  | .or _ => true
  | .xor _ => true
  | .not _ => true
  | .fadd => true
  | .fsub => true
  | .fmul => true
  | .fdiv => true
  | .convf => true
  | .convi => true
  | .bra _ => true
  | .beq _ => true
  | .bne _ => true
  | .blt _ => true
  | .bgt _ => true
  | .ble _ => true
  | .bge _ => true
  | .braAlt _ => true
  | .yield => true
  | .halt => true

/-- An instruction that the configuration has, with operands its encoding can hold. -/
def Instr.wellFormed (c : Config) (i : Instr) : Bool := i.present c && i.operandsFit c

end Sys2Proof
end

