-- ==== Sys2Proof/Decode.lean ====
section
/-!
DEFINITION. The decoder (30_encoding.md R107 to R109, R115), total on any bytes and rejecting by name, and after it
the encoder, written from the layouts of R92 to R105; at the end the decoder on a numbered word.
-/

namespace Sys2Proof

/-- Why bytes are no instruction: an unknown opcode byte (30_encoding.md R106), or operand bytes that are missing
(R115). -/
inductive DecodeError where
  | unknownOpcode
  | truncated
  deriving DecidableEq, Repr

/-- What an opcode byte decodes to: how many operand bytes follow it (30_encoding.md R108), and the instruction they
then make (R109). -/
structure Form where
  operandBytes : Nat
  build : List Byte → Instr

/-- A form that exists only when its option is on (30_encoding.md R106). -/
def formWhen (present : Bool) (f : Form) : Option Form := if present then some f else none

/-- A form without operand bytes. -/
def bareForm (i : Instr) : Form := ⟨0, fun _ => i⟩

/-- The displacement of a branch with size bit `s` (30_encoding.md R103, R109). -/
def dispForm (s : BitVec 1) (mk : Disp → Instr) : Form :=
  if s = 0#1 then ⟨1, fun bs => mk (.d8 (Machine.firstByte bs))⟩ else ⟨2, fun bs => mk (.d16 (Machine.ofLE16 bs))⟩

/-- `DecodeByte`: the decoder of an opcode byte, a function of the byte and the configuration alone
(30_encoding.md R107). -/
def decodeByte (c : Config) (op : Byte) : Option Form :=
  let ww : BitVec 2 := op.extractLsb' 0 2
  let m : Nat := (op.extractLsb' 2 2).toNat
  let n : Nat := op.toNat
  if n ≤ 0x0F then
    match m with
    | 0 => some ⟨2, fun bs => .loadDir ww (Machine.ofLE16 bs)⟩
    | 1 => formWhen c.indexedByte ⟨1, fun bs => .loadXb ww (Machine.firstByte bs)⟩
    | 2 => some (bareForm (.loadXw ww))
    | _ => formWhen (!c.indexedByte) ⟨(Machine.resolveWidth c ww).bytes, fun bs => .loadImm ww (Machine.ofLE bs)⟩
  else if n ≤ 0x19 then
    match m with
    | 0 => some ⟨2, fun bs => .storeDir ww (Machine.ofLE16 bs)⟩
    | 1 => formWhen c.indexedByte ⟨1, fun bs => .storeXb ww (Machine.firstByte bs)⟩
    | _ => some (bareForm (.storeXw ww))
  else if 0x1C ≤ n && n ≤ 0x1F then some (bareForm (.pop ww))
  else if 0x20 ≤ n && n ≤ 0x2F then
    match m with
    | 0 => some (bareForm (.dup0 ww))
    | 1 => some (bareForm (.dup1 ww))
    | 2 => some (bareForm (.dup2 ww))
    | _ => some ⟨1, fun bs => .dupX ww (Machine.firstByte bs)⟩
  else if 0x30 ≤ n && n ≤ 0x3F then
    match m with
    | 0 => some (bareForm (.dig0 ww))
    | 1 => some (bareForm (.dig1 ww))
    | 2 => some (bareForm (.dig2 ww))
    | _ => some ⟨1, fun bs => .digX ww (Machine.firstByte bs)⟩
  else if n = 0x40 then some ⟨2, fun bs => .call (Machine.ofLE16 bs)⟩
  else if n = 0x41 then some (bareForm .calli)
  else if n = 0x42 then some (bareForm .ret)
  else if 0x80 ≤ n && n ≤ 0xAB then
    match (op.extractLsb' 2 4).toNat with
    | 0 => some (bareForm (.add ww))
    | 1 => some (bareForm (.sub ww))
    | 2 => some (bareForm (.mul ww))
    | 3 => some (bareForm (.div ww))
    | 4 => some (bareForm (.mod ww))
    | 5 => formWhen c.bitwise (bareForm (.and ww))
    | 6 => formWhen c.bitwise (bareForm (.or ww))
    | 7 => formWhen c.bitwise (bareForm (.xor ww))
    | 8 => formWhen c.bitwise (bareForm (.not ww))
    | _ => none
  else if n = 0xAC then formWhen c.fpu (bareForm .fadd)
  else if n = 0xAD then formWhen c.fpu (bareForm .fsub)
  else if n = 0xAE then formWhen c.fpu (bareForm .fmul)
  else if n = 0xAF then formWhen c.fpu (bareForm .fdiv)
  else if n = 0xBC then formWhen c.fpu (bareForm .convf)
  else if n = 0xBD then formWhen c.fpu (bareForm .convi)
  else if 0xC0 ≤ n && n ≤ 0xCF then
    let s : BitVec 1 := op.extractLsb' 0 1
    match (op.extractLsb' 1 3).toNat with
    | 0 => some (dispForm s .bra)
    | 1 => some (dispForm s .beq)
    | 2 => some (dispForm s .bne)
    | 3 => some (dispForm s .blt)
    | 4 => some (dispForm s .bgt)
    | 5 => some (dispForm s .ble)
    | 6 => some (dispForm s .bge)
    | _ => none
  else if n = 0xD0 then some ⟨1, fun bs => .braAlt (Machine.firstByte bs)⟩
  else if n = 0xFE then some (bareForm .yield)
  else if n = 0xFF then some (bareForm .halt)
  else none

/-- Decoding the bytes that follow in the buffer, the opcode byte first. An unknown opcode outranks missing operand
bytes (30_encoding.md R115, 60_exceptions.md R259). No byte at all is an instruction without its opcode byte. -/
def decode (c : Config) : List Byte → Except DecodeError Instr
  | [] => .error .truncated
  | op :: rest =>
    match decodeByte c op with
    | none => .error .unknownOpcode
    | some f => if f.operandBytes ≤ rest.length then .ok (f.build (rest.take f.operandBytes)) else .error .truncated

/-- The longest instruction: LOAD.IMM.8 (30_encoding.md R108). -/
def maxLength : Nat := 9

/-- The number of bytes of a displacement. -/
def Disp.length : Disp → Nat
  | .d8 _ => 1
  | .d16 _ => 2

/-- The length of an instruction in bytes (30_encoding.md R108). -/
def Instr.length (c : Config) : Instr → Nat
  | .loadDir _ _ => 3
  | .loadXb _ _ => 2
  | .loadXw _ => 1
  | .loadImm ww _ => 1 + (Machine.resolveWidth c ww).bytes
  | .storeDir _ _ => 3
  | .storeXb _ _ => 2
  | .storeXw _ => 1
  | .pop _ => 1
  | .dup0 _ => 1
  | .dup1 _ => 1
  | .dup2 _ => 1
  | .dupX _ _ => 2
  | .dig0 _ => 1
  | .dig1 _ => 1
  | .dig2 _ => 1
  | .digX _ _ => 2
  | .call _ => 3
  | .calli => 1
  | .ret => 1
  | .add _ => 1
  | .sub _ => 1
  | .mul _ => 1
  | .div _ => 1
  | .mod _ => 1
  | .and _ => 1
  | .or _ => 1
  | .xor _ => 1
  | .not _ => 1
  | .fadd => 1
  | .fsub => 1
  | .fmul => 1
  | .fdiv => 1
  | .convf => 1
  | .convi => 1
  | .bra d => 1 + d.length
  | .beq d => 1 + d.length
  | .bne d => 1 + d.length
  | .blt d => 1 + d.length
  | .bgt d => 1 + d.length
  | .ble d => 1 + d.length
  | .bge d => 1 + d.length
  | .braAlt _ => 2
  | .yield => 1
  | .halt => 1

/-- A 16-bit operand, little-endian (30_encoding.md R109). -/
def encode16 (a : BitVec 16) : List Byte := [a.extractLsb' 0 8, a.extractLsb' 8 8]

/-- The size bit `s` of a displacement (30_encoding.md R103). -/
def Disp.sizeBit : Disp → BitVec 1
  | .d8 _ => 0#1
  | .d16 _ => 1#1

/-- The operand bytes of a displacement (30_encoding.md R109). -/
def Disp.encode : Disp → List Byte
  | .d8 d => [d]
  | .d16 d => encode16 d

/-- A branch `0b1100_ccc_s` and its displacement (30_encoding.md R103). -/
def encodeBranch (ccc : BitVec 3) (d : Disp) : List Byte := (0b1100#4 ++ ccc ++ d.sizeBit) :: d.encode

/-- The bytes of an instruction, written from the layouts of 30_encoding.md R92 to R105. -/
def encode (c : Config) : Instr → List Byte
  | .loadDir ww a16 => (0b0000_00#6 ++ ww) :: encode16 a16
  | .loadXb ww off8 => [0b0000_01#6 ++ ww, off8]
  | .loadXw ww => [0b0000_10#6 ++ ww]
  | .loadImm ww imm => (0b0000_11#6 ++ ww) :: Machine.leBytes (Machine.resolveWidth c ww).bytes imm
  | .storeDir ww a16 => (0b0001_00#6 ++ ww) :: encode16 a16
  | .storeXb ww off8 => [0b0001_01#6 ++ ww, off8]
  | .storeXw ww => [0b0001_10#6 ++ ww]
  | .pop ww => [0b0001_11#6 ++ ww]
  | .dup0 ww => [0b0010_00#6 ++ ww]
  | .dup1 ww => [0b0010_01#6 ++ ww]
  | .dup2 ww => [0b0010_10#6 ++ ww]
  | .dupX ww k8 => [0b0010_11#6 ++ ww, k8]
  | .dig0 ww => [0b0011_00#6 ++ ww]
  | .dig1 ww => [0b0011_01#6 ++ ww]
  | .dig2 ww => [0b0011_10#6 ++ ww]
  | .digX ww k8 => [0b0011_11#6 ++ ww, k8]
  | .call a16 => 0x40#8 :: encode16 a16
  | .calli => [0x41#8]
  | .ret => [0x42#8]
  | .add ww => [0b10_0000#6 ++ ww]
  | .sub ww => [0b10_0001#6 ++ ww]
  | .mul ww => [0b10_0010#6 ++ ww]
  | .div ww => [0b10_0011#6 ++ ww]
  | .mod ww => [0b10_0100#6 ++ ww]
  | .and ww => [0b10_0101#6 ++ ww]
  | .or ww => [0b10_0110#6 ++ ww]
  | .xor ww => [0b10_0111#6 ++ ww]
  | .not ww => [0b10_1000#6 ++ ww]
  | .fadd => [0xAC#8]
  | .fsub => [0xAD#8]
  | .fmul => [0xAE#8]
  | .fdiv => [0xAF#8]
  | .convf => [0xBC#8]
  | .convi => [0xBD#8]
  | .bra d => encodeBranch 0#3 d
  | .beq d => encodeBranch 1#3 d
  | .bne d => encodeBranch 2#3 d
  | .blt d => encodeBranch 3#3 d
  | .bgt d => encodeBranch 4#3 d
  | .ble d => encodeBranch 5#3 d
  | .bge d => encodeBranch 6#3 d
  | .braAlt d => [0xD0#8, d]
  | .yield => [0xFE#8]
  | .halt => [0xFF#8]

/-- The bytes of an instruction whose bits are the low `nbits` bits of `w`, bit 0 the least significant bit of the
first byte, with zero bytes up to the longest instruction. -/
def wordBytes (nbits w : Nat) : List Byte :=
  Machine.leBytes 8 (BitVec.ofNat 64 (w % 2 ^ nbits)) ++ [BitVec.ofNat 8 ((w % 2 ^ nbits) >>> 64)]

/-- The configuration with the option that the opcode byte's row needs (the `present_when` of the opcode table), every
other option as it was (log entry 14). -/
def Config.enabling (c : Config) (op : Byte) : Config :=
  let n := op.toNat
  if (0x04 ≤ n && n ≤ 0x07) || (0x14 ≤ n && n ≤ 0x17) then { c with indexedByte := true }
  else if 0x0C ≤ n && n ≤ 0x0F then { c with indexedByte := false }
  else if 0x94 ≤ n && n ≤ 0xA3 then { c with bitwise := true }
  else if (0xAC ≤ n && n ≤ 0xAF) || n = 0xBC || n = 0xBD then { c with fpu := true }
  else c

/-- The instruction the decoder reads from a numbered word, under the default configuration with the option that the
word's row needs (log entry 14). -/
def decodeTableWord (nbits w : Nat) : Option Instr :=
  match decode (Config.cfg0.enabling (Machine.firstByte (wordBytes nbits w))) (wordBytes nbits w) with
  | .ok i => some i
  | .error _ => none

end Sys2Proof
end

