-- ==== Sys2Proof/Machine/Float.lean ====
section
/-!
DEFINITION. IEEE 754 binary32 on bit patterns, by exact integer arithmetic and one rounding (43_fpu.md R200 to R202).
Every finite float is an integer multiple of 2^-149, the smallest subnormal: that integer is its value here.
The arithmetic is IEEE 754's, which the spec names without writing it out: PRESUMED, unsafe (log entry 10).
-/

namespace Sys2Proof.Machine

/-- The sign bit, bit 31 (43_fpu.md R200). -/
def f32Sign (x : Acc) : Bool := x.getLsbD 31

/-- The biased exponent, bits 30:23 (R200). -/
def f32Exp (x : Acc) : Nat := (x.extractLsb' 23 8).toNat

/-- The fraction, bits 22:0 (R200). -/
def f32Frac (x : Acc) : Nat := (x.extractLsb' 0 23).toNat

/-- A NaN: exponent all ones, fraction not zero. -/
def f32IsNaN (x : Acc) : Bool := f32Exp x = 255 && f32Frac x ≠ 0

/-- An infinity: exponent all ones, fraction zero. -/
def f32IsInf (x : Acc) : Bool := f32Exp x = 255 && f32Frac x = 0

/-- Neither a NaN nor an infinity. -/
def f32IsFinite (x : Acc) : Bool := f32Exp x ≠ 255

/-- `F32IsZero`: +0.0 or -0.0 (R201). -/
def f32IsZero (x : Acc) : Bool := f32Exp x = 0 && f32Frac x = 0

/-- `F32Less(x, +0.0)`: negative, not -0.0 and not a NaN (R201). -/
def f32IsNegative (x : Acc) : Bool := f32Sign x && !f32IsZero x && !f32IsNaN x

/-- The significand of a finite float, with the hidden bit of a normal number. -/
def f32Mant (x : Acc) : Nat := if f32Exp x = 0 then f32Frac x else 2 ^ 23 + f32Frac x

/-- How far the significand of a finite float is shifted left of the unit 2^-149. -/
def f32Scale (x : Acc) : Nat := if f32Exp x = 0 then 0 else f32Exp x - 1

/-- The magnitude of a finite float in units of 2^-149. -/
def f32Mag (x : Acc) : Nat := f32Mant x * 2 ^ f32Scale x

/-- The value of a finite float in units of 2^-149. -/
def f32Int (x : Acc) : Int := if f32Sign x then -(f32Mag x : Int) else (f32Mag x : Int)

/-- The bits of a float with a sign and the 31 bits below it. -/
def f32Pack (sign : Bool) (mag : Nat) : Acc := BitVec.ofNat 32 ((if sign then 2 ^ 31 else 0) + mag)

/-- The 31 bits of an infinity. -/
def f32InfMag : Nat := 255 * 2 ^ 23

/-- The position of the highest bit set, plus one; 0 for 0. -/
def bitLength (m : Nat) : Nat := if m = 0 then 0 else Nat.log2 m + 1

/-- `m / 2^sh` rounded to nearest, ties to even (R202). -/
def roundShift (m sh : Nat) : Nat :=
  let q := m / 2 ^ sh
  let r := m % 2 ^ sh
  if 2 * r > 2 ^ sh || (2 * r = 2 ^ sh && q % 2 = 1) then q + 1 else q

/-- The 31 bits of the float nearest to `m * 2^-k` units of 2^-149: 24 significant bits, but none below the unit; a
magnitude past the largest float is an infinity (R202). -/
def f32Round (m k : Nat) : Nat :=
  let sh := max (bitLength m - 24) k
  min (2 ^ 23 * (sh - k) + roundShift m sh) f32InfMag

/-- `F32Add`; `none` is a NaN (43_fpu.md R203). An exact sum of zero is +0.0 unless both operands are negative. -/
def f32Add (a b : Acc) : Option Acc :=
  if f32IsNaN a || f32IsNaN b then none
  else if f32IsInf a then (if f32IsInf b && (f32Sign a != f32Sign b) then none else some a)
  else if f32IsInf b then some b
  else
    let m := f32Int a + f32Int b
    if m = 0 then some (f32Pack (f32Sign a && f32Sign b) 0) else some (f32Pack (decide (m < 0)) (f32Round m.natAbs 0))

/-- The float with its sign bit changed. -/
def f32Neg (x : Acc) : Acc := x ^^^ 0x80000000#32

/-- `F32Sub`: `a - b`; `none` is a NaN (R204). -/
def f32Sub (a b : Acc) : Option Acc := f32Add a (f32Neg b)

/-- `F32Mul`; `none` is a NaN (R205). -/
def f32Mul (a b : Acc) : Option Acc :=
  let sign := f32Sign a != f32Sign b
  if f32IsNaN a || f32IsNaN b then none
  else if f32IsInf a then (if f32IsZero b then none else some (f32Pack sign f32InfMag))
  else if f32IsInf b then (if f32IsZero a then none else some (f32Pack sign f32InfMag))
  else some (f32Pack sign (f32Round (f32Mag a * f32Mag b) 149))

/-- `F32Div`: `a / b`; `none` is a NaN (R206). The quotient keeps two bits below the unit 2^-149 and one bit that says
whether anything was left over, which is enough to round it once. FDIV never divides by a zero (its guard comes
first). -/
def f32Div (a b : Acc) : Option Acc :=
  let sign := f32Sign a != f32Sign b
  if f32IsNaN a || f32IsNaN b then none
  else if f32IsInf a then (if f32IsInf b then none else some (f32Pack sign f32InfMag))
  else if f32IsInf b then some (f32Pack sign 0)
  else if f32IsZero b then (if f32IsZero a then none else some (f32Pack sign f32InfMag))
  else
    let x := 2 ^ 151 * f32Mag a
    let y := f32Mag b
    let left := if x % y = 0 then 0 else 1
    some (f32Pack sign (f32Round (2 * (x / y) + left) 3))

/-- `F32FromInt` (R208). -/
def f32FromInt (v : Int) : Acc := f32Pack (decide (v < 0)) (f32Round (2 ^ 149 * v.natAbs) 0)

/-- `trunc(x)`: a finite float rounded toward zero to an integer (R209). -/
def f32Trunc (x : Acc) : Int :=
  let t : Nat := f32Mag x / 2 ^ 149
  if f32Sign x then -(t : Int) else (t : Int)

/-- `FNAN(op, a, b)`: the free bits, made a NaN where they are none (R202; log entry 8). Every NaN is possible. -/
def fnan (op : FloatOp) (a b : Acc) : Acc :=
  let x := Config.fnanBits op a b
  if f32IsNaN x then x else x ||| 0x7FC00000#32

/-- The bits of a float result: the float, or `FNAN` where the IEEE result is a NaN (R202). -/
def f32Result (op : FloatOp) (a b : Acc) : Option Acc → Acc
  | some r => r
  | none => fnan op a b

end Sys2Proof.Machine
end

