-- ==== Sys2Proof/Machine/Memory.lean ====
section
/-!
DEFINITION. The memory buffer (10_state.md R32) as a list of (address, byte) pairs in one canonical form: addresses
strictly rising, and no entry equal to what an unlisted address reads as.
-/

namespace Sys2Proof.Machine

/-- The memory buffer: the listed bytes; every other address reads as `memFill`. -/
abbrev Memory := List Host.Cell

/-- What an unlisted address reads as. DESIGN CHOICE, unsafe (log entry 3): the launch contents `MEM0` are open
(70_reset_and_hazards.md R280), and a byte that neither the host's image nor the program wrote reads as 0. -/
def memFill : Byte := 0

/-- The canonical form: addresses strictly rising, no listed byte equal to `memFill`. -/
abbrev Memory.wf (m : Memory) : Prop := m.Pairwise (fun p q => p.1 < q.1) ∧ ∀ p ∈ m, p.2 ≠ memFill

/-- The byte at an address. -/
def Memory.read : Memory → Nat → Byte
  | [], _ => memFill
  | (a, b) :: m, x => if a = x then b else Memory.read m x

/-- The memory with no entry at an address. -/
def Memory.erase : Memory → Nat → Memory
  | [], _ => []
  | (a, b) :: m, x => if a = x then Memory.erase m x else (a, b) :: Memory.erase m x

/-- The memory with an entry put before the first higher address. -/
def Memory.insert : Memory → Nat → Byte → Memory
  | [], x, v => [(x, v)]
  | (a, b) :: m, x, v => if x < a then (x, v) :: (a, b) :: m else (a, b) :: Memory.insert m x v

/-- The memory with one byte written; writing `memFill` leaves no entry. -/
def Memory.write (m : Memory) (x : Nat) (v : Byte) : Memory :=
  if v = memFill then m.erase x else (m.erase x).insert x v

/-- The `n` bytes from an address upwards. -/
def Memory.readBytes (m : Memory) : Nat → Nat → List Byte
  | _, 0 => []
  | a, n + 1 => m.read a :: Memory.readBytes m (a + 1) n

/-- The memory with a list of bytes written from an address upwards. -/
def Memory.writeBytes (m : Memory) : Nat → List Byte → Memory
  | _, [] => m
  | a, b :: bs => Memory.writeBytes (m.write a b) (a + 1) bs

end Sys2Proof.Machine
end

