-- ==== Sys2Proof/Machine/State.lean ====
section
/-!
DEFINITION. The machine state (10_state.md R30) with the launch constants and the configuration record that the step
reads beside it (R30, R31), the fault kinds (60_exceptions.md R250), the launch state and State.reset
(70_reset_and_hazards.md R280).
-/

namespace Sys2Proof.Machine

/-- The statuses of a step that did not fault (00_scope.md R8). A fault is an outcome of its own. -/
inductive Status where
  | continuing
  | halted
  | yielded
  deriving DecidableEq, Repr

/-- The status values of 00_scope.md R8. -/
def Status.code : Status → Int
  | .continuing => 0
  | .halted => -1
  | .yielded => -2

/-- The fault kinds (60_exceptions.md R250). Each is raised where the spec raises it, and the state after it is the
state before the step (R252), which the outcome does not repeat: safe (log entry 15). -/
inductive Fault where
  /-- Raised by the step at decode, when the opcode byte is unknown under the configuration (R254). Safe. -/
  | unknownInstruction
  /-- Raised by DIV and MOD when the 32-bit divisor is 0, after both pops (R255). Safe. -/
  | divideByZero
  /-- Raised by the step when `ip` is outside the buffer, and by every access outside the buffer and every push or pop
  outside the stack (R256). Safe. -/
  | boundsViolation
  /-- Raised by the step at decode, when operand bytes lie outside the buffer (R257). Safe. -/
  | truncatedInstruction
  deriving DecidableEq, Repr

/-- The fault codes of 60_exceptions.md R250. -/
def Fault.code : Fault → Nat
  | .unknownInstruction => 1
  | .divideByZero => 2
  | .boundsViolation => 3
  | .truncatedInstruction => 4

/-- The status value of a step that faulted (00_scope.md R8). -/
def Fault.status (_ : Fault) : Int := -3

/-- Why the model has no meaning for an instruction. No arm and no meaning answers with it: safe. -/
inductive Refusal where
  /-- Raised by no instruction of this model: every row of the opcode table has its meaning. -/
  | notModelled (mnemonic : String)
  deriving DecidableEq, Repr

/-- The machine state `(mem, ip, sp, flags)` of 10_state.md R30, the launch constants `MEMSIZE` and `SP0` and the
configuration record, which no instruction writes (R30, R31; log entry 1), and the step's status output (00_scope.md
R8), which no step reads (R44; log entry 2). -/
structure State where
  /-- The memory buffer (10_state.md R32). -/
  mem     : Memory
  /-- The instruction pointer (R33). -/
  ip      : Addr
  /-- The stack pointer (R36). -/
  sp      : Addr
  /-- The flag register: Z in bit 0, N in bit 1, bits 7:2 reserved (R38). -/
  flags   : BitVec 8
  /-- `MEMSIZE`, the size of the buffer in bytes (00_scope.md R9). Constant. -/
  memSize : Nat
  /-- `SP0`, the initial stack pointer and the stack's upper bound (R37). Constant. -/
  sp0     : Addr
  /-- The configuration record (R31). Constant. -/
  cfg     : Config
  /-- The status that the last step returned (00_scope.md R8): an output, not the spec's state. -/
  status  : Status
  deriving DecidableEq, Repr

/-- The launch parameters (00_scope.md R9): what the host chooses when it creates a machine state. -/
structure Launch where
  memSize : Nat
  sp0     : Addr
  ip0     : Addr
  z0      : Bool
  n0      : Bool
  mem0    : Memory
  cfg     : Config
  deriving DecidableEq, Repr

/-- A well-formed launch (70_reset_and_hazards.md R282), with the image in the memory's canonical form and inside the
buffer. -/
abbrev Launch.wf (l : Launch) : Prop :=
  1 ≤ l.memSize ∧ l.memSize ≤ 65536 ∧ l.sp0.toNat ≤ l.memSize ∧ l.ip0.toNat < l.memSize ∧
    l.mem0.wf ∧ ∀ p ∈ l.mem0, p.1 < l.memSize

/-- The launch state (70_reset_and_hazards.md R280): the stack is empty, `ip` is the entry point. -/
def State.launch (l : Launch) : State :=
  { mem := l.mem0, ip := l.ip0, sp := l.sp0, flags := flagsOf l.z0 l.n0, memSize := l.memSize, sp0 := l.sp0,
    cfg := l.cfg, status := .continuing }

/-- The launch that State.reset takes: the defaults of 00_scope.md R9, and for the parameters without a default the
values of log entries 3, 4 and 5 (DESIGN CHOICE): the whole 64 KiB space, entry point 0, no image. -/
def Launch.default : Launch :=
  { memSize := 65536, sp0 := 0xFFFF#16, ip0 := 0#16, z0 := false, n0 := false, mem0 := [], cfg := Config.cfg0 }

/-- The machine right after reset: the launch state of the default launch. -/
def State.reset : State := State.launch Launch.default

end Sys2Proof.Machine
end

