-- ==== Sys2Proof/Machine/Ops.lean ====
section
/-!
DEFINITION. The named operations over the working copy of the state (00_scope.md R12, R13): record updates, memory
accesses, the stack engine, and the end of a step. The machine has no trap and no return from one (60_exceptions.md
R260, R261): raising a fault, `Except.error`, is its one exceptional outcome, and it discards the working copy (R252).
-/

namespace Sys2Proof.Machine

/-- How a step or an instruction ends. -/
abbrev Result := Host.Outcome State Fault Refusal

/-- The working copy with another memory. -/
def State.withMem (s : State) (m : Memory) : State := { s with mem := m }

/-- The working copy with another stack pointer. -/
def State.withSp (s : State) (sp : Addr) : State := { s with sp := sp }

/-- The working copy with another flag register. -/
def State.withFlags (s : State) (f : BitVec 8) : State := { s with flags := f }

/-- The working copy with another configuration record; used where a program is loaded, by no instruction. -/
def State.withCfg (s : State) (c : Config) : State := { s with cfg := c }

/-- The working copy at the end of a step: the instruction pointer and the status (10_state.md R34, 00_scope.md R8). -/
def State.finish (s : State) (ip : Addr) (status : Status) : State := { s with ip := ip, status := status }

/-- The end of every step that is neither a YIELD nor a HALT (44_control.md R242). -/
def State.continueAt (s : State) (ip : Addr) : State := s.finish ip .continuing

/-- The address of the byte after an instruction of `len` bytes, modulo 2^16 (30_encoding.md R116). -/
def State.nip (s : State) (len : Nat) : Addr := s.ip + BitVec.ofNat 16 len

/-- The width that a width code selects under the machine's configuration (30_encoding.md R100). -/
def State.width (s : State) (ww : BitVec 2) : Width := resolveWidth s.cfg ww

/-- The byte at an address. -/
def State.readByte (s : State) (a : Nat) : Byte := s.mem.read a

/-- The little-endian value of the `w` bytes from an address upwards (20_memory.md R63). -/
def State.valueAt (s : State) (a : Nat) (w : Width) : Value := ofLE (s.mem.readBytes a w.bytes)

/-- The end of an instruction: the working copy becomes the next state unless a fault was raised (00_scope.md R13,
60_exceptions.md R251, R252). -/
def endStep : Except Fault State → Result
  | .ok s => .next s
  | .error f => .fault f

/-- Reading `n` bytes at an address, in bounds or BOUNDS_VIOLATION (20_memory.md R62). -/
def readRange (a : Addr) (n : Nat) (s : State) : Except Fault (List Byte) :=
  if a.toNat + n ≤ s.memSize then .ok (s.mem.readBytes a.toNat n) else .error .boundsViolation

/-- Writing a list of bytes at an address, in bounds or BOUNDS_VIOLATION (20_memory.md R62). -/
def writeRange (a : Addr) (bs : List Byte) (s : State) : Except Fault State :=
  if a.toNat + bs.length ≤ s.memSize then .ok (s.withMem (s.mem.writeBytes a.toNat bs)) else .error .boundsViolation

/-- `MemRead(addr, n)` (20_memory.md R63). -/
def memRead (a : Addr) (w : Width) (s : State) : Except Fault Value := do
  let bs ← readRange a w.bytes s
  .ok (ofLE bs)

/-- `MemWrite(addr, n, v)` (20_memory.md R64). -/
def memWrite (a : Addr) (w : Width) (v : Value) (s : State) : Except Fault State :=
  writeRange a (leBytes w.bytes v) s

/-- `Push(n, v)` (20_memory.md R68). -/
def push (w : Width) (v : Value) (s : State) : Except Fault State :=
  if s.sp.toNat < w.bytes then .error .boundsViolation
  else
    let sp := s.sp - BitVec.ofNat 16 w.bytes
    memWrite sp w v (s.withSp sp)

/-- `Pop(n)` (20_memory.md R69). -/
def pop (w : Width) (s : State) : Except Fault (Value × State) :=
  if s.sp.toNat + w.bytes ≤ s.sp0.toNat then do
    let v ← memRead s.sp w s
    .ok (v, s.withSp (s.sp + BitVec.ofNat 16 w.bytes))
  else .error .boundsViolation

end Sys2Proof.Machine
end

