-- ==== Sys2Proof/Machine/Flags.lean ====
section
/-!
DEFINITION. The flag register's fields (10_state.md R38), every flag computation (42_alu.md R172, 43_fpu.md R201,
R208, R209) and the branch conditions (44_control.md R222, R223).
-/

namespace Sys2Proof.Machine

/-- The Zero flag, bit 0 (10_state.md R38). -/
def State.z (s : State) : Bool := s.flags.getLsbD 0

/-- The Negative flag, bit 1 (R38). -/
def State.n (s : State) : Bool := s.flags.getLsbD 1

/-- Writing both flags; the reserved bits are never written (R38, R39). -/
def State.setZN (s : State) (z n : Bool) : State := s.withFlags ((s.flags &&& 0xFC#8) ||| flagsOf z n)

/-- The sign bit of a value of width `w`: bit `8*w - 1` (42_alu.md R172). -/
def signBit (w : Width) (v : Value) : Bool := v.getLsbD (8 * w.bytes - 1)

/-- The flags of an integer result (42_alu.md R172). -/
def State.setIntFlags (s : State) (w : Width) (r : Value) : State := s.setZN (decide (r = 0)) (signBit w r)

/-- The flags of a float result (43_fpu.md R201). -/
def State.setFloatFlags (s : State) (r : Acc) : State := s.setZN (f32IsZero r) (f32IsNegative r)

/-- Flags written only when `CONV_SETS_FLAGS` is true (43_fpu.md R208, R209). -/
def State.whenConvSetsFlags (s : State) (t : State) : State := if s.cfg.convSetsFlags then t else s

/-- The branch conditions, named by condition code 0 to 6 (30_encoding.md R104). -/
inductive Cond where
  | always
  | eq
  | ne
  | lt
  | gt
  | le
  | ge
  deriving DecidableEq, Repr

/-- The condition under the FLAGS strategy (44_control.md R222). -/
def Cond.onFlags (z n : Bool) : Cond → Bool
  | .always => true
  | .eq => z
  | .ne => !z
  | .lt => n
  | .gt => !z && !n
  | .le => z || n
  | .ge => !n

/-- The condition under the STACK strategy, of the popped value read as signed (44_control.md R223). -/
def Cond.onValue (x : Int) : Cond → Bool
  | .always => true
  | .eq => decide (x = 0)
  | .ne => decide (x ≠ 0)
  | .lt => decide (x < 0)
  | .gt => decide (0 < x)
  | .le => decide (x ≤ 0)
  | .ge => decide (0 ≤ x)

end Sys2Proof.Machine
end

