-- ==== Sys2Proof/Machine/Operands.lean ====
section
/-!
DEFINITION. The operand forms: stack-supplied addresses and floats, effective addresses (40_load_store.md R130 to
R132), branch displacements (30_encoding.md R109, 44_control.md R220) and the evaluation of a branch condition.
-/

namespace Sys2Proof.Machine

/-- The 2-byte element at an address, as an address. -/
def State.addrAt (s : State) (a : Nat) : Addr := (s.valueAt a .w2).setWidth 16

/-- The 4-byte element at an address. -/
def State.accAt (s : State) (a : Nat) : Acc := (s.valueAt a .w4).setWidth 32

/-- Popping a 2-byte stack element: a base, an offset, a call target or a return address (20_memory.md R71,
40_load_store.md R132). -/
def popAddr (s : State) : Except Fault (Addr × State) := do
  let (v, s) ← pop .w2 s
  .ok (v.setWidth 16, s)

/-- Pushing a 2-byte return address (44_control.md R233, R237). -/
def pushAddr (a : Addr) (s : State) : Except Fault State := push .w2 (a.setWidth 64) s

/-- Popping 4 bytes: a float, an integer to convert, or the value a STACK-strategy branch compares (20_memory.md R71). -/
def popAcc (s : State) : Except Fault (Acc × State) := do
  let (v, s) ← pop .w4 s
  .ok (v.setWidth 32, s)

/-- Pushing 4 bytes. -/
def pushAcc (v : Acc) (s : State) : Except Fault State := push .w4 (v.setWidth 64) s

/-- The effective address of the indexed-byte mode: base + unsigned offset, modulo 2^16 (40_load_store.md R130, R131). -/
def eaIndexedByte (base : Addr) (off8 : Byte) : Addr := base + off8.setWidth 16

/-- The effective address of the indexed-word mode: base + offset, modulo 2^16 (40_load_store.md R130, R131). -/
def eaIndexedWord (base off : Addr) : Addr := base + off

/-- A displacement as 16 bits (30_encoding.md R109, 44_control.md R220). -/
def dispValue : Disp → Addr
  | .d8 d => d.signExtend 16
  | .d16 d => d

/-- The target of a branch, modulo 2^16; it is not checked (44_control.md R220). -/
def branchTarget (nip : Addr) (d : Disp) : Addr := nip + dispValue d

/-- Evaluating a condition: on the flags, or on a value that is popped under every outcome; an unconditional branch pops
nothing (44_control.md R221 to R223). -/
def evalCond (cond : Cond) (s : State) : Except Fault (Bool × State) :=
  match s.cfg.branchSrc with
  | .flags => .ok (cond.onFlags s.z s.n, s)
  | .stack =>
    if cond = .always then .ok (true, s)
    else do
      let (v, s) ← popAcc s
      .ok (cond.onValue v.toInt, s)

end Sys2Proof.Machine
end

