-- ==== Sys2Proof/Machine/Alu.lean ====
section
/-!
DEFINITION. The integer ALU (42_alu.md).
-/

namespace Sys2Proof.Machine

/-- The pushed value of an accumulator result: masked to `8*w` bits, and zero-extended at width 8 (42_alu.md R170, R174). -/
def aluResult (w : Width) (r : Acc) : Value := maskTo w (r.setWidth 64)

/-- The end of every integer command: push the result, write both flags from it, go on (R170 to R172). -/
def aluFinish (w : Width) (r : Acc) (nip : Addr) (s : State) : Except Fault State := do
  let s ← push w (aluResult w r) s
  .ok ((s.setIntFlags w (aluResult w r)).continueAt nip)

/-- `AluBinary(f)`: `b` is the top element, `a` the one below (42_alu.md R170). -/
def aluBinary (f : Acc → Acc → Except Fault Acc) (ww : BitVec 2) (s : State) : Except Fault State := do
  let (b, t) ← pop (s.width ww) s
  let (a, t) ← pop (s.width ww) t
  let r ← f (a.setWidth 32) (b.setWidth 32)
  aluFinish (s.width ww) r (s.nip 1) t

/-- `AluUnary(f)` (42_alu.md R171). -/
def aluUnary (f : Acc → Acc) (ww : BitVec 2) (s : State) : Except Fault State := do
  let (a, t) ← pop (s.width ww) s
  aluFinish (s.width ww) (f (a.setWidth 32)) (s.nip 1) t

/-- The unsigned quotient, or DIVIDE_BY_ZERO (42_alu.md R178). -/
def accDiv (a b : Acc) : Except Fault Acc := if b = 0 then .error .divideByZero else .ok (a / b)

/-- The unsigned remainder, or DIVIDE_BY_ZERO (42_alu.md R179). -/
def accMod (a b : Acc) : Except Fault Acc := if b = 0 then .error .divideByZero else .ok (a % b)

/-- NOT, logical or bitwise by the configuration (42_alu.md R183). -/
def accNot (kind : NotKind) (a : Acc) : Acc :=
  match kind with
  | .logical => if a = 0 then 1 else 0
  | .bitwise => ~~~a

/-- ADD (42_alu.md R175). -/
def execAdd (ww : BitVec 2) (s : State) : Result := endStep (aluBinary (fun a b => .ok (a + b)) ww s)

/-- SUB: `a - b` (R176). -/
def execSub (ww : BitVec 2) (s : State) : Result := endStep (aluBinary (fun a b => .ok (a - b)) ww s)

/-- MUL (R177). -/
def execMul (ww : BitVec 2) (s : State) : Result := endStep (aluBinary (fun a b => .ok (a * b)) ww s)

/-- DIV (R178). -/
def execDiv (ww : BitVec 2) (s : State) : Result := endStep (aluBinary accDiv ww s)

/-- MOD (R179). -/
def execMod (ww : BitVec 2) (s : State) : Result := endStep (aluBinary accMod ww s)

/-- AND (R180). -/
def execAnd (ww : BitVec 2) (s : State) : Result := endStep (aluBinary (fun a b => .ok (a &&& b)) ww s)

/-- OR (R181). -/
def execOr (ww : BitVec 2) (s : State) : Result := endStep (aluBinary (fun a b => .ok (a ||| b)) ww s)

/-- XOR (R182). -/
def execXor (ww : BitVec 2) (s : State) : Result := endStep (aluBinary (fun a b => .ok (a ^^^ b)) ww s)

/-- NOT (R183). -/
def execNot (ww : BitVec 2) (s : State) : Result := endStep (aluUnary (accNot s.cfg.notKind) ww s)

end Sys2Proof.Machine
end

