-- ==== Sys2Proof/Machine/Control.lean ====
section
/-!
DEFINITION. Branches, CALL, CALLI, RET, YIELD and HALT (44_control.md).
-/

namespace Sys2Proof.Machine

/-- `Branch(ccc, s)` (44_control.md R221). -/
def branch (cond : Cond) (d : Disp) (s : State) : Except Fault State := do
  let nip := s.nip (1 + d.length)
  let (taken, t) ← evalCond cond s
  .ok (t.continueAt (if taken then branchTarget nip d else nip))

/-- BRA (44_control.md R224). -/
def execBra (d : Disp) (s : State) : Result := endStep (branch .always d s)

/-- BEQ (R225). -/
def execBeq (d : Disp) (s : State) : Result := endStep (branch .eq d s)

/-- BNE (R226). -/
def execBne (d : Disp) (s : State) : Result := endStep (branch .ne d s)

/-- BLT (R227). -/
def execBlt (d : Disp) (s : State) : Result := endStep (branch .lt d s)

/-- BGT (R228). -/
def execBgt (d : Disp) (s : State) : Result := endStep (branch .gt d s)

/-- BLE (R229). -/
def execBle (d : Disp) (s : State) : Result := endStep (branch .le d s)

/-- BGE (R230). -/
def execBge (d : Disp) (s : State) : Result := endStep (branch .ge d s)

/-- BRA.S in its second encoding (R231). -/
def execBraAlt (d : BitVec 8) (s : State) : Result := endStep (branch .always (.d8 d) s)

/-- CALL (R233). -/
def execCall (a16 : Addr) (s : State) : Result :=
  endStep do
    let t ← pushAddr (s.nip 3) s
    .ok (t.continueAt a16)

/-- CALLI: the target is popped before the return address is pushed (R234). -/
def execCalli (s : State) : Result :=
  endStep do
    let (target, t) ← popAddr s
    let t ← pushAddr (s.nip 1) t
    .ok (t.continueAt target)

/-- RET (R235). -/
def execRet (s : State) : Result :=
  endStep do
    let (target, t) ← popAddr s
    .ok (t.continueAt target)

/-- YIELD (R240). -/
def execYield (s : State) : Result := endStep (.ok (s.finish (s.nip 1) .yielded))

/-- HALT: `ip` is not advanced (R243). -/
def execHalt (s : State) : Result := endStep (.ok (s.finish s.ip .halted))

end Sys2Proof.Machine
end

