-- ==== Sys2Proof/Machine/DupDig.lean ====
section
/-!
DEFINITION. DUP and DIG (41_dup_dig.md).
-/

namespace Sys2Proof.Machine

/-- The tests of both instructions: the window of `w + k` bytes lies in the stack, and there is room for `w` more bytes
(41_dup_dig.md R160). -/
def checkWindow (w : Width) (k : Nat) (s : State) : Except Fault Unit :=
  if s.sp0.toNat < s.sp.toNat + w.bytes + k then .error .boundsViolation
  else if s.sp.toNat < w.bytes then .error .boundsViolation
  else .ok ()

/-- DUP with depth `k` and length `len`: the window moves down by `w` bytes, and a copy of the top element fills the
room made below it (41_dup_dig.md R161). -/
def dup (ww : BitVec 2) (k len : Nat) (s : State) : Except Fault State := do
  let w := s.width ww
  checkWindow w k s
  let window ← readRange s.sp (w.bytes + k) s
  let sp := s.sp - BitVec.ofNat 16 w.bytes
  let t ← writeRange sp (window ++ window.take w.bytes) (s.withSp sp)
  .ok (t.continueAt (s.nip len))

/-- DIG with depth `k` and length `len`: a copy of the `w` bytes at depth `k` is pushed (41_dup_dig.md R162). -/
def dig (ww : BitVec 2) (k len : Nat) (s : State) : Except Fault State := do
  let w := s.width ww
  checkWindow w k s
  let window ← readRange s.sp (w.bytes + k) s
  let sp := s.sp - BitVec.ofNat 16 w.bytes
  let t ← writeRange sp (window.drop k) (s.withSp sp)
  .ok (t.continueAt (s.nip len))

/-- DUP, inline depth 0 (R161). -/
def execDup0 (ww : BitVec 2) (s : State) : Result := endStep (dup ww 0 1 s)

/-- DUP, inline depth 1 (R161). -/
def execDup1 (ww : BitVec 2) (s : State) : Result := endStep (dup ww 1 1 s)

/-- DUP, inline depth 2 (R161). -/
def execDup2 (ww : BitVec 2) (s : State) : Result := endStep (dup ww 2 1 s)

/-- DUP, depth in the extension byte (R161, 30_encoding.md R97). -/
def execDupX (ww : BitVec 2) (k8 : Byte) (s : State) : Result := endStep (dup ww k8.toNat 2 s)

/-- DIG, inline depth 0 (R162). -/
def execDig0 (ww : BitVec 2) (s : State) : Result := endStep (dig ww 0 1 s)

/-- DIG, inline depth 1 (R162). -/
def execDig1 (ww : BitVec 2) (s : State) : Result := endStep (dig ww 1 1 s)

/-- DIG, inline depth 2 (R162). -/
def execDig2 (ww : BitVec 2) (s : State) : Result := endStep (dig ww 2 1 s)

/-- DIG, depth in the extension byte (R162, 30_encoding.md R97). -/
def execDigX (ww : BitVec 2) (k8 : Byte) (s : State) : Result := endStep (dig ww k8.toNat 2 s)

end Sys2Proof.Machine
end

