-- ==== Sys2Proof/Machine/Fpu.lean ====
section
/-!
DEFINITION. The floating-point unit and the conversions (43_fpu.md).
-/

namespace Sys2Proof.Machine

/-- The common form of FADD, FSUB, FMUL and FDIV: `b` is the top element, `a` the one below (43_fpu.md R200, R203). -/
def fpuBinary (f : Acc → Acc → Acc) (s : State) : Except Fault State := do
  let (b, t) ← popAcc s
  let (a, t) ← popAcc t
  let t ← pushAcc (f a b) t
  .ok ((t.setFloatFlags (f a b)).continueAt (s.nip 1))

/-- The result of FDIV: +0.0 for a zero divisor of either sign, whatever the dividend (43_fpu.md R206). -/
def fdivResult (a b : Acc) : Acc := if f32IsZero b then 0 else f32Result .fdiv a b (f32Div a b)

/-- The result of CONVI: rounded toward zero; for a NaN, an infinity and a value out of range `CONVI_OOR`
(43_fpu.md R209). -/
def conviResult (v : Acc) : Acc :=
  if f32IsFinite v && decide (-(2 ^ 31) ≤ f32Trunc v) && decide (f32Trunc v ≤ 2 ^ 31 - 1) then BitVec.ofInt 32 (f32Trunc v)
  else Config.conviOor v

/-- FADD (43_fpu.md R203). -/
def execFadd (s : State) : Result := endStep (fpuBinary (fun a b => f32Result .fadd a b (f32Add a b)) s)

/-- FSUB (R204). -/
def execFsub (s : State) : Result := endStep (fpuBinary (fun a b => f32Result .fsub a b (f32Sub a b)) s)

/-- FMUL (R205). -/
def execFmul (s : State) : Result := endStep (fpuBinary (fun a b => f32Result .fmul a b (f32Mul a b)) s)

/-- FDIV (R206). -/
def execFdiv (s : State) : Result := endStep (fpuBinary fdivResult s)

/-- CONVF (R207, R208). -/
def execConvf (s : State) : Result :=
  endStep do
    let (v, t) ← popAcc s
    let t ← pushAcc (f32FromInt v.toInt) t
    .ok ((t.whenConvSetsFlags (t.setFloatFlags (f32FromInt v.toInt))).continueAt (s.nip 1))

/-- CONVI (R207, R209). -/
def execConvi (s : State) : Result :=
  endStep do
    let (v, t) ← popAcc s
    let t ← pushAcc (conviResult v) t
    .ok ((t.whenConvSetsFlags (t.setIntFlags .w4 ((conviResult v).setWidth 64))).continueAt (s.nip 1))

end Sys2Proof.Machine
end

