-- ==== Sys2Proof/Machine/LoadStore.lean ====
section
/-!
DEFINITION. LOAD, STORE and POP (40_load_store.md).
-/

namespace Sys2Proof.Machine

/-- The end of a LOAD from memory: read `w` bytes at the effective address, push them, go on. -/
def loadFrom (ea : Addr) (w : Width) (nip : Addr) (s : State) : Except Fault State := do
  let v ← memRead ea w s
  let s ← push w v s
  .ok (s.continueAt nip)

/-- The end of a STORE: write `w` bytes at the effective address, go on. -/
def storeTo (ea : Addr) (w : Width) (v : Value) (nip : Addr) (s : State) : Except Fault State := do
  let s ← memWrite ea w v s
  .ok (s.continueAt nip)

/-- LOAD.DIR (40_load_store.md R134). -/
def execLoadDir (ww : BitVec 2) (a16 : Addr) (s : State) : Result :=
  endStep (loadFrom a16 (s.width ww) (s.nip 3) s)

/-- LOAD.XB (R135). -/
def execLoadXb (ww : BitVec 2) (off8 : Byte) (s : State) : Result :=
  endStep do
    let (base, t) ← popAddr s
    loadFrom (eaIndexedByte base off8) (s.width ww) (s.nip 2) t

/-- LOAD.XW (R136): the offset is popped first. -/
def execLoadXw (ww : BitVec 2) (s : State) : Result :=
  endStep do
    let (off, t) ← popAddr s
    let (base, t) ← popAddr t
    loadFrom (eaIndexedWord base off) (s.width ww) (s.nip 1) t

/-- LOAD.IMM (R137). -/
def execLoadImm (ww : BitVec 2) (imm : Value) (s : State) : Result :=
  endStep do
    let t ← push (s.width ww) imm s
    .ok (t.continueAt (s.nip (1 + (s.width ww).bytes)))

/-- STORE.DIR (R138). -/
def execStoreDir (ww : BitVec 2) (a16 : Addr) (s : State) : Result :=
  endStep do
    let (v, t) ← pop (s.width ww) s
    storeTo a16 (s.width ww) v (s.nip 3) t

/-- STORE.XB (R139): the value is popped before the base. -/
def execStoreXb (ww : BitVec 2) (off8 : Byte) (s : State) : Result :=
  endStep do
    let (v, t) ← pop (s.width ww) s
    let (base, t) ← popAddr t
    storeTo (eaIndexedByte base off8) (s.width ww) v (s.nip 2) t

/-- STORE.XW (R140): the value is popped before the offset, the offset before the base. -/
def execStoreXw (ww : BitVec 2) (s : State) : Result :=
  endStep do
    let (v, t) ← pop (s.width ww) s
    let (off, t) ← popAddr t
    let (base, t) ← popAddr t
    storeTo (eaIndexedWord base off) (s.width ww) v (s.nip 1) t

/-- POP (R141). -/
def execPop (ww : BitVec 2) (s : State) : Result :=
  endStep do
    let (_, t) ← pop (s.width ww) s
    .ok (t.continueAt (s.nip 1))

end Sys2Proof.Machine
end

