-- ==== Sys2Proof/Machine/Dispatch.lean ====
section
/-!
DEFINITION. One arm per instruction: the meaning that 60_exceptions.md R251 names for it.
-/

namespace Sys2Proof.Machine

def exec (i : Instr) (s : State) : Host.Outcome State Fault Refusal :=
  match i with
  | .loadDir ww a16 => Sys2Proof.Machine.execLoadDir ww a16 s
  | .loadXb ww off8 => Sys2Proof.Machine.execLoadXb ww off8 s
  | .loadXw ww => Sys2Proof.Machine.execLoadXw ww s
  | .loadImm ww imm => Sys2Proof.Machine.execLoadImm ww imm s
  | .storeDir ww a16 => Sys2Proof.Machine.execStoreDir ww a16 s
  | .storeXb ww off8 => Sys2Proof.Machine.execStoreXb ww off8 s
  | .storeXw ww => Sys2Proof.Machine.execStoreXw ww s
  | .pop ww => Sys2Proof.Machine.execPop ww s
  | .dup0 ww => Sys2Proof.Machine.execDup0 ww s
  | .dup1 ww => Sys2Proof.Machine.execDup1 ww s
  | .dup2 ww => Sys2Proof.Machine.execDup2 ww s
  | .dupX ww k8 => Sys2Proof.Machine.execDupX ww k8 s
  | .dig0 ww => Sys2Proof.Machine.execDig0 ww s
  | .dig1 ww => Sys2Proof.Machine.execDig1 ww s
  | .dig2 ww => Sys2Proof.Machine.execDig2 ww s
  | .digX ww k8 => Sys2Proof.Machine.execDigX ww k8 s
  | .call a16 => Sys2Proof.Machine.execCall a16 s
  | .calli => Sys2Proof.Machine.execCalli s
  | .ret => Sys2Proof.Machine.execRet s
  | .add ww => Sys2Proof.Machine.execAdd ww s
  | .sub ww => Sys2Proof.Machine.execSub ww s
  | .mul ww => Sys2Proof.Machine.execMul ww s
  | .div ww => Sys2Proof.Machine.execDiv ww s
  | .mod ww => Sys2Proof.Machine.execMod ww s
  | .and ww => Sys2Proof.Machine.execAnd ww s
  | .or ww => Sys2Proof.Machine.execOr ww s
  | .xor ww => Sys2Proof.Machine.execXor ww s
  | .not ww => Sys2Proof.Machine.execNot ww s
  | .fadd => Sys2Proof.Machine.execFadd s
  | .fsub => Sys2Proof.Machine.execFsub s
  | .fmul => Sys2Proof.Machine.execFmul s
  | .fdiv => Sys2Proof.Machine.execFdiv s
  | .convf => Sys2Proof.Machine.execConvf s
  | .convi => Sys2Proof.Machine.execConvi s
  | .bra d => Sys2Proof.Machine.execBra d s
  | .beq d => Sys2Proof.Machine.execBeq d s
  | .bne d => Sys2Proof.Machine.execBne d s
  | .blt d => Sys2Proof.Machine.execBlt d s
  | .bgt d => Sys2Proof.Machine.execBgt d s
  | .ble d => Sys2Proof.Machine.execBle d s
  | .bge d => Sys2Proof.Machine.execBge d s
  | .braAlt d => Sys2Proof.Machine.execBraAlt d s
  | .yield => Sys2Proof.Machine.execYield s
  | .halt => Sys2Proof.Machine.execHalt s

end Sys2Proof.Machine
end

