-- ==== Sys2Proof/Machine/Fetch.lean ====
section
/-!
DEFINITION. The fetch and decode that begin every step (30_encoding.md R115), and the placing of an instruction where
the step fetches.
-/

namespace Sys2Proof.Machine

/-- The bytes an instruction at `ip` can take: at most nine, and none past the end of the buffer (30_encoding.md R108,
20_memory.md R66). -/
def fetchWindow (s : State) : List Byte := s.mem.readBytes s.ip.toNat (min maxLength (s.memSize - s.ip.toNat))

/-- The fault that a decoding error raises (30_encoding.md R115). -/
def decodeFault : DecodeError → Fault
  | .unknownOpcode => .unknownInstruction
  | .truncated => .truncatedInstruction

/-- `Decode()` (30_encoding.md R115): all bytes of the instruction are read here, before any write of the step
(20_memory.md R78). -/
def fetchInstr (s : State) : Except Fault Instr :=
  if s.memSize ≤ s.ip.toNat then .error .boundsViolation
  else
    match decode s.cfg (fetchWindow s) with
    | .ok i => .ok i
    | .error e => .error (decodeFault e)

/-- An instruction word placed at `ip`, zero bytes up to the longest instruction, as far as the buffer goes; and the
option on that the opcode byte's row needs (log entry 14). -/
def placeWord (s : State) (nbits w : Nat) : State :=
  let bs := (wordBytes nbits w).take (s.memSize - s.ip.toNat)
  (s.withMem (s.mem.writeBytes s.ip.toNat bs)).withCfg (s.cfg.enabling (firstByte bs))

end Sys2Proof.Machine
end

