-- ==== Sys2Proof/Machine/Step.lean ====
section
/-!
DEFINITION. The step of the CORE (60_exceptions.md R251), and the placing of an instruction where it fetches.
-/

namespace Sys2Proof.Machine

/-- One step (60_exceptions.md R251): fetch and decode, then the instruction's meaning. -/
def step (s : State) : Host.Outcome State Fault Refusal :=
  match fetchInstr s with
  | .error f => .fault f
  | .ok i => exec i s

/-- The state with an instruction word placed where the step fetches its next instruction (log entry 14). -/
def State.withFetchWord (s : State) (nbits w : Nat) : State := placeWord s nbits w

end Sys2Proof.Machine
end

