-- ==== Sys2Proof/Safety.lean ====
section
/-!
DEFINITION. What counts as a legal state and a safe run, and the terms in which claims say what an instruction reads,
writes and leaves alone.
-/

namespace Sys2Proof.Machine

/-- The stack lies in the buffer: `sp <= SP0 <= MEMSIZE` (10_state.md R37, 00_scope.md R9). -/
abbrev State.stackOk (s : State) : Prop := s.sp.toNat ≤ s.sp0.toNat ∧ s.sp0.toNat ≤ s.memSize

/-- A legal state: what a well-formed launch gives and every step keeps. The memory is in its canonical form and lists
no address outside the buffer (10_state.md R32), the buffer has 1 to 65536 bytes (70_reset_and_hazards.md R282), the
stack lies in it (10_state.md R37), and the reserved flag bits 7:2 are 0 (R38). -/
abbrev State.inv (s : State) : Prop :=
  s.mem.wf ∧ (∀ p ∈ s.mem, p.1 < s.memSize) ∧ (1 ≤ s.memSize ∧ s.memSize ≤ 65536) ∧ s.stackOk ∧
    s.flags.extractLsb' 2 6 = 0#6

/-- A run from the state never faults: every number of steps ends in a next state. -/
def State.safe (s : State) : Prop := ∀ k, ∃ t, Host.Core.run Sys2Proof.core k s = .next t

/-- The launch constants and the configuration record are the same (10_state.md R30, R31). -/
abbrev SameLaunch (s t : State) : Prop := t.memSize = s.memSize ∧ t.sp0 = s.sp0 ∧ t.cfg = s.cfg

/-- Every byte of memory is the same. -/
def SameMemory (s t : State) : Prop := ∀ a, t.readByte a = s.readByte a

/-- Every byte of memory outside the `n` bytes from `a` upwards is the same. -/
def SameMemoryOutside (a n : Nat) (s t : State) : Prop := ∀ x, (x < a ∨ a + n ≤ x) → t.readByte x = s.readByte x

/-- Two outcomes are of one kind: next states that are related, or the same fault, or the same refusal. -/
def SameOutcome (R : State → State → Prop) : Result → Result → Prop
  | .next s, .next t => R s t
  | .fault f, .fault g => f = g
  | .refused r, .refused q => r = q
  | _, _ => False

/-- Bytes decode to an instruction under a configuration: whatever bytes follow, the decoder reads the instruction if
its group is present and an unknown opcode if not; and with fewer bytes than these, but the opcode byte, it is truncated
(30_encoding.md R106, R115). -/
def DecodesTo (c : Config) (bytes : List Byte) (i : Instr) (present : Bool) : Prop :=
  (∀ rest, decode c (bytes ++ rest) = if present then .ok i else .error .unknownOpcode) ∧
    ∀ k, 0 < k → k < bytes.length → decode c (bytes.take k) = .error (if present then .truncated else .unknownOpcode)

/-- The least magnitude that rounds past the largest binary32 number, 2^128 - 2^103, in units of 2^-149: the largest
number and half a unit in its last place. -/
def f32Overflow : Int := (2 ^ 25 - 1) * 2 ^ 252

/-- `r` is the binary32 number nearest to `num / den` units of 2^-149, and of two nearest ones the one with an even
significand: rounded to nearest, ties to even (43_fpu.md R202). -/
def IsNearestEven (r : Acc) (num : Int) (den : Nat) : Prop :=
  f32IsFinite r = true ∧
    ∀ x : Acc, f32IsFinite x = true →
      |f32Int r * den - num| ≤ |f32Int x * den - num| ∧
        (|f32Int r * den - num| = |f32Int x * den - num| → f32Int x = f32Int r ∨ r.getLsbD 0 = false)

/-- `r` is `num / den` units of 2^-149 rounded as IEEE 754 rounds to nearest: an infinity from the overflow threshold
on, else the nearest number (43_fpu.md R202). -/
def IsRounded (r : Acc) (num : Int) (den : Nat) : Prop :=
  if f32Overflow * den ≤ |num| then r = (if num < 0 then 0xFF800000#32 else 0x7F800000#32) else IsNearestEven r num den

end Sys2Proof.Machine
end

