-- ==== Sys2Proof/Certificates/Slice0/Obligations.lean ====
section
/-!
DEFINITION. The statements for the provers. Each says which rule of spec/ it formalises. `w` is a width in bytes.
-/

open Sys2Proof Sys2Proof.Machine

/-! ## Launch and reset -/

/-- 70_reset_and_hazards.md R280: the launch state has the host's image, entry point, flags, constants and
configuration, an empty stack and zero reserved flag bits. -/
def Obligations.LaunchStateHoldsTheParameters : Prop :=
  ∀ l : Launch,
    (∀ a, (State.launch l).readByte a = l.mem0.read a) ∧ (State.launch l).ip = l.ip0 ∧ (State.launch l).sp = l.sp0 ∧
      (State.launch l).z = l.z0 ∧ (State.launch l).n = l.n0 ∧ (State.launch l).flags.extractLsb' 2 6 = 0#6 ∧
      (State.launch l).memSize = l.memSize ∧ (State.launch l).sp0 = l.sp0 ∧ (State.launch l).cfg = l.cfg

/-- 70_reset_and_hazards.md R282, 10_state.md R37: a well-formed launch gives a legal state. -/
def Obligations.WellFormedLaunchIsLegal : Prop := ∀ l : Launch, l.wf → (State.launch l).inv

/-- The reset state is legal. The values it takes for the open parameters are the model's choice (log entries 3 to 5). -/
def Obligations.ResetIsLegal : Prop := State.reset.inv

/-! ## The operand width -/

/-- The bytes of an operand, as 30_encoding.md R100 tabulates them: `1 << op[1:0]` per opcode, or 1, 2 or 4 under a FIXED
mode, whatever the width code. -/
def operandBytes (m : WidthMode) (ww : BitVec 2) : Nat :=
  match m with
  | .perOpcode => 2 ^ ww.toNat
  | .fixed8 => 1
  | .fixed16 => 2
  | .fixed32 => 4

/-- 30_encoding.md R100, of LOAD, STORE, POP, DUP, DIG and the integer commands: the width by which the decoder assembles
operands, and the width by which an instruction moves them, are the tabulated one. -/
def Obligations.WidthIsTheCodesOrTheFixedOne : Prop :=
  (∀ (c : Config) (ww : BitVec 2), (resolveWidth c ww).bytes = operandBytes c.widthMode ww) ∧
    ∀ (s : State) (ww : BitVec 2), (s.width ww).bytes = operandBytes s.cfg.widthMode ww

/-! ## Memory and the stack engine -/

/-- 20_memory.md R63: an access in bounds gives the bytes, the byte at the lowest address least significant; any other
raises BOUNDS_VIOLATION. -/
def Obligations.MemReadIsLittleEndian : Prop :=
  ∀ (a : Addr) (w : Width) (s : State),
    (a.toNat + w.bytes ≤ s.memSize →
      ∃ v, memRead a w s = .ok v ∧ v.toNat < 2 ^ (8 * w.bytes) ∧
        ∀ i j, i < w.bytes → j < 8 → v.getLsbD (8 * i + j) = (s.readByte (a.toNat + i)).getLsbD j) ∧
      (s.memSize < a.toNat + w.bytes → memRead a w s = .error .boundsViolation)

/-- 20_memory.md R64: an access in bounds writes the bytes of the value, the least significant at the lowest address,
and nothing else; any other raises BOUNDS_VIOLATION. -/
def Obligations.MemWriteIsLittleEndian : Prop :=
  ∀ (a : Addr) (w : Width) (v : Value) (s : State),
    (a.toNat + w.bytes ≤ s.memSize →
      ∃ t, memWrite a w v s = .ok t ∧ (∀ i < w.bytes, t.readByte (a.toNat + i) = v.extractLsb' (8 * i) 8) ∧
        SameMemoryOutside a.toNat w.bytes s t ∧ t.ip = s.ip ∧ t.sp = s.sp ∧ t.flags = s.flags ∧ SameLaunch s t) ∧
      (s.memSize < a.toNat + w.bytes → memWrite a w v s = .error .boundsViolation)

/-- 20_memory.md R68: a push with room decrements `sp` and writes the value there; without room it raises
BOUNDS_VIOLATION. -/
def Obligations.PushDecrementsThenWrites : Prop :=
  ∀ (w : Width) (v : Value) (s : State), s.stackOk →
    (w.bytes ≤ s.sp.toNat →
      ∃ t, push w v s = .ok t ∧ t.sp.toNat = s.sp.toNat - w.bytes ∧
        (∀ i < w.bytes, t.readByte (s.sp.toNat - w.bytes + i) = v.extractLsb' (8 * i) 8) ∧
        SameMemoryOutside (s.sp.toNat - w.bytes) w.bytes s t ∧ t.ip = s.ip ∧ t.flags = s.flags ∧ SameLaunch s t) ∧
      (s.sp.toNat < w.bytes → push w v s = .error .boundsViolation)

/-- 20_memory.md R69: a pop of bytes that the stack holds reads them and increments `sp`; they stay in memory. A pop
past `SP0` raises BOUNDS_VIOLATION. -/
def Obligations.PopReadsThenIncrements : Prop :=
  ∀ (w : Width) (s : State), s.stackOk →
    (s.sp.toNat + w.bytes ≤ s.sp0.toNat →
      ∃ v t, pop w s = .ok (v, t) ∧ memRead s.sp w s = .ok v ∧ t.sp.toNat = s.sp.toNat + w.bytes ∧
        SameMemory s t ∧ t.ip = s.ip ∧ t.flags = s.flags ∧ SameLaunch s t) ∧
      (s.sp0.toNat < s.sp.toNat + w.bytes → pop w s = .error .boundsViolation)

/-! ## Decoding and the step -/

/-- Decode and encode agree (30_encoding.md R92 to R109): every well-formed instruction, with every operand at every value,
is decoded from its own encoding, whatever bytes follow. -/
def Obligations.DecodeOfEncode : Prop :=
  ∀ (c : Config) (i : Instr) (rest : List Byte), i.wellFormed c = true → decode c (encode c i ++ rest) = .ok i

/-- What decodes is a well-formed instruction, and its encoding is the bytes it was decoded from, as many as
30_encoding.md R108 says. -/
def Obligations.EncodeOfDecode : Prop :=
  ∀ (c : Config) (bytes : List Byte) (i : Instr), decode c bytes = .ok i →
    i.wellFormed c = true ∧ i.length c ≤ bytes.length ∧ encode c i = bytes.take (i.length c)

/-- Words of several families, written from their layouts in 30_encoding.md R93 to R105, decode to their instructions. -/
def Obligations.SampleWordsDecode : Prop :=
  decode Config.cfg0 [0x02#8, 0x34#8, 0x12#8] = .ok (.loadDir 2 0x1234) ∧
    decode Config.cfg0 [0x19#8] = .ok (.storeXw 1) ∧
    decode Config.cfg0 [0x2D#8, 0x07#8] = .ok (.dupX 1 7) ∧
    decode Config.cfg0 [0x85#8] = .ok (.sub 1) ∧
    decode Config.cfg0 [0xAF#8] = .ok .fdiv ∧
    decode Config.cfg0 [0xC7#8, 0xFD#8, 0xFF#8] = .ok (.blt (.d16 0xFFFD)) ∧
    decode Config.cfg0 [0x40#8, 0x00#8, 0x02#8] = .ok (.call 0x0200)

/-- 30_encoding.md R106: which opcode bytes are unknown under a configuration. -/
def Obligations.UnknownOpcodesAreTheListedOnes : Prop :=
  ∀ (c : Config) (op : Byte), decodeByte c op = none ↔
    (op = 0x1A ∨ op = 0x1B ∨ (0x43 ≤ op ∧ op ≤ 0x7F) ∨ (0xA4 ≤ op ∧ op ≤ 0xAB) ∨ (0xB0 ≤ op ∧ op ≤ 0xBB) ∨
      op = 0xBE ∨ op = 0xBF ∨ op = 0xCE ∨ op = 0xCF ∨ (0xD1 ≤ op ∧ op ≤ 0xFD) ∨
      (c.indexedByte = true ∧ 0x0C ≤ op ∧ op ≤ 0x0F) ∨
      (c.indexedByte = false ∧ ((0x04 ≤ op ∧ op ≤ 0x07) ∨ (0x14 ≤ op ∧ op ≤ 0x17))) ∨
      (c.bitwise = false ∧ 0x94 ≤ op ∧ op ≤ 0xA3) ∨
      (c.fpu = false ∧ ((0xAC ≤ op ∧ op ≤ 0xAF) ∨ op = 0xBC ∨ op = 0xBD)))

/-- When the bytes at `ip`, as far as an instruction can reach in the buffer, decode to an instruction, the step is that
instruction's execution and nothing else (60_exceptions.md R251). -/
def Obligations.StepRunsTheDecodedInstruction : Prop :=
  ∀ (s : State) (i : Instr), s.ip.toNat < s.memSize →
    decode s.cfg (s.mem.readBytes s.ip.toNat (min 9 (s.memSize - s.ip.toNat))) = .ok i → step s = exec i s

/-- When a well-formed instruction's encoding lies at `ip` inside the buffer, the step is that instruction's execution
(60_exceptions.md R251, 30_encoding.md R115). -/
def Obligations.StepRunsTheEncodedInstruction : Prop :=
  ∀ (s : State) (i : Instr), i.wellFormed s.cfg = true → s.ip.toNat + i.length s.cfg ≤ s.memSize →
    s.mem.readBytes s.ip.toNat (i.length s.cfg) = encode s.cfg i → step s = exec i s

/-- 30_encoding.md R115, 60_exceptions.md R254, R257, R259: the faults of the fetch. With `ip` outside the buffer the step
raises BOUNDS_VIOLATION. UNKNOWN_INSTRUCTION is raised for an opcode byte in the buffer that is unknown under the
configuration, and TRUNCATED_INSTRUCTION for a known one whose operand bytes pass the end of the buffer; neither is raised
for anything else. -/
def Obligations.FetchFaultsInOrder : Prop :=
  ∀ s : State,
    (s.memSize ≤ s.ip.toNat → step s = .fault .boundsViolation) ∧
      (step s = .fault .unknownInstruction ↔
        s.ip.toNat < s.memSize ∧ decodeByte s.cfg (s.readByte s.ip.toNat) = none) ∧
      (step s = .fault .truncatedInstruction ↔
        s.ip.toNat < s.memSize ∧ ∃ f, decodeByte s.cfg (s.readByte s.ip.toNat) = some f ∧
          s.memSize < s.ip.toNat + 1 + f.operandBytes)

/-! ## LOAD, STORE and POP -/

/-- 40_load_store.md R134: the bytes at the inline address, as they were before the push, are pushed. -/
def Obligations.LoadDirectPushesTheBytesAtTheAddress : Prop :=
  ∀ (ww : BitVec 2) (lo hi : Byte) (s : State), s.stackOk →
    (∀ c, DecodesTo c [0b0000_00#6 ++ ww, lo, hi] (.loadDir ww (hi ++ lo)) true) ∧
      ((hi ++ lo).toNat + (s.width ww).bytes ≤ s.memSize → (s.width ww).bytes ≤ s.sp.toNat →
        ∃ t, exec (.loadDir ww (hi ++ lo)) s = .next t ∧ t.ip = s.ip + 3#16 ∧
          t.sp.toNat = s.sp.toNat - (s.width ww).bytes ∧ t.flags = s.flags ∧ t.status = .continuing ∧ SameLaunch s t ∧
          (∀ i < (s.width ww).bytes,
            t.readByte (s.sp.toNat - (s.width ww).bytes + i) = s.readByte ((hi ++ lo).toNat + i)) ∧
          SameMemoryOutside (s.sp.toNat - (s.width ww).bytes) (s.width ww).bytes s t) ∧
      (s.memSize < (hi ++ lo).toNat + (s.width ww).bytes ∨ s.sp.toNat < (s.width ww).bytes →
        exec (.loadDir ww (hi ++ lo)) s = .fault .boundsViolation)

/-- 40_load_store.md R135: the effective address is the popped base plus the unsigned offset, modulo 2^16. -/
def Obligations.LoadIndexedBytePushesTheBytesAtBasePlusOffset : Prop :=
  ∀ (ww : BitVec 2) (off8 : Byte) (s : State), s.stackOk →
    (∀ c : Config, DecodesTo c [0b0000_01#6 ++ ww, off8] (.loadXb ww off8) c.indexedByte) ∧
      ∀ ea, ea = ((s.addrAt s.sp.toNat).toNat + off8.toNat) % 65536 →
        (s.sp.toNat + 2 ≤ s.sp0.toNat → ea + (s.width ww).bytes ≤ s.memSize → (s.width ww).bytes ≤ s.sp.toNat + 2 →
          ∃ t, exec (.loadXb ww off8) s = .next t ∧ t.ip = s.ip + 2#16 ∧
            t.sp.toNat = s.sp.toNat + 2 - (s.width ww).bytes ∧ t.flags = s.flags ∧ t.status = .continuing ∧
            SameLaunch s t ∧
            (∀ i < (s.width ww).bytes,
              t.readByte (s.sp.toNat + 2 - (s.width ww).bytes + i) = s.readByte (ea + i)) ∧
            SameMemoryOutside (s.sp.toNat + 2 - (s.width ww).bytes) (s.width ww).bytes s t) ∧
        (s.sp0.toNat < s.sp.toNat + 2 ∨ s.memSize < ea + (s.width ww).bytes ∨ s.sp.toNat + 2 < (s.width ww).bytes →
          exec (.loadXb ww off8) s = .fault .boundsViolation)

/-- 40_load_store.md R136: the offset is the top element, the base the one below; the effective address is their sum
modulo 2^16, the offset read as signed (R130, R131). -/
def Obligations.LoadIndexedWordPushesTheBytesAtBasePlusOffset : Prop :=
  ∀ (ww : BitVec 2) (s : State), s.stackOk →
    (∀ c, DecodesTo c [0b0000_10#6 ++ ww] (.loadXw ww) true) ∧
      ∀ ea : Nat, (ea : Int) = (((s.addrAt (s.sp.toNat + 2)).toNat : Int) + (s.addrAt s.sp.toNat).toInt) % 65536 →
        (s.sp.toNat + 4 ≤ s.sp0.toNat → ea + (s.width ww).bytes ≤ s.memSize → (s.width ww).bytes ≤ s.sp.toNat + 4 →
          ∃ t, exec (.loadXw ww) s = .next t ∧ t.ip = s.ip + 1#16 ∧
            t.sp.toNat = s.sp.toNat + 4 - (s.width ww).bytes ∧ t.flags = s.flags ∧ t.status = .continuing ∧
            SameLaunch s t ∧
            (∀ i < (s.width ww).bytes,
              t.readByte (s.sp.toNat + 4 - (s.width ww).bytes + i) = s.readByte (ea + i)) ∧
            SameMemoryOutside (s.sp.toNat + 4 - (s.width ww).bytes) (s.width ww).bytes s t) ∧
        (s.sp0.toNat < s.sp.toNat + 4 ∨ s.memSize < ea + (s.width ww).bytes ∨ s.sp.toNat + 4 < (s.width ww).bytes →
          exec (.loadXw ww) s = .fault .boundsViolation)

/-- 40_load_store.md R137: the inline bytes are pushed unchanged. Their number is the width that 30_encoding.md R100
tabulates: under a FIXED mode the instruction has `1 + W` bytes, whatever its width code. -/
def Obligations.LoadImmediatePushesTheInlineBytes : Prop :=
  ∀ (ww : BitVec 2) (bs : List Byte) (s : State), s.stackOk → bs.length = operandBytes s.cfg.widthMode ww →
    DecodesTo s.cfg ((0b0000_11#6 ++ ww) :: bs) (.loadImm ww (ofLE bs)) (!s.cfg.indexedByte) ∧
      (bs.length ≤ s.sp.toNat →
        ∃ t, exec (.loadImm ww (ofLE bs)) s = .next t ∧ t.ip = s.ip + 1#16 + BitVec.ofNat 16 bs.length ∧
          t.sp.toNat = s.sp.toNat - bs.length ∧ t.flags = s.flags ∧ t.status = .continuing ∧ SameLaunch s t ∧
          (∀ i < bs.length, t.readByte (s.sp.toNat - bs.length + i) = bs.getD i 0) ∧
          SameMemoryOutside (s.sp.toNat - bs.length) bs.length s t) ∧
      (s.sp.toNat < bs.length → exec (.loadImm ww (ofLE bs)) s = .fault .boundsViolation)

/-- 40_load_store.md R138: the bytes of the top element are written at the inline address. -/
def Obligations.StoreDirectWritesThePoppedBytes : Prop :=
  ∀ (ww : BitVec 2) (lo hi : Byte) (s : State), s.stackOk →
    (∀ c, DecodesTo c [0b0001_00#6 ++ ww, lo, hi] (.storeDir ww (hi ++ lo)) true) ∧
      (s.sp.toNat + (s.width ww).bytes ≤ s.sp0.toNat → (hi ++ lo).toNat + (s.width ww).bytes ≤ s.memSize →
        ∃ t, exec (.storeDir ww (hi ++ lo)) s = .next t ∧ t.ip = s.ip + 3#16 ∧
          t.sp.toNat = s.sp.toNat + (s.width ww).bytes ∧ t.flags = s.flags ∧ t.status = .continuing ∧ SameLaunch s t ∧
          (∀ i < (s.width ww).bytes, t.readByte ((hi ++ lo).toNat + i) = s.readByte (s.sp.toNat + i)) ∧
          SameMemoryOutside (hi ++ lo).toNat (s.width ww).bytes s t) ∧
      (s.sp0.toNat < s.sp.toNat + (s.width ww).bytes ∨ s.memSize < (hi ++ lo).toNat + (s.width ww).bytes →
        exec (.storeDir ww (hi ++ lo)) s = .fault .boundsViolation)

/-- 40_load_store.md R139: the value is the top element, the base lies below it. -/
def Obligations.StoreIndexedByteWritesAtBasePlusOffset : Prop :=
  ∀ (ww : BitVec 2) (off8 : Byte) (s : State), s.stackOk →
    (∀ c : Config, DecodesTo c [0b0001_01#6 ++ ww, off8] (.storeXb ww off8) c.indexedByte) ∧
      ∀ ea, ea = ((s.addrAt (s.sp.toNat + (s.width ww).bytes)).toNat + off8.toNat) % 65536 →
        (s.sp.toNat + (s.width ww).bytes + 2 ≤ s.sp0.toNat → ea + (s.width ww).bytes ≤ s.memSize →
          ∃ t, exec (.storeXb ww off8) s = .next t ∧ t.ip = s.ip + 2#16 ∧
            t.sp.toNat = s.sp.toNat + (s.width ww).bytes + 2 ∧ t.flags = s.flags ∧ t.status = .continuing ∧
            SameLaunch s t ∧
            (∀ i < (s.width ww).bytes, t.readByte (ea + i) = s.readByte (s.sp.toNat + i)) ∧
            SameMemoryOutside ea (s.width ww).bytes s t) ∧
        (s.sp0.toNat < s.sp.toNat + (s.width ww).bytes + 2 ∨ s.memSize < ea + (s.width ww).bytes →
          exec (.storeXb ww off8) s = .fault .boundsViolation)

/-- 40_load_store.md R140, 30_encoding.md R95: the value is the top element, the offset lies below it and the base below
the offset; the width codes 2 and 3 have no encoding. -/
def Obligations.StoreIndexedWordWritesAtBasePlusOffset : Prop :=
  ∀ (ww : BitVec 2) (s : State), s.stackOk →
    (∀ c, if ww.toNat < 2 then DecodesTo c [0b0001_10#6 ++ ww] (.storeXw ww) true
      else decodeByte c (0b0001_10#6 ++ ww) = none) ∧
      ∀ ea : Nat, (ea : Int) = (((s.addrAt (s.sp.toNat + (s.width ww).bytes + 2)).toNat : Int) +
          (s.addrAt (s.sp.toNat + (s.width ww).bytes)).toInt) % 65536 →
        (s.sp.toNat + (s.width ww).bytes + 4 ≤ s.sp0.toNat → ea + (s.width ww).bytes ≤ s.memSize →
          ∃ t, exec (.storeXw ww) s = .next t ∧ t.ip = s.ip + 1#16 ∧
            t.sp.toNat = s.sp.toNat + (s.width ww).bytes + 4 ∧ t.flags = s.flags ∧ t.status = .continuing ∧
            SameLaunch s t ∧
            (∀ i < (s.width ww).bytes, t.readByte (ea + i) = s.readByte (s.sp.toNat + i)) ∧
            SameMemoryOutside ea (s.width ww).bytes s t) ∧
        (s.sp0.toNat < s.sp.toNat + (s.width ww).bytes + 4 ∨ s.memSize < ea + (s.width ww).bytes →
          exec (.storeXw ww) s = .fault .boundsViolation)

/-- 40_load_store.md R141: the popped bytes stay in memory. -/
def Obligations.PopDiscardsTheTopElement : Prop :=
  ∀ (ww : BitVec 2) (s : State), s.stackOk →
    (∀ c, DecodesTo c [0b0001_11#6 ++ ww] (.pop ww) true) ∧
      (s.sp.toNat + (s.width ww).bytes ≤ s.sp0.toNat →
        ∃ t, exec (.pop ww) s = .next t ∧ t.ip = s.ip + 1#16 ∧ t.sp.toNat = s.sp.toNat + (s.width ww).bytes ∧
          t.flags = s.flags ∧ t.status = .continuing ∧ SameLaunch s t ∧ SameMemory s t) ∧
      (s.sp0.toNat < s.sp.toNat + (s.width ww).bytes → exec (.pop ww) s = .fault .boundsViolation)

/-- 40_load_store.md R142: the round-trip law, wherever the address lies. -/
def Obligations.StoreThenLoadGivesTheValueBack : Prop :=
  ∀ (ww : BitVec 2) (a : Addr) (s : State), s.stackOk → a.toNat + (s.width ww).bytes ≤ s.memSize →
    s.sp.toNat + (s.width ww).bytes ≤ s.sp0.toNat →
    ∃ t u, exec (.storeDir ww a) s = .next t ∧ exec (.loadDir ww a) t = .next u ∧ u.sp = s.sp ∧
      ∀ i < (s.width ww).bytes, u.readByte (s.sp.toNat + i) = s.readByte (s.sp.toNat + i)

/-! ## DUP and DIG -/

/-- 41_dup_dig.md R160, R161, 30_encoding.md R97: from the new top the stack reads `T, K, T`. -/
def Obligations.DupCopiesTheTopBelowTheGap : Prop :=
  ∀ (ww : BitVec 2) (k8 : Byte) (s : State), s.stackOk →
    ∀ (i : Instr) (k : Nat) (bytes : List Byte),
      (i, k, bytes) ∈ [(Instr.dup0 ww, 0, [0b0010_00#6 ++ ww]), (Instr.dup1 ww, 1, [0b0010_01#6 ++ ww]),
        (Instr.dup2 ww, 2, [0b0010_10#6 ++ ww]), (Instr.dupX ww k8, k8.toNat, [0b0010_11#6 ++ ww, k8])] →
      (∀ c, DecodesTo c bytes i true) ∧
        (s.sp.toNat + (s.width ww).bytes + k ≤ s.sp0.toNat → (s.width ww).bytes ≤ s.sp.toNat →
          ∃ t, exec i s = .next t ∧ t.ip = s.ip + BitVec.ofNat 16 bytes.length ∧
            t.sp.toNat = s.sp.toNat - (s.width ww).bytes ∧ t.flags = s.flags ∧ t.status = .continuing ∧
            SameLaunch s t ∧
            (∀ j < (s.width ww).bytes,
              t.readByte (s.sp.toNat - (s.width ww).bytes + j) = s.readByte (s.sp.toNat + j)) ∧
            (∀ j < k, t.readByte (s.sp.toNat + j) = s.readByte (s.sp.toNat + (s.width ww).bytes + j)) ∧
            (∀ j < (s.width ww).bytes, t.readByte (s.sp.toNat + k + j) = s.readByte (s.sp.toNat + j)) ∧
            SameMemoryOutside (s.sp.toNat - (s.width ww).bytes) (2 * (s.width ww).bytes + k) s t) ∧
        (s.sp0.toNat < s.sp.toNat + (s.width ww).bytes + k ∨ s.sp.toNat < (s.width ww).bytes →
          exec i s = .fault .boundsViolation)

/-- 41_dup_dig.md R160, R162, 30_encoding.md R97: a copy of the bytes at depth `k` is pushed, and nothing below the new
top changes. -/
def Obligations.DigPushesTheBytesAtTheDepth : Prop :=
  ∀ (ww : BitVec 2) (k8 : Byte) (s : State), s.stackOk →
    ∀ (i : Instr) (k : Nat) (bytes : List Byte),
      (i, k, bytes) ∈ [(Instr.dig0 ww, 0, [0b0011_00#6 ++ ww]), (Instr.dig1 ww, 1, [0b0011_01#6 ++ ww]),
        (Instr.dig2 ww, 2, [0b0011_10#6 ++ ww]), (Instr.digX ww k8, k8.toNat, [0b0011_11#6 ++ ww, k8])] →
      (∀ c, DecodesTo c bytes i true) ∧
        (s.sp.toNat + (s.width ww).bytes + k ≤ s.sp0.toNat → (s.width ww).bytes ≤ s.sp.toNat →
          ∃ t, exec i s = .next t ∧ t.ip = s.ip + BitVec.ofNat 16 bytes.length ∧
            t.sp.toNat = s.sp.toNat - (s.width ww).bytes ∧ t.flags = s.flags ∧ t.status = .continuing ∧
            SameLaunch s t ∧
            (∀ j < (s.width ww).bytes,
              t.readByte (s.sp.toNat - (s.width ww).bytes + j) = s.readByte (s.sp.toNat + k + j)) ∧
            SameMemoryOutside (s.sp.toNat - (s.width ww).bytes) (s.width ww).bytes s t) ∧
        (s.sp0.toNat < s.sp.toNat + (s.width ww).bytes + k ∨ s.sp.toNat < (s.width ww).bytes →
          exec i s = .fault .boundsViolation)

/-- 41_dup_dig.md R163: DUP with depth `k` followed by POP leaves `K, T` where `T, K` stood, which for depth 0 restores
the stack; DIG with any depth followed by POP restores the stack. -/
def Obligations.PopAfterDupAndDig : Prop :=
  ∀ (ww : BitVec 2) (k8 : Byte) (s : State), s.stackOk →
    ∀ (i j : Instr) (k : Nat),
      (i, j, k) ∈ [(Instr.dup0 ww, Instr.dig0 ww, 0), (Instr.dup1 ww, Instr.dig1 ww, 1),
        (Instr.dup2 ww, Instr.dig2 ww, 2), (Instr.dupX ww k8, Instr.digX ww k8, k8.toNat)] →
      s.sp.toNat + (s.width ww).bytes + k ≤ s.sp0.toNat → (s.width ww).bytes ≤ s.sp.toNat →
      (∃ t u, exec i s = .next t ∧ exec (.pop ww) t = .next u ∧ u.sp = s.sp ∧
        (∀ x < k, u.readByte (s.sp.toNat + x) = s.readByte (s.sp.toNat + (s.width ww).bytes + x)) ∧
        (∀ x < (s.width ww).bytes, u.readByte (s.sp.toNat + k + x) = s.readByte (s.sp.toNat + x)) ∧
        (∀ a, s.sp.toNat + (s.width ww).bytes + k ≤ a → u.readByte a = s.readByte a) ∧
        (k = 0 → ∀ a, s.sp.toNat ≤ a → u.readByte a = s.readByte a)) ∧
      ∃ t u, exec j s = .next t ∧ exec (.pop ww) t = .next u ∧ u.sp = s.sp ∧
        ∀ a, s.sp.toNat ≤ a → u.readByte a = s.readByte a

/-! ## Integer ALU -/

/-- What an integer command with the 32-bit result `r` does, the result taking the place of elements of `popped` bytes
(42_alu.md R170 to R172). -/
def AluEffect (ww : BitVec 2) (popped : Nat) (r : Acc) (s t : State) : Prop :=
  t.ip = s.ip + 1#16 ∧ t.sp.toNat = s.sp.toNat + popped - (s.width ww).bytes ∧
    (t.valueAt t.sp.toNat (s.width ww)).toNat = r.toNat % 2 ^ (8 * (s.width ww).bytes) ∧
    t.z = decide (r.toNat % 2 ^ (8 * (s.width ww).bytes) = 0) ∧
    t.n = (r.toNat % 2 ^ (8 * (s.width ww).bytes)).testBit (8 * (s.width ww).bytes - 1) ∧
    t.flags.extractLsb' 2 6 = s.flags.extractLsb' 2 6 ∧ t.status = .continuing ∧ SameLaunch s t ∧
    SameMemoryOutside (s.sp.toNat + popped - (s.width ww).bytes) (s.width ww).bytes s t

/-- 42_alu.md R170, R172, R175 to R177, R180 to R182: `b` is the top element, `a` the one below, and the result of
`a op b` on the 32-bit accumulator is masked, pushed and tested for the flags. -/
def Obligations.BinaryCommandsPushTheMaskedResult : Prop :=
  ∀ (ww : BitVec 2) (s : State), s.stackOk →
    ∀ (i : Instr) (f : Acc → Acc → Acc) (op : BitVec 6) (group : Config → Bool),
      (i, f, op, group) ∈ [(Instr.add ww, (· + ·), 0b10_0000#6, fun _ => true),
        (Instr.sub ww, (· - ·), 0b10_0001#6, fun _ => true), (Instr.mul ww, (· * ·), 0b10_0010#6, fun _ => true),
        (Instr.and ww, (· &&& ·), 0b10_0101#6, Config.bitwise), (Instr.or ww, (· ||| ·), 0b10_0110#6, Config.bitwise),
        (Instr.xor ww, (· ^^^ ·), 0b10_0111#6, Config.bitwise)] →
      (∀ c, DecodesTo c [op ++ ww] i (group c)) ∧
        (s.sp.toNat + 2 * (s.width ww).bytes ≤ s.sp0.toNat →
          ∃ t, exec i s = .next t ∧
            AluEffect ww (2 * (s.width ww).bytes)
              (f ((s.valueAt (s.sp.toNat + (s.width ww).bytes) (s.width ww)).setWidth 32)
                ((s.valueAt s.sp.toNat (s.width ww)).setWidth 32)) s t) ∧
        (s.sp0.toNat < s.sp.toNat + 2 * (s.width ww).bytes → exec i s = .fault .boundsViolation)

/-- 42_alu.md R178, R179: the unsigned quotient and remainder; a zero 32-bit divisor raises DIVIDE_BY_ZERO, after the
bounds of both pops (60_exceptions.md R259). -/
def Obligations.DivAndModAreUnsignedAndFaultOnZero : Prop :=
  ∀ (ww : BitVec 2) (s : State), s.stackOk →
    ∀ (i : Instr) (f : Nat → Nat → Nat) (op : BitVec 6),
      (i, f, op) ∈ [(Instr.div ww, (· / ·), 0b10_0011#6), (Instr.mod ww, (· % ·), 0b10_0100#6)] →
      ∀ a b : Acc, a = (s.valueAt (s.sp.toNat + (s.width ww).bytes) (s.width ww)).setWidth 32 →
        b = (s.valueAt s.sp.toNat (s.width ww)).setWidth 32 →
        (∀ c, DecodesTo c [op ++ ww] i true) ∧
          (s.sp.toNat + 2 * (s.width ww).bytes ≤ s.sp0.toNat → b.toNat ≠ 0 →
            ∃ t, exec i s = .next t ∧
              AluEffect ww (2 * (s.width ww).bytes) (BitVec.ofNat 32 (f a.toNat b.toNat)) s t) ∧
          (s.sp.toNat + 2 * (s.width ww).bytes ≤ s.sp0.toNat → b.toNat = 0 → exec i s = .fault .divideByZero) ∧
          (s.sp0.toNat < s.sp.toNat + 2 * (s.width ww).bytes → exec i s = .fault .boundsViolation)

/-- 42_alu.md R171, R183: NOT pops one element; LOGICAL gives 1 for 0 and 0 for every other value, BITWISE the 32-bit
complement. -/
def Obligations.NotIsLogicalOrBitwise : Prop :=
  ∀ (ww : BitVec 2) (s : State), s.stackOk →
    (∀ c : Config, DecodesTo c [0b10_1000#6 ++ ww] (.not ww) c.bitwise) ∧
      (s.sp.toNat + (s.width ww).bytes ≤ s.sp0.toNat →
        (s.cfg.notKind = .logical →
          ∃ t, exec (.not ww) s = .next t ∧
            AluEffect ww (s.width ww).bytes
              (if (s.valueAt s.sp.toNat (s.width ww)).toNat % 2 ^ 32 = 0 then 1#32 else 0#32) s t) ∧
        (s.cfg.notKind = .bitwise →
          ∃ t, exec (.not ww) s = .next t ∧
            AluEffect ww (s.width ww).bytes
              (BitVec.ofNat 32 (2 ^ 32 - 1 - (s.valueAt s.sp.toNat (s.width ww)).toNat % 2 ^ 32)) s t)) ∧
      (s.sp0.toNat < s.sp.toNat + (s.width ww).bytes → exec (.not ww) s = .fault .boundsViolation)

/-- 42_alu.md R173: for `w <= 4` the arithmetic is unsigned and modulo `2^(8*w)` exactly. -/
def Obligations.ArithmeticIsModularAtItsWidth : Prop :=
  ∀ (ww : BitVec 2) (s t : State), (s.width ww).bytes ≤ 4 →
    ∀ m a b : Nat, m = 2 ^ (8 * (s.width ww).bytes) →
      a = (s.valueAt (s.sp.toNat + (s.width ww).bytes) (s.width ww)).toNat →
      b = (s.valueAt s.sp.toNat (s.width ww)).toNat →
      (exec (.add ww) s = .next t → (t.valueAt t.sp.toNat (s.width ww)).toNat = (a + b) % m) ∧
        (exec (.sub ww) s = .next t → ((t.valueAt t.sp.toNat (s.width ww)).toNat : Int) = ((a : Int) - b) % m) ∧
        (exec (.mul ww) s = .next t → (t.valueAt t.sp.toNat (s.width ww)).toNat = a * b % m) ∧
        (exec (.div ww) s = .next t → (t.valueAt t.sp.toNat (s.width ww)).toNat = a / b) ∧
        (exec (.mod ww) s = .next t → (t.valueAt t.sp.toNat (s.width ww)).toNat = a % b)

/-- The nine integer commands with a width code (42_alu.md R175 to R183). -/
def IsAluCommand (ww : BitVec 2) (i : Instr) : Prop :=
  i ∈ [Instr.add ww, Instr.sub ww, Instr.mul ww, Instr.div ww, Instr.mod ww, Instr.and ww, Instr.or ww, Instr.xor ww,
    Instr.not ww]

/-- 42_alu.md R172: the flags are those of the pushed value. At widths up to 4 this is the flag consistency law (R185); at
width 8 it rests on R174 (log entry 11). -/
def Obligations.IntegerFlagsDescribeThePushedValue : Prop :=
  ∀ (ww : BitVec 2) (i : Instr) (s t : State), IsAluCommand ww i → exec i s = .next t →
    (t.z = true ↔ t.valueAt t.sp.toNat (s.width ww) = 0) ∧
      (t.n = true ↔ (t.valueAt t.sp.toNat (s.width ww)).getLsbD (8 * (s.width ww).bytes - 1) = true)

/-! ## Floating point -/

/-- The float flags (43_fpu.md R201): Z for +0.0 and -0.0, N below zero, both clear for a NaN. -/
def FloatFlags (r : Acc) (t : State) : Prop :=
  t.z = decide (r = 0x00000000#32 ∨ r = 0x80000000#32) ∧
    t.n = decide (0x80000000#32 < r ∧ r ≤ 0xFF800000#32)

/-- What FADD, FSUB, FMUL and FDIV with the result `r` do (43_fpu.md R201, R203). -/
def FloatEffect (r : Acc) (s t : State) : Prop :=
  t.ip = s.ip + 1#16 ∧ t.sp.toNat = s.sp.toNat + 4 ∧ t.accAt (s.sp.toNat + 4) = r ∧ FloatFlags r t ∧
    t.flags.extractLsb' 2 6 = s.flags.extractLsb' 2 6 ∧ t.status = .continuing ∧ SameLaunch s t ∧
    SameMemoryOutside (s.sp.toNat + 4) 4 s t

/-- 43_fpu.md R203 to R206: `b` is the top element, `a` the one below; the float result of `a op b` takes their place.
A zero divisor of either sign gives +0.0. -/
def Obligations.FloatCommandsPushTheFloatResult : Prop :=
  ∀ (s : State), s.stackOk →
    ∀ (i : Instr) (f : Acc → Acc → Acc) (op : Byte),
      (i, f, op) ∈ [(Instr.fadd, (fun a b => f32Result .fadd a b (f32Add a b)), 0xAC#8),
        (Instr.fsub, (fun a b => f32Result .fsub a b (f32Sub a b)), 0xAD#8),
        (Instr.fmul, (fun a b => f32Result .fmul a b (f32Mul a b)), 0xAE#8),
        (Instr.fdiv, (fun a b => if b = 0x00000000#32 ∨ b = 0x80000000#32 then 0x00000000#32
          else f32Result .fdiv a b (f32Div a b)), 0xAF#8)] →
      (∀ c : Config, DecodesTo c [op] i c.fpu) ∧
        (s.sp.toNat + 8 ≤ s.sp0.toNat →
          ∃ t, exec i s = .next t ∧ FloatEffect (f (s.accAt (s.sp.toNat + 4)) (s.accAt s.sp.toNat)) s t) ∧
        (s.sp0.toNat < s.sp.toNat + 8 → exec i s = .fault .boundsViolation)

/-- 43_fpu.md R201, R202: where the IEEE result is a NaN, the bits pushed are some NaN, whatever `FNAN` is, and both flags
are clear. FDIV's guard for a zero divisor comes first (R206). -/
def Obligations.NaNResultsAreNaNsAndClearTheFlags : Prop :=
  ∀ (s : State), s.stackOk → s.sp.toNat + 8 ≤ s.sp0.toNat →
    ∀ (i : Instr) (f : Acc → Acc → Option Acc),
      (i, f) ∈ [(Instr.fadd, f32Add), (Instr.fsub, f32Sub), (Instr.fmul, f32Mul),
        (Instr.fdiv, fun a b => if f32IsZero b = true then some 0 else f32Div a b)] →
      f (s.accAt (s.sp.toNat + 4)) (s.accAt s.sp.toNat) = none →
      ∃ t, exec i s = .next t ∧ f32IsNaN (t.accAt t.sp.toNat) = true ∧ t.z = false ∧ t.n = false

/-- 43_fpu.md R202, R203, R205, R206: which results are NaNs (IEEE 754, which the spec names: log entry 10). -/
def Obligations.InvalidFloatOperationsAreTheIeeeOnes : Prop :=
  ∀ a b : Acc,
    (f32Add a b = none ↔ f32IsNaN a = true ∨ f32IsNaN b = true ∨
      (f32IsInf a = true ∧ f32IsInf b = true ∧ f32Sign a ≠ f32Sign b)) ∧
    (f32Sub a b = none ↔ f32IsNaN a = true ∨ f32IsNaN b = true ∨
      (f32IsInf a = true ∧ f32IsInf b = true ∧ f32Sign a = f32Sign b)) ∧
    (f32Mul a b = none ↔ f32IsNaN a = true ∨ f32IsNaN b = true ∨
      (f32IsInf a = true ∧ f32IsZero b = true) ∨ (f32IsZero a = true ∧ f32IsInf b = true)) ∧
    (f32Div a b = none ↔ f32IsNaN a = true ∨ f32IsNaN b = true ∨
      (f32IsInf a = true ∧ f32IsInf b = true) ∨ (f32IsZero a = true ∧ f32IsZero b = true))

/-- 43_fpu.md R202: infinities are produced and consumed as IEEE 754 specifies (which the spec names without writing it
out: log entry 10). An infinite operand gives an infinity, but a finite number divided by an infinity gives a zero; signs
multiply in a product and a quotient. -/
def Obligations.InfiniteOperandsGiveTheIeeeResults : Prop :=
  ∀ a b : Acc, ∀ sign, sign = (if f32Sign a = f32Sign b then 0x00000000#32 else 0x80000000#32) →
    (f32IsInf a = true → f32IsFinite b = true ∨ b = a → f32Add a b = some a) ∧
      (f32IsFinite a = true → f32IsInf b = true → f32Add a b = some b) ∧
      (f32IsInf a = true → f32IsFinite b = true ∨ b = f32Neg a → f32Sub a b = some a) ∧
      (f32IsFinite a = true → f32IsInf b = true → f32Sub a b = some (f32Neg b)) ∧
      (f32IsInf a = true → f32IsNaN b = false → f32IsZero b = false → f32Mul a b = some (sign ||| 0x7F800000#32)) ∧
      (f32IsNaN a = false → f32IsZero a = false → f32IsInf b = true → f32Mul a b = some (sign ||| 0x7F800000#32)) ∧
      (f32IsInf a = true → f32IsFinite b = true → f32Div a b = some (sign ||| 0x7F800000#32)) ∧
      (f32IsFinite a = true → f32IsInf b = true → f32Div a b = some sign)

/-- 43_fpu.md R202 to R204: the sum and the difference of two finite floats are the exact ones rounded to nearest, ties to
even. An exact sum of zero is +0.0, but -0.0 for two negative zeros; an exact difference of zero is +0.0, but -0.0 for
-0.0 minus +0.0 (IEEE 754, which the spec names without writing it out: log entry 10). -/
def Obligations.FloatSumAndDifferenceAreCorrectlyRounded : Prop :=
  ∀ a b : Acc, f32IsFinite a = true → f32IsFinite b = true →
    (∃ r, f32Add a b = some r ∧ IsRounded r (f32Int a + f32Int b) 1 ∧
      (f32Int a + f32Int b = 0 → r = if f32Sign a = true ∧ f32Sign b = true then 0x80000000#32 else 0x00000000#32)) ∧
    ∃ r, f32Sub a b = some r ∧ IsRounded r (f32Int a - f32Int b) 1 ∧
      (f32Int a - f32Int b = 0 → r = if f32Sign a = true ∧ f32Sign b = false then 0x80000000#32 else 0x00000000#32)

/-- 43_fpu.md R202, R205: the product of two finite floats is the exact product rounded to nearest, ties to even, with
the sign of the product (IEEE 754: log entry 10). -/
def Obligations.FloatProductIsCorrectlyRounded : Prop :=
  ∀ a b : Acc, f32IsFinite a = true → f32IsFinite b = true →
    ∃ r, f32Mul a b = some r ∧ IsRounded r (f32Int a * f32Int b) (2 ^ 149) ∧ f32Sign r = (f32Sign a != f32Sign b)

/-- 43_fpu.md R202, R206: the quotient of finite floats with a nonzero divisor is the exact quotient rounded to nearest,
ties to even, with the sign of the quotient. The exact quotient is `a * 2^149 / b` units, written with a positive
denominator (IEEE 754: log entry 10). -/
def Obligations.FloatQuotientIsCorrectlyRounded : Prop :=
  ∀ a b : Acc, f32IsFinite a = true → f32IsFinite b = true → f32IsZero b = false →
    ∃ r, f32Div a b = some r ∧
      IsRounded r (f32Int a * 2 ^ 149 * (if f32Sign b = true then -1 else 1)) (f32Mag b) ∧
      f32Sign r = (f32Sign a != f32Sign b)

/-- 43_fpu.md R208: CONVF rounds a signed integer to nearest, ties to even; 0 gives +0.0 (IEEE 754: log entry 10). -/
def Obligations.IntToFloatIsCorrectlyRounded : Prop :=
  ∀ v : Acc, IsRounded (f32FromInt v.toInt) (v.toInt * 2 ^ 149) 1 ∧ (v = 0 → f32FromInt v.toInt = 0x00000000#32)

/-- What CONVF and CONVI with the result `r` do, but for the flags (43_fpu.md R207). -/
def ConvertEffect (r : Acc) (s t : State) : Prop :=
  t.ip = s.ip + 1#16 ∧ t.sp = s.sp ∧ t.accAt s.sp.toNat = r ∧ t.flags.extractLsb' 2 6 = s.flags.extractLsb' 2 6 ∧
    t.status = .continuing ∧ SameLaunch s t ∧ SameMemoryOutside s.sp.toNat 4 s t

/-- 43_fpu.md R207, R208: CONVF replaces the top 4 bytes by the float of their signed value. -/
def Obligations.ConvfConvertsInPlace : Prop :=
  ∀ s : State, s.stackOk →
    (∀ c : Config, DecodesTo c [0xBC#8] .convf c.fpu) ∧
      (s.sp.toNat + 4 ≤ s.sp0.toNat →
        ∃ t, exec .convf s = .next t ∧ ConvertEffect (f32FromInt (s.accAt s.sp.toNat).toInt) s t ∧
          (s.cfg.convSetsFlags = true → FloatFlags (f32FromInt (s.accAt s.sp.toNat).toInt) t) ∧
          (s.cfg.convSetsFlags = false → t.flags = s.flags)) ∧
      (s.sp0.toNat < s.sp.toNat + 4 → exec .convf s = .fault .boundsViolation)

/-- 43_fpu.md R207, R209: CONVI replaces the top 4 bytes by the float rounded toward zero, when it is finite and the
rounded value fits a signed 32-bit integer; for every other input by `CONVI_OOR`, of which nothing is known. -/
def Obligations.ConviTruncatesInPlace : Prop :=
  ∀ s : State, s.stackOk →
    (∀ c : Config, DecodesTo c [0xBD#8] .convi c.fpu) ∧
      (s.sp.toNat + 4 ≤ s.sp0.toNat →
        ∃ t r, exec .convi s = .next t ∧ ConvertEffect r s t ∧
          (∀ x : Int, x = (f32Int (s.accAt s.sp.toNat)).tdiv (2 ^ 149) →
            (if f32IsFinite (s.accAt s.sp.toNat) = true ∧ -(2 ^ 31) ≤ x ∧ x ≤ 2 ^ 31 - 1 then r.toInt = x
              else r = Config.conviOor (s.accAt s.sp.toNat))) ∧
          (s.cfg.convSetsFlags = true → t.z = decide (r = 0#32) ∧ t.n = r.getLsbD 31) ∧
          (s.cfg.convSetsFlags = false → t.flags = s.flags)) ∧
      (s.sp0.toNat < s.sp.toNat + 4 → exec .convi s = .fault .boundsViolation)

/-! ## Control transfer -/

/-- 44_control.md R220: where a branch goes when it is taken and when it is not, modulo 2^16. -/
def branchIp (ip : Addr) (taken : Bool) : Disp → Addr
  | .d8 d => if taken then ip + 2#16 + d.signExtend 16 else ip + 2#16
  | .d16 d => if taken then ip + 3#16 + d else ip + 3#16

/-- The encoding of a displacement after its opcode (30_encoding.md R103, R109). -/
def branchBytes (ccc : BitVec 3) : Disp → List Byte
  | .d8 d => [0b1100#4 ++ ccc ++ 0#1, d]
  | .d16 d => [0b1100#4 ++ ccc ++ 1#1, d.extractLsb' 0 8, d.extractLsb' 8 8]

/-- 44_control.md R221, R222, R224 to R232: under the FLAGS strategy every branch completes, changes `ip` alone, and is
taken as its condition code says; 0xD0 is a second BRA.S. -/
def Obligations.BranchesTestTheFlags : Prop :=
  ∀ (d : Disp) (d8 : BitVec 8) (s : State), s.cfg.branchSrc = .flags →
    (∀ (ccc : BitVec 3) (mk : Disp → Instr) (taken : Bool),
      (ccc, mk, taken) ∈ [(0#3, Instr.bra, true), (1#3, Instr.beq, s.z), (2#3, Instr.bne, !s.z), (3#3, Instr.blt, s.n),
        (4#3, Instr.bgt, !s.z && !s.n), (5#3, Instr.ble, s.z || s.n), (6#3, Instr.bge, !s.n)] →
      (∀ c, DecodesTo c (branchBytes ccc d) (mk d) true) ∧
        exec (mk d) s = .next { s with ip := branchIp s.ip taken d, status := .continuing }) ∧
      (∀ c, DecodesTo c [0xD0#8, d8] (.braAlt d8) true) ∧
      exec (.braAlt d8) s = .next { s with ip := branchIp s.ip true (.d8 d8), status := .continuing }

/-- 44_control.md R223 to R231: under the STACK strategy a conditional branch pops 4 bytes whether or not it is taken and
compares them as signed with zero; an unconditional one pops nothing. The flags are neither read nor written. -/
def Obligations.BranchesTestThePoppedValue : Prop :=
  ∀ (d : Disp) (d8 : BitVec 8) (s : State), s.stackOk → s.cfg.branchSrc = .stack →
    (∀ x : Int, x = (s.accAt s.sp.toNat).toInt →
      ∀ (mk : Disp → Instr) (taken : Prop),
        (mk, taken) ∈ [(Instr.beq, x = 0), (Instr.bne, x ≠ 0), (Instr.blt, x < 0), (Instr.bgt, x > 0),
          (Instr.ble, x ≤ 0), (Instr.bge, x ≥ 0)] →
        (s.sp.toNat + 4 ≤ s.sp0.toNat →
          ∃ t, exec (mk d) s = .next t ∧ (taken → t.ip = branchIp s.ip true d) ∧ (¬taken → t.ip = branchIp s.ip false d) ∧
            t.sp.toNat = s.sp.toNat + 4 ∧ t.flags = s.flags ∧ t.status = .continuing ∧ SameLaunch s t ∧
            SameMemory s t) ∧
        (s.sp0.toNat < s.sp.toNat + 4 → exec (mk d) s = .fault .boundsViolation)) ∧
      exec (.bra d) s = .next { s with ip := branchIp s.ip true d, status := .continuing } ∧
      exec (.braAlt d8) s = .next { s with ip := branchIp s.ip true (.d8 d8), status := .continuing }

/-- 44_control.md R233: CALL pushes the address of the byte after it, little-endian, and goes to its target; a target
outside the buffer faults at the next step. -/
def Obligations.CallPushesTheReturnAddress : Prop :=
  ∀ (lo hi : Byte) (s : State), s.stackOk →
    (∀ c, DecodesTo c [0x40#8, lo, hi] (.call (hi ++ lo)) true) ∧
      (2 ≤ s.sp.toNat →
        ∃ t, exec (.call (hi ++ lo)) s = .next t ∧ t.ip = hi ++ lo ∧ t.sp.toNat = s.sp.toNat - 2 ∧
          t.readByte (s.sp.toNat - 2) = (s.ip + 3#16).extractLsb' 0 8 ∧
          t.readByte (s.sp.toNat - 1) = (s.ip + 3#16).extractLsb' 8 8 ∧
          t.flags = s.flags ∧ t.status = .continuing ∧ SameLaunch s t ∧ SameMemoryOutside (s.sp.toNat - 2) 2 s t ∧
          (s.memSize ≤ (hi ++ lo).toNat → step t = .fault .boundsViolation)) ∧
      (s.sp.toNat < 2 → exec (.call (hi ++ lo)) s = .fault .boundsViolation)

/-- 44_control.md R234: CALLI pops its target and pushes its return address in its place. -/
def Obligations.CalliReplacesTheTargetByTheReturnAddress : Prop :=
  ∀ s : State, s.stackOk →
    (∀ c, DecodesTo c [0x41#8] .calli true) ∧
      (s.sp.toNat + 2 ≤ s.sp0.toNat →
        ∃ t, exec .calli s = .next t ∧ t.ip = s.readByte (s.sp.toNat + 1) ++ s.readByte s.sp.toNat ∧ t.sp = s.sp ∧
          t.readByte s.sp.toNat = (s.ip + 1#16).extractLsb' 0 8 ∧
          t.readByte (s.sp.toNat + 1) = (s.ip + 1#16).extractLsb' 8 8 ∧
          t.flags = s.flags ∧ t.status = .continuing ∧ SameLaunch s t ∧ SameMemoryOutside s.sp.toNat 2 s t) ∧
      (s.sp0.toNat < s.sp.toNat + 2 → exec .calli s = .fault .boundsViolation)

/-- 44_control.md R235: RET pops a 2-byte return address and goes there. -/
def Obligations.RetPopsTheReturnAddress : Prop :=
  ∀ s : State, s.stackOk →
    (∀ c, DecodesTo c [0x42#8] .ret true) ∧
      (s.sp.toNat + 2 ≤ s.sp0.toNat →
        ∃ t, exec .ret s = .next t ∧ t.ip = s.readByte (s.sp.toNat + 1) ++ s.readByte s.sp.toNat ∧
          t.sp.toNat = s.sp.toNat + 2 ∧ t.flags = s.flags ∧ t.status = .continuing ∧ SameLaunch s t ∧ SameMemory s t) ∧
      (s.sp0.toNat < s.sp.toNat + 2 → exec .ret s = .fault .boundsViolation)

/-- 44_control.md R236: the call and return law. If, after a CALL or a CALLI, a state with the same stack pointer and the
same two bytes on top executes RET, it goes to the byte after the call, with the stack pointer of before the call (for
CALLI: of after the target was popped). -/
def Obligations.ReturnGoesBackToTheCaller : Prop :=
  ∀ (s t u : State), s.stackOk → SameLaunch t u → u.sp = t.sp →
    u.readByte t.sp.toNat = t.readByte t.sp.toNat → u.readByte (t.sp.toNat + 1) = t.readByte (t.sp.toNat + 1) →
    (∀ a16, exec (.call a16) s = .next t → ∃ v, exec .ret u = .next v ∧ v.ip = s.ip + 3#16 ∧ v.sp = s.sp) ∧
      (exec .calli s = .next t →
        ∃ v, exec .ret u = .next v ∧ v.ip = s.ip + 1#16 ∧ v.sp.toNat = s.sp.toNat + 2)

/-- 44_control.md R240: YIELD advances `ip` past itself and returns YIELDED, -2; nothing else changes. -/
def Obligations.YieldSuspends : Prop :=
  (∀ c, DecodesTo c [0xFE#8] .yield true) ∧ Status.yielded.code = -2 ∧
    ∀ s : State, exec .yield s = .next { s with ip := s.ip + 1#16, status := .yielded }

/-- 44_control.md R243, 70_reset_and_hazards.md R284: HALT returns HALTED, -1, and changes nothing; so a further step of a
halted state halts again. -/
def Obligations.HaltStops : Prop :=
  (∀ c, DecodesTo c [0xFF#8] .halt true) ∧ Status.halted.code = -1 ∧
    (∀ s : State, exec .halt s = .next { s with status := .halted }) ∧
    ∀ s : State, s.ip.toNat < s.memSize → s.readByte s.ip.toNat = 0xFF#8 →
      step s = .next { s with status := .halted } ∧
        step { s with status := .halted } = .next { s with status := .halted }

/-- 44_control.md R242: every instruction but YIELD and HALT that completes, and every step that completes on another
opcode byte than theirs, returns CONTINUE, 0. -/
def Obligations.OnlyYieldAndHaltSignal : Prop :=
  Status.continuing.code = 0 ∧
    (∀ (i : Instr) (s t : State), exec i s = .next t → i ≠ .yield → i ≠ .halt → t.status = .continuing) ∧
    ∀ s t : State, step s = .next t → s.readByte s.ip.toNat ≠ 0xFE#8 → s.readByte s.ip.toNat ≠ 0xFF#8 →
      t.status = .continuing

/-! ## The whole machine -/

/-- 10_state.md R37, R38, R32: every step keeps a legal state legal, and no step changes a launch constant or the
configuration (R30, R31). That the memory list keeps its canonical form is the model's own part of this. -/
def Obligations.EveryStepKeepsTheStateLegal : Prop :=
  ∀ s t : State, s.inv → step s = .next t → t.inv ∧ SameLaunch s t

/-- 70_reset_and_hazards.md R282: from any state at all, a step never changes a byte outside the buffer. -/
def Obligations.NoStepWritesOutsideTheBuffer : Prop :=
  ∀ s t : State, step s = .next t → ∀ a, s.memSize ≤ a → t.readByte a = s.readByte a

/-- Two states that differ at most in bytes outside the buffer. -/
def AgreeInTheBuffer (s t : State) : Prop :=
  s.ip = t.ip ∧ s.sp = t.sp ∧ s.flags = t.flags ∧ s.memSize = t.memSize ∧ s.sp0 = t.sp0 ∧ s.cfg = t.cfg ∧
    s.status = t.status ∧ ∀ a < s.memSize, s.readByte a = t.readByte a

/-- 70_reset_and_hazards.md R282: from any state at all, a step never depends on a byte outside the buffer. -/
def Obligations.NoStepReadsOutsideTheBuffer : Prop :=
  ∀ s t : State, AgreeInTheBuffer s t → SameOutcome AgreeInTheBuffer (step s) (step t)

/-- The writers of the flags (10_state.md R39). -/
def WritesFlags (c : Config) (i : Instr) : Prop :=
  (∃ ww, IsAluCommand ww i) ∨ i ∈ [Instr.fadd, Instr.fsub, Instr.fmul, Instr.fdiv] ∨
    (i ∈ [Instr.convf, Instr.convi] ∧ c.convSetsFlags = true)

/-- 10_state.md R39: no instruction but the listed writers changes the flags. -/
def Obligations.OnlyTheListedWritersChangeTheFlags : Prop :=
  ∀ (i : Instr) (s t : State), exec i s = .next t → ¬WritesFlags s.cfg i → t.flags = s.flags

/-- 10_state.md R40: the flags are read only by a conditional branch under the FLAGS strategy. Every other instruction
does the same from states that differ in the flags alone, but that flags it does not write stay different. -/
def Obligations.OnlyFlagBranchesReadTheFlags : Prop :=
  ∀ (i : Instr) (s : State) (f : BitVec 8),
    s.cfg.branchSrc = .stack ∨
      (∀ d, i ≠ .beq d ∧ i ≠ .bne d ∧ i ≠ .blt d ∧ i ≠ .bgt d ∧ i ≠ .ble d ∧ i ≠ .bge d) →
    SameOutcome (fun t u => { t with flags := u.flags } = u ∧ (WritesFlags s.cfg i → t.z = u.z ∧ t.n = u.n))
      (exec i s) (exec i { s with flags := f })

/-- 10_state.md R44: the status of the last step is an output. No step depends on it. -/
def Obligations.NoStepReadsTheLastStatus : Prop := ∀ (s : State) (k : Status), step { s with status := k } = step s

/-- 60_exceptions.md R255: DIVIDE_BY_ZERO is raised by DIV and MOD whose 32-bit divisor is 0, when both operands could be
popped, and by nothing else. -/
def Obligations.DivideByZeroOnlyFromDivAndMod : Prop :=
  ∀ (i : Instr) (s : State), exec i s = .fault .divideByZero ↔
    ∃ ww, (i = .div ww ∨ i = .mod ww) ∧ s.sp.toNat + 2 * (s.width ww).bytes ≤ s.sp0.toNat ∧
      s.sp.toNat + 2 * (s.width ww).bytes ≤ s.memSize ∧ (s.valueAt s.sp.toNat (s.width ww)).toNat % 2 ^ 32 = 0

/-- 60_exceptions.md R258: an instruction's own faults are BOUNDS_VIOLATION and, for DIV and MOD, DIVIDE_BY_ZERO; YIELD,
HALT and, under the FLAGS strategy, every branch raise none. No instruction is refused. A fault returns the status FAULT,
-3 (00_scope.md R8), with a kind that has its code of 60_exceptions.md R250. -/
def Obligations.InstructionFaultsAreTheListedOnes : Prop :=
  (∀ f : Fault, f.status = -3) ∧ Fault.unknownInstruction.code = 1 ∧ Fault.divideByZero.code = 2 ∧
    Fault.boundsViolation.code = 3 ∧ Fault.truncatedInstruction.code = 4 ∧ ∀ (i : Instr) (s : State),
    (∀ r, exec i s ≠ .refused r) ∧
      (∀ f, exec i s = .fault f →
        (f = .boundsViolation ∨ (f = .divideByZero ∧ ∃ ww, i = .div ww ∨ i = .mod ww)) ∧ i ≠ .yield ∧ i ≠ .halt ∧
          (∀ d, i ≠ .bra d) ∧ (∀ d, i ≠ .braAlt d) ∧
          (s.cfg.branchSrc = .flags →
            ∀ d, i ≠ .beq d ∧ i ≠ .bne d ∧ i ≠ .blt d ∧ i ≠ .bgt d ∧ i ≠ .ble d ∧ i ≠ .bge d))
end

