-- ==== Sys2Proof/Laws/Bytes.lean ====
section
/-!
SUPPORT. The laws of the byte order: splitting a value into bytes and joining them again.
-/

namespace Sys2Proof.Machine

theorem Width.bytes_pos (w : Width) : 1 ≤ w.bytes := by cases w <;> decide

theorem Width.bytes_le (w : Width) : w.bytes ≤ 8 := by cases w <;> decide

@[simp] theorem leBytes_length (n : Nat) (v : Value) : (leBytes n v).length = n := by
  induction n generalizing v with
  | zero => rfl
  | succ n ih => simp [leBytes, ih]

/-- Joining the bytes of a value gives its low `8*n` bits. -/
theorem ofLE_leBytes_getLsbD (n : Nat) (v : Value) (i : Nat) :
    (ofLE (leBytes n v)).getLsbD i = (decide (i < 8 * n) && v.getLsbD i) := by
  induction n generalizing v i with
  | zero => simp [leBytes, ofLE]
  | succ n ih =>
    simp only [leBytes, ofLE, BitVec.getLsbD_or, BitVec.getLsbD_setWidth, BitVec.getLsbD_shiftLeft, ih,
      BitVec.getLsbD_ushiftRight]
    by_cases hi : i < 8
    · have : i < 8 * (n + 1) := by omega
      have h64 : i < 64 := by omega
      simp [hi, this, h64]
    · by_cases h64 : i < 64
      · have h1 : (8 + (i - 8)) = i := by omega
        have h2 : decide (i - 8 < 8 * n) = decide (i < 8 * (n + 1)) := by
          apply decide_eq_decide.mpr; omega
        simp [hi, h64, h1, h2]
      · simp [hi, h64, BitVec.getLsbD_of_ge v i (by omega)]

theorem maskTo_getLsbD (w : Width) (v : Value) (i : Nat) :
    (maskTo w v).getLsbD i = (decide (i < 8 * w.bytes) && v.getLsbD i) := by
  by_cases h64 : i < 64
  · cases w <;> simp only [maskTo, Width.bytes, BitVec.getLsbD_setWidth, h64, decide_true, Bool.true_and] <;> rfl
  · rw [BitVec.getLsbD_of_ge _ i (by omega), BitVec.getLsbD_of_ge v i (by omega), Bool.and_false]

/-- Joining the `w` bytes of a value gives the value masked to `w` bytes. -/
@[simp] theorem ofLE_leBytes (w : Width) (v : Value) : ofLE (leBytes w.bytes v) = maskTo w v := by
  apply BitVec.eq_of_getLsbD_eq
  intro i _
  rw [ofLE_leBytes_getLsbD, maskTo_getLsbD]

/-- Splitting joined bytes gives them back. -/
theorem leBytes_ofLE (bs : List Byte) (h : bs.length ≤ 8) : leBytes bs.length (ofLE bs) = bs := by
  induction bs with
  | nil => rfl
  | cons b bs ih =>
    have hlen : bs.length ≤ 7 := by simp only [List.length_cons] at h; omega
    have h1 : (b.setWidth 64 ||| (ofLE bs <<< 8)).setWidth 8 = b := by
      ext i hi
      simp
    have hhigh : ∀ j, 8 * bs.length ≤ j → (ofLE bs).getLsbD j = false := by
      clear ih h hlen h1
      induction bs with
      | nil => simp [ofLE]
      | cons c cs ihc =>
        intro j hj
        simp only [List.length_cons] at hj
        have : (ofLE cs).getLsbD (j - 8) = false := ihc (j - 8) (by omega)
        simp [ofLE, this, BitVec.getLsbD_of_ge c j (by omega)]
    have h2 : (b.setWidth 64 ||| (ofLE bs <<< 8)) >>> 8 = ofLE bs := by
      apply BitVec.eq_of_getLsbD_eq
      intro i hi
      simp only [BitVec.getLsbD_ushiftRight, BitVec.getLsbD_or, BitVec.getLsbD_setWidth, BitVec.getLsbD_shiftLeft]
      by_cases h56 : 8 + i < 64
      · simp [h56]
      · have := hhigh i (by omega)
        simp [h56, this]
    simp only [List.length_cons, leBytes, ofLE, h1, h2, ih (by omega)]

theorem ofLE_getLsbD_high (bs : List Byte) : ∀ j, 8 * bs.length ≤ j → (ofLE bs).getLsbD j = false := by
  induction bs with
  | nil => simp [ofLE]
  | cons c cs ih =>
    intro j hj
    simp only [List.length_cons] at hj
    have : (ofLE cs).getLsbD (j - 8) = false := ih (j - 8) (by omega)
    simp [ofLE, this, BitVec.getLsbD_of_ge c j (by omega)]

/-- A value of `w` bytes is its own mask. -/
theorem maskTo_ofLE (w : Width) (bs : List Byte) (h : bs.length = w.bytes) : maskTo w (ofLE bs) = ofLE bs := by
  apply BitVec.eq_of_getLsbD_eq
  intro i _
  rw [maskTo_getLsbD]
  by_cases hi : i < 8 * w.bytes
  · simp [hi]
  · simp [hi, ofLE_getLsbD_high bs i (by omega)]

theorem maskTo_toNat (w : Width) (v : Value) : (maskTo w v).toNat = v.toNat % 2 ^ (8 * w.bytes) := by
  have h : v.toNat < 2 ^ 64 := v.isLt
  cases w <;> simp [maskTo, Width.bytes] <;> omega

theorem maskTo_of_lt {w : Width} {v : Value} (h : v.toNat < 2 ^ (8 * w.bytes)) : maskTo w v = v := by
  apply BitVec.eq_of_toNat_eq
  rw [maskTo_toNat, Nat.mod_eq_of_lt h]

@[simp] theorem maskTo_maskTo (w : Width) (v : Value) : maskTo w (maskTo w v) = maskTo w v := by
  apply BitVec.eq_of_toNat_eq
  simp [maskTo_toNat]

@[simp] theorem maskTo_w2_setWidth (a : Addr) : (maskTo .w2 (a.setWidth 64)).setWidth 16 = a := by
  apply BitVec.eq_of_toNat_eq
  have := a.isLt
  simp [maskTo_toNat, Width.bytes]; omega

@[simp] theorem maskTo_w4_setWidth (a : Acc) : (maskTo .w4 (a.setWidth 64)).setWidth 32 = a := by
  apply BitVec.eq_of_toNat_eq
  have := a.isLt
  simp [maskTo_toNat, Width.bytes]; omega

end Sys2Proof.Machine
end

