-- ==== Sys2Proof/Laws/Decode.lean ====
section
/-!
SUPPORT. What the decoder does with an opcode byte and the bytes after it, said once; and how a form decodes.
-/

namespace Sys2Proof

/-- Decoding a known opcode byte: the form's operand bytes, if they are there (30_encoding.md R107, R115). -/
theorem decode_of_form {c : Config} {op : Byte} {f : Form} (h : decodeByte c op = some f) (rest : List Byte) :
    decode c (op :: rest) =
      if f.operandBytes ≤ rest.length then .ok (f.build (rest.take f.operandBytes)) else .error .truncated := by
  simp [decode, h]

/-- Decoding an unknown opcode byte (R106). -/
theorem decode_of_unknown {c : Config} {op : Byte} (h : decodeByte c op = none) (rest : List Byte) :
    decode c (op :: rest) = .error .unknownOpcode := by
  simp [decode, h]

/-- Everything that decodes is built by the form of its opcode byte from the operand bytes that follow. -/
theorem decode_eq_ok {c : Config} {op : Byte} {rest : List Byte} {i : Instr} :
    decode c (op :: rest) = .ok i ↔
      ∃ f, decodeByte c op = some f ∧ f.operandBytes ≤ rest.length ∧ i = f.build (rest.take f.operandBytes) := by
  cases hd : decodeByte c op with
  | none => simp [decode_of_unknown hd]
  | some f =>
    rw [decode_of_form hd]
    constructor
    · intro h
      split at h
      · cases h; exact ⟨f, rfl, ‹_›, rfl⟩
      · cases h
    · rintro ⟨g, hg, hl, rfl⟩
      cases hg
      rw [if_pos hl]

/-- A two-byte operand is little-endian (R109). -/
theorem ofLE16_pair (lo hi : Byte) : Machine.ofLE16 [lo, hi] = hi ++ lo := by
  simp only [Machine.ofLE16, Machine.ofLE]
  apply BitVec.eq_of_getLsbD_eq
  intro i _
  rw [BitVec.getLsbD_append]
  interval_cases i <;> simp

/-- No instruction has more than eight operand bytes (R108). -/
theorem operandBytes_le {c : Config} {op : Byte} {f : Form} (h : decodeByte c op = some f) : f.operandBytes ≤ 8 := by
  obtain ⟨wm, ib, bw, fp, bs, nk, cs⟩ := c
  have key : ∀ ib bw fp : Bool, ∀ n : Fin 256,
      (decodeByte ⟨wm, ib, bw, fp, .flags, .logical, true⟩ (BitVec.ofFin n)).all (fun f => decide (f.operandBytes ≤ 8)) =
        true := by
    cases wm <;> decide +kernel
  have := key ib bw fp op.toFin
  rw [show decodeByte ⟨wm, ib, bw, fp, .flags, .logical, true⟩ (BitVec.ofFin op.toFin) = some f from h] at this
  simpa using this

/-- How the bytes of an instruction decode, from the form of their opcode byte. -/
theorem Machine.decodesTo_of_form {c : Config} {op : Byte} {bs : List Byte} {i : Instr} {f : Form} {present : Bool}
    (h : decodeByte c op = formWhen present f) (hn : f.operandBytes = bs.length) (hb : f.build bs = i) :
    Machine.DecodesTo c (op :: bs) i present := by
  have tail : ∀ {k}, 0 < k → k < (op :: bs).length → ∃ j, k = j + 1 ∧ j < bs.length := by
    intro k h0 hk
    obtain ⟨j, rfl⟩ := Nat.exists_eq_succ_of_ne_zero (Nat.pos_iff_ne_zero.mp h0)
    exact ⟨j, rfl, by simpa using hk⟩
  cases present with
  | true =>
    have h : decodeByte c op = some f := h
    refine ⟨fun rest => ?_, fun k h0 hk => ?_⟩
    · rw [List.cons_append, decode_of_form h, hn]
      simp [hb]
    · obtain ⟨j, rfl, hj⟩ := tail h0 hk
      rw [List.take_succ_cons, decode_of_form h, hn, if_neg (by rw [List.length_take]; omega)]
      rfl
  | false =>
    have h : decodeByte c op = none := h
    refine ⟨fun rest => ?_, fun k h0 hk => ?_⟩
    · rw [List.cons_append, decode_of_unknown h]; rfl
    · obtain ⟨j, rfl, _⟩ := tail h0 hk
      rw [List.take_succ_cons, decode_of_unknown h]; rfl

end Sys2Proof
end

