-- ==== Sys2Proof/Laws/Float.lean ====
section
/-!
SUPPORT. The rounding of binary32 (43_fpu.md R202): the fields of packed bits, and that `roundShift` and `f32Round` round
to nearest, ties to even.
-/

namespace Sys2Proof.Machine


/-- The exponent field of the bits read as a number. -/
theorem f32Exp_eq (x : Acc) : f32Exp x = x.toNat / 2 ^ 23 % 256 := by
  simp [f32Exp, BitVec.extractLsb'_toNat, Nat.shiftRight_eq_div_pow]

/-- The fraction field of the bits read as a number. -/
theorem f32Frac_eq (x : Acc) : f32Frac x = x.toNat % 2 ^ 23 := by
  simp [f32Frac, BitVec.extractLsb'_toNat]

/-- The sign bit of the bits read as a number. -/
theorem f32Sign_eq (x : Acc) : f32Sign x = decide (2 ^ 31 ≤ x.toNat) := by
  have := x.isLt
  rw [f32Sign, BitVec.getLsbD, Nat.testBit_eq_decide_div_mod_eq]
  congr 1
  simp only [eq_iff_iff]
  omega

theorem f32Pack_toNat (s : Bool) (B : Nat) (h : B < 2 ^ 31) : (f32Pack s B).toNat = (if s then 2 ^ 31 else 0) + B := by
  rw [f32Pack, BitVec.toNat_ofNat, Nat.mod_eq_of_lt]
  cases s <;> simp <;> omega

theorem f32Pack_exp (s B) (h : B < 2 ^ 31) : f32Exp (f32Pack s B) = B / 2 ^ 23 := by
  rw [f32Exp_eq, f32Pack_toNat s B h]; split <;> omega

theorem f32Pack_frac (s B) (h : B < 2 ^ 31) : f32Frac (f32Pack s B) = B % 2 ^ 23 := by
  rw [f32Frac_eq, f32Pack_toNat s B h]; split <;> omega

theorem f32Pack_sign (s B) (h : B < 2 ^ 31) : f32Sign (f32Pack s B) = s := by
  rw [f32Sign_eq, f32Pack_toNat s B h]; (cases s <;> simp); omega

theorem f32Pack_bit0 (s B) (h : B < 2 ^ 31) : (f32Pack s B).getLsbD 0 = decide (B % 2 = 1) := by
  rw [BitVec.getLsbD, Nat.testBit_eq_decide_div_mod_eq, f32Pack_toNat s B h]
  congr 1
  split <;> simp only [eq_iff_iff] <;> omega

/-- The magnitude of packed bits that hold a significand `n` at the scale `s`, also where `n` carries into the exponent. -/
theorem f32Pack_mag (sg : Bool) (s n : Nat) (hn : n ≤ 2 ^ 24) (h3 : s = 0 ∨ 2 ^ 23 ≤ n)
    (hB : 2 ^ 23 * s + n < 255 * 2 ^ 23) :
    f32Mag (f32Pack sg (2 ^ 23 * s + n)) = n * 2 ^ s := by
  have hb : 2 ^ 23 * s + n < 2 ^ 31 := by omega
  rw [f32Mag, f32Mant, f32Scale, f32Pack_exp _ _ hb, f32Pack_frac _ _ hb]
  by_cases c1 : n < 2 ^ 23
  · have : s = 0 := by omega
    subst this
    have : (2 ^ 23 * 0 + n) / 2 ^ 23 = 0 := by omega
    rw [if_pos this, if_pos this]
    have : (2 ^ 23 * 0 + n) % 2 ^ 23 = n := by omega
    rw [this]
  · by_cases c2 : n = 2 ^ 24
    · have e1 : (2 ^ 23 * s + n) / 2 ^ 23 = s + 2 := by omega
      have e2 : (2 ^ 23 * s + n) % 2 ^ 23 = 0 := by omega
      rw [e1, e2, if_neg (by omega), if_neg (by omega), c2]
      rw [show s + 2 - 1 = s + 1 by omega, Nat.pow_succ]; omega
    · have e1 : (2 ^ 23 * s + n) / 2 ^ 23 = s + 1 := by omega
      have e2 : (2 ^ 23 * s + n) % 2 ^ 23 = n - 2 ^ 23 := by omega
      rw [e1, e2, if_neg (by omega), if_neg (by omega)]
      rw [show s + 1 - 1 = s by omega, Nat.add_sub_cancel' (by omega)]

theorem f32Frac_lt (x : Acc) : f32Frac x < 2 ^ 23 := by rw [f32Frac_eq]; omega

theorem f32Mant_lt (x : Acc) : f32Mant x < 2 ^ 24 := by
  have := f32Frac_lt x
  unfold f32Mant; split <;> omega

/-- A magnitude is a multiple of `2^s`, or below the least number of full length at the scale `s`. -/
theorem f32Mag_grid (x : Acc) (s : Nat) : (2 ^ s ∣ f32Mag x) ∨ f32Mag x < 2 ^ 23 * 2 ^ s := by
  by_cases h : s ≤ f32Scale x
  · left; exact Dvd.dvd.mul_left (pow_dvd_pow 2 h) _
  · right
    have h1 := f32Mant_lt x
    have h2 : 2 ^ (f32Scale x + 1) ≤ 2 ^ s := Nat.pow_le_pow_right (by decide) (by omega)
    rw [pow_succ] at h2
    unfold f32Mag
    have h3 : f32Mant x * 2 ^ f32Scale x < 2 ^ 24 * 2 ^ f32Scale x := Nat.mul_lt_mul_of_pos_right h1 (Nat.two_pow_pos _)
    omega

/-- A finite value is a multiple of `2^s`, or nearer to zero than every number of full length at the scale `s`. -/
theorem f32Int_grid (x : Acc) (s : Nat) : (∃ y : Int, f32Int x = y * 2 ^ s) ∨ |f32Int x| < 2 ^ 23 * 2 ^ s := by
  rcases f32Mag_grid x s with ⟨y, h⟩ | h
  · left
    unfold f32Int
    split
    · exact ⟨-y, by rw [h]; push_cast; ring⟩
    · exact ⟨y, by rw [h]; push_cast; ring⟩
  · right
    have : |f32Int x| = (f32Mag x : Int) := by unfold f32Int; split <;> simp
    rw [this]; exact_mod_cast h

/-- The value of packed bits that hold a significand `n` at the scale `s`. -/
theorem f32Int_pack (sg : Bool) (s n : Nat) (hn : n ≤ 2 ^ 24) (h3 : s = 0 ∨ 2 ^ 23 ≤ n)
    (hB : 2 ^ 23 * s + n < 255 * 2 ^ 23) :
    f32Int (f32Pack sg (2 ^ 23 * s + n)) = (if sg then -1 else 1) * ((n : Int) * 2 ^ s) := by
  have hb : 2 ^ 23 * s + n < 2 ^ 31 := by omega
  rw [f32Int, f32Pack_sign _ _ hb, f32Pack_mag sg s n hn h3 hB]
  cases sg <;> simp

/-- A multiple of `g` within half of `g` is a nearest one, and at a tie the even one. -/
theorem nearest_multiple (g q n y : Int) (hg : 0 < g) (h1 : |2 * (n * g) - 2 * q| ≤ g)
    (h2 : |2 * (n * g) - 2 * q| = g → n % 2 = 0) :
    |n * g - q| ≤ |y * g - q| ∧ (|n * g - q| = |y * g - q| → y = n ∨ n % 2 = 0) := by
  by_cases hy : y = n
  · subst hy; exact ⟨le_refl _, fun _ => .inl rfl⟩
  · have hk : g ≤ |y * g - n * g| := by
      rw [← sub_mul, abs_mul, abs_of_pos hg]
      have : 1 ≤ |y - n| := Int.one_le_abs (sub_ne_zero.mpr hy)
      nlinarith
    have tri : |y * g - n * g| ≤ |y * g - q| + |n * g - q| := by
      have := abs_sub (y * g - q) (n * g - q)
      rwa [show y * g - q - (n * g - q) = y * g - n * g by ring] at this
    have e : |2 * (n * g) - 2 * q| = 2 * |n * g - q| := by
      rw [← mul_sub, abs_mul]; simp
    rw [e] at h1 h2
    refine ⟨by linarith, fun hh => .inr (h2 ?_)⟩
    linarith

/-- A rounded significand whose 31 bits are below an infinity's comes from a magnitude below the overflow threshold. -/
theorem number_below_overflow {num den s n : Nat} (hd : 0 < den)
    (h1 : |2 * ((n : Int) * (2 ^ s * den)) - 2 * num| ≤ 2 ^ s * den)
    (h1' : |2 * ((n : Int) * (2 ^ s * den)) - 2 * num| = 2 ^ s * den → n % 2 = 0) (h2 : n ≤ 2 ^ 24)
    (hn3 : s = 0 ∨ 2 ^ 23 ≤ n) (hB : 2 ^ 23 * s + n < 255 * 2 ^ 23) : (num : Int) < f32Overflow * den := by
  have hg : (0 : Int) < 2 ^ s * den := by positivity
  have ha := (abs_le.mp h1).1
  have hd' : (0 : Int) < den := by exact_mod_cast hd
  have hP : (0 : Int) < 2 ^ 252 := by positivity
  unfold f32Overflow
  by_cases hs : s ≤ 252
  · have hle : (2 : Int) ^ s ≤ 2 ^ 252 := pow_le_pow_right₀ (by norm_num) hs
    generalize (2 : Int) ^ 252 = P at *
    have hn : (n : Int) ≤ 2 ^ 24 := by exact_mod_cast h2
    have k1 : (n : Int) * (2 ^ s * den) ≤ 2 ^ 24 * (2 ^ s * den) := mul_le_mul_of_nonneg_right hn hg.le
    have k2 : (2 : Int) ^ s * den ≤ P * den := mul_le_mul_of_nonneg_right hle hd'.le
    have k3 : 0 < P * den := by positivity
    rw [show ((2 : Int) ^ 25 - 1) * P * den = (2 ^ 25 - 1) * (P * den) by ring]
    linarith
  · have hs' : s = 253 := by
      rcases hn3 with h | h
      · omega
      · omega
    subst hs'
    rw [show (2 : Int) ^ 253 = 2 * 2 ^ 252 from pow_succ' _ _] at *
    generalize (2 : Int) ^ 252 = P at *
    have k3 : 0 < P * den := by positivity
    rw [show ((2 : Int) ^ 25 - 1) * P * den = (2 ^ 25 - 1) * (P * den) by ring]
    rw [show (2 : Int) * P * den = 2 * (P * den) by ring] at *
    generalize P * (den : Int) = Q at *
    by_cases he : n % 2 = 0
    · have hn : (n : Int) ≤ 2 ^ 24 - 2 := by omega
      have k1 : (n : Int) * (2 * Q) ≤ (2 ^ 24 - 2) * (2 * Q) := mul_le_mul_of_nonneg_right hn hg.le
      linarith
    · have hn : (n : Int) ≤ 2 ^ 24 - 1 := by omega
      have k1 : (n : Int) * (2 * Q) ≤ (2 ^ 24 - 1) * (2 * Q) := mul_le_mul_of_nonneg_right hn hg.le
      have hne : |2 * ((n : Int) * (2 * Q)) - 2 * num| ≠ 2 * Q := fun h => he (h1' h)
      have := lt_of_le_of_ne h1 hne
      have := (abs_lt.mp this).1
      linarith

/-- A rounded significand whose 31 bits reach an infinity's comes from a magnitude at the overflow threshold or past it. -/
theorem overflow_reached {num den s n : Nat} (hd : 0 < den)
    (h1 : |2 * ((n : Int) * (2 ^ s * den)) - 2 * num| ≤ 2 ^ s * den) (h2 : n ≤ 2 ^ 24)
    (h3 : s = 0 ∨ 2 ^ 23 * 2 ^ s * den ≤ num) (hB : 255 * 2 ^ 23 ≤ 2 ^ 23 * s + n) : f32Overflow * den ≤ (num : Int) := by
  have hb := (abs_le.mp h1).2
  have hd' : (0 : Int) < den := by exact_mod_cast hd
  have hP : (0 : Int) < 2 ^ 252 := by positivity
  unfold f32Overflow
  by_cases hs : s = 253
  · have hn : n = 2 ^ 24 := by omega
    subst hs
    rw [show (2 : Int) ^ 253 = 2 * 2 ^ 252 from pow_succ' _ _] at *
    generalize (2 : Int) ^ 252 = P at *
    rw [hn] at hb
    push_cast at hb
    linarith
  · have h254 : 254 ≤ s := by omega
    have hge : (2 : Int) ^ 254 ≤ 2 ^ s := pow_le_pow_right₀ (by norm_num) h254
    rw [show (2 : Int) ^ 254 = 4 * 2 ^ 252 by rw [show 254 = 252 + 2 from rfl, pow_add]; ring] at hge
    have h3' : (2 : Int) ^ 23 * 2 ^ s * den ≤ num := by
      rcases h3 with h | h
      · omega
      · exact_mod_cast h
    generalize (2 : Int) ^ 252 = P at *
    have k2 : 4 * P * den ≤ 2 ^ s * den := mul_le_mul_of_nonneg_right hge hd'.le
    have k3 : 0 < P * den := by positivity
    linarith

/-- What rounding comes down to: a significand `n` at the scale `s` that is nearest to `num / den`, ties to even, and is
either at the smallest scale or of full length, gives `num / den` rounded as IEEE 754 rounds it. -/
theorem isRounded_of_nearest (sg : Bool) (num den s n : Nat) (hd : 0 < den)
    (h1 : |2 * ((n : Int) * (2 ^ s * den)) - 2 * num| ≤ 2 ^ s * den)
    (h1' : |2 * ((n : Int) * (2 ^ s * den)) - 2 * num| = 2 ^ s * den → n % 2 = 0)
    (h2 : n ≤ 2 ^ 24) (h3 : s = 0 ∨ 2 ^ 23 * 2 ^ s * den ≤ num) :
    IsRounded (f32Pack sg (min (2 ^ 23 * s + n) f32InfMag)) ((if sg then -1 else 1) * (num : Int)) den := by
  have hg : (0 : Int) < 2 ^ s * den := by positivity
  obtain ⟨ha, _⟩ := abs_le.mp h1
  have hn3 : s = 0 ∨ 2 ^ 23 ≤ n := by
    rcases h3 with h3 | h3
    · exact .inl h3
    · right
      by_contra hc
      have hc' : (n : Int) ≤ 2 ^ 23 - 1 := by omega
      have : (n : Int) * (2 ^ s * den) ≤ (2 ^ 23 - 1) * (2 ^ s * den) := mul_le_mul_of_nonneg_right hc' hg.le
      have h3' : ((2 ^ 23 * 2 ^ s * den : Nat) : Int) ≤ num := by exact_mod_cast h3
      push_cast at h3'
      nlinarith
  have habs : |(if sg then (-1 : Int) else 1) * (num : Int)| = num := by cases sg <;> simp
  unfold IsRounded
  rw [habs]
  by_cases hB : 2 ^ 23 * s + n < 255 * 2 ^ 23
  · -- no overflow
    have hlt : (num : Int) < f32Overflow * den := number_below_overflow hd h1 h1' h2 hn3 hB
    rw [if_neg (by linarith)]
    have hmin : min (2 ^ 23 * s + n) f32InfMag = 2 ^ 23 * s + n := min_eq_left (by unfold f32InfMag; omega)
    rw [hmin]
    have hb31 : 2 ^ 23 * s + n < 2 ^ 31 := by omega
    refine ⟨?_, fun x hx => ?_⟩
    · unfold f32IsFinite
      rw [f32Pack_exp _ _ hb31]
      simp only [ne_eq, decide_not, Bool.not_eq_true', decide_eq_false_iff_not]
      omega
    · rw [f32Int_pack sg s n h2 hn3 hB, f32Pack_bit0 _ _ hb31]
      have hpar : decide ((2 ^ 23 * s + n) % 2 = 1) = false ↔ (n : Int) % 2 = 0 := by
        simp only [decide_eq_false_iff_not]; omega
      rw [hpar]
      -- sign
      have hs : ∀ z : Int, |z * den - (if sg then -1 else 1) * (num : Int)| =
          |((if sg then -1 else 1) * z) * den - num| := by
        intro z; cases sg
        · simp
        · simp only [if_true]; rw [← abs_neg]; congr 1; ring
      rw [hs, hs]
      have e1 : ((if sg then (-1 : Int) else 1) * ((if sg then -1 else 1) * ((n : Int) * 2 ^ s))) * den =
          n * (2 ^ s * den) := by
        cases sg <;> simp <;> ring
      rw [e1]
      obtain ⟨X, hX, hXx⟩ : ∃ X : Int, X = (if sg then (-1 : Int) else 1) * f32Int x ∧
          f32Int x = (if sg then (-1 : Int) else 1) * X := ⟨_, rfl, by cases sg <;> simp⟩
      rw [← hX, hXx]
      have hgr : (∃ y : Int, X = y * 2 ^ s) ∨ |X| < 2 ^ 23 * 2 ^ s := by
        rcases f32Int_grid x s with ⟨y, hy⟩ | hy
        · left; rw [hX, hy]; cases sg
          · exact ⟨y, by simp⟩
          · exact ⟨-y, by simp⟩
        · right; rw [hX]; cases sg <;> simpa using hy
      have h1'' : |2 * ((n : Int) * (2 ^ s * den)) - 2 * num| = 2 ^ s * den → (n : Int) % 2 = 0 :=
        fun h => by have := h1' h; omega
      rcases hgr with ⟨y, hy⟩ | hy
      · have := nearest_multiple (2 ^ s * den) num n y hg h1 h1''
        rw [hy, mul_assoc]
        refine ⟨this.1, fun h => (this.2 h).imp (fun h => by rw [h]) id⟩
      · -- off grid, below
        have h3' : (s = 0) ∨ (2 : Int) ^ 23 * (2 ^ s * den) ≤ num := by
          rcases h3 with h | h
          · exact .inl h
          · right
            have : ((2 ^ 23 * 2 ^ s * den : Nat) : Int) ≤ num := by exact_mod_cast h
            push_cast at this; linarith
        rcases h3' with h | h
        · subst h
          have := nearest_multiple (2 ^ 0 * den) num n X hg h1 h1''
          simp only [pow_zero, one_mul, mul_one] at this ⊢
          exact ⟨this.1, fun h => (this.2 h).imp (fun h => by rw [h]) id⟩
        · have hd' : (0 : Int) < den := by exact_mod_cast hd
          have hXlt : X * den < 2 ^ 23 * (2 ^ s * den) := by
            have : X < 2 ^ 23 * 2 ^ s := lt_of_le_of_lt (le_abs_self _) hy
            nlinarith
          have := nearest_multiple (2 ^ s * den) num n (2 ^ 23) hg h1 h1''
          have a1 : |(2 : Int) ^ 23 * (2 ^ s * den) - num| = (num : Int) - 2 ^ 23 * (2 ^ s * den) := by
            rw [abs_sub_comm]; exact abs_of_nonneg (by linarith)
          have a2 : |X * den - num| = (num : Int) - X * den := by
            rw [abs_sub_comm]; exact abs_of_nonneg (by linarith)
          rw [a1] at this
          rw [a2]
          refine ⟨by linarith [this.1], fun h => ?_⟩
          exfalso; linarith [this.1]
  · have hov : f32Overflow * den ≤ num := overflow_reached hd h1 h2 h3 (by omega)
    rw [if_pos hov]
    have hmin : min (2 ^ 23 * s + n) f32InfMag = f32InfMag := min_eq_right (by unfold f32InfMag; omega)
    rw [hmin]
    have hnum : (0 : Int) < num := by
      have : (0 : Int) < f32Overflow * den := by unfold f32Overflow; positivity
      linarith
    cases sg
    · rw [if_neg (by simp)]; decide
    · rw [if_pos (by simp; exact_mod_cast hnum)]; decide

/-- `roundShift` gives the nearest multiple, and an even one at a tie. -/
theorem roundShift_nearest (m sh : Nat) : |2 * ((roundShift m sh : Int) * 2 ^ sh) - 2 * m| ≤ 2 ^ sh ∧
    (|2 * ((roundShift m sh : Int) * 2 ^ sh) - 2 * m| = 2 ^ sh → roundShift m sh % 2 = 0) := by
  have hp : 0 < 2 ^ sh := Nat.two_pow_pos sh
  have hdm := Nat.div_add_mod m (2 ^ sh)
  have hlt := Nat.mod_lt m hp
  unfold roundShift
  dsimp only
  have hdm' : (m : Int) = 2 ^ sh * ((m / 2 ^ sh : Nat) : Int) + ((m % 2 ^ sh : Nat) : Int) := by exact_mod_cast hdm.symm
  rw [hdm']
  have hp' : (0 : Int) < 2 ^ sh := by positivity
  have hlt' : ((m % 2 ^ sh : Nat) : Int) < 2 ^ sh := by exact_mod_cast hlt
  have hpc : ((2 ^ sh : Nat) : Int) = 2 ^ sh := by push_cast; rfl
  generalize m / 2 ^ sh = q at *
  generalize m % 2 ^ sh = r at *
  split
  · rename_i h
    simp only [gt_iff_lt, Bool.or_eq_true, decide_eq_true_eq, Bool.and_eq_true] at h
    have e : 2 * (((q + 1 : Nat) : Int) * 2 ^ sh) - 2 * (2 ^ sh * (q : Int) + r) = 2 * (2 ^ sh) - 2 * r := by
      push_cast; ring
    rw [e]
    rw [abs_of_nonneg (by linarith)]
    have : (2 : Int) ^ sh ≤ 2 * r := by
      rcases h with h | ⟨h, _⟩
      · exact_mod_cast h.le
      · exact_mod_cast h.ge
    refine ⟨by linarith, fun he => ?_⟩
    have h2 : (2 : Int) * r = 2 ^ sh := by linarith
    have h2' : 2 * r = 2 ^ sh := by exact_mod_cast h2
    rcases h with h | ⟨_, h⟩ <;> omega
  · rename_i h
    simp only [gt_iff_lt, Bool.or_eq_true, decide_eq_true_eq, Bool.and_eq_true, not_or, not_lt, not_and] at h
    have e : 2 * ((q : Int) * 2 ^ sh) - 2 * (2 ^ sh * (q : Int) + r) = - (2 * r) := by ring
    rw [e, abs_neg, abs_of_nonneg (by positivity)]
    refine ⟨by exact_mod_cast h.1, fun he => ?_⟩
    have := h.2 (by exact_mod_cast he)
    omega

theorem bitLength_lt (m : Nat) : m < 2 ^ bitLength m := by
  unfold bitLength; split
  · subst m; simp
  · exact Nat.lt_log2_self

theorem bitLength_le (m : Nat) (h : 0 < bitLength m) : 2 ^ (bitLength m - 1) ≤ m := by
  unfold bitLength at *; split
  · simp_all
  · rw [Nat.add_sub_cancel]; exact Nat.log2_self_le (by assumption)

/-- A rounded significand has at most 24 bits, or is the next power of two. -/
theorem roundShift_le (m sh : Nat) (h : bitLength m - 24 ≤ sh) : roundShift m sh ≤ 2 ^ 24 := by
  have h1 : m < 2 ^ sh * 2 ^ 24 := by
    rw [← pow_add]
    exact lt_of_lt_of_le (bitLength_lt m) (Nat.pow_le_pow_right (by decide) (by omega))
  have h2 : m / 2 ^ sh < 2 ^ 24 := Nat.div_lt_of_lt_mul h1
  unfold roundShift; dsimp only; split <;> omega

/-- `f32Round`, packed with a sign, is `m / 2^k` rounded as IEEE 754 rounds it. -/
theorem f32Round_isRounded (sg : Bool) (m k : Nat) :
    IsRounded (f32Pack sg (f32Round m k)) ((if sg then -1 else 1) * (m : Int)) (2 ^ k) := by
  unfold f32Round
  dsimp only
  generalize hsh : max (bitLength m - 24) k = sh
  have hk : k ≤ sh := by omega
  have hb : bitLength m - 24 ≤ sh := by omega
  have := roundShift_nearest m sh
  have e : (2 : Int) ^ (sh - k) * ((2 ^ k : Nat) : Int) = 2 ^ sh := by push_cast; rw [← pow_add]; congr 1; omega
  refine isRounded_of_nearest sg m (2 ^ k) (sh - k) _ (Nat.two_pow_pos k) (by rw [e]; exact this.1)
    (by rw [e]; exact this.2) (roundShift_le _ _ hb) ?_
  by_cases h : sh - k = 0
  · exact .inl h
  · right
    rw [mul_assoc, ← pow_add, ← pow_add]
    exact le_trans (Nat.pow_le_pow_right (by decide) (by omega)) (bitLength_le m (by omega))

/-- Z is set exactly for the bits of +0.0 and -0.0 (43_fpu.md R201). -/
theorem f32IsZero_iff (r : Acc) : f32IsZero r = decide (r = 0x00000000#32 ∨ r = 0x80000000#32) := by
  rw [Bool.eq_iff_iff]
  simp only [f32IsZero, f32Exp_eq, f32Frac_eq, Bool.and_eq_true, decide_eq_true_eq, ← BitVec.toNat_inj,
    BitVec.toNat_ofNat]
  have := r.isLt
  omega

/-- N is set exactly for the bits past -0.0 up to minus infinity: not for -0.0, and for no NaN (R201). -/
theorem f32IsNegative_iff (r : Acc) : f32IsNegative r = decide (0x80000000#32 < r ∧ r ≤ 0xFF800000#32) := by
  rw [Bool.eq_iff_iff]
  simp only [f32IsNegative, f32IsNaN, f32IsZero, f32Sign_eq, f32Exp_eq, f32Frac_eq, Bool.and_eq_true, Bool.not_eq_true',
    Bool.and_eq_false_iff, decide_eq_true_eq, decide_eq_false_iff_not, BitVec.lt_def, BitVec.le_def, BitVec.toNat_ofNat]
  have := r.isLt
  omega

/-- The free value of a NaN result is a NaN, whatever it is (R202; log entry 8). -/
theorem fnan_isNaN (op : FloatOp) (a b : Acc) : f32IsNaN (fnan op a b) = true := by
  unfold fnan
  dsimp only
  split
  · assumption
  · generalize Config.fnanBits op a b = x
    have h1 : (x ||| 0x7FC00000#32).extractLsb' 23 8 = 255#8 := by
      apply BitVec.eq_of_getLsbD_eq
      intro i hi
      interval_cases i <;> simp
    have h2 : ((x ||| 0x7FC00000#32).extractLsb' 0 23).getLsbD 22 = true := by simp
    have h3 : f32Frac (x ||| 0x7FC00000#32) ≠ 0 := by
      intro h
      rw [f32Frac] at h
      rw [BitVec.getLsbD, h] at h2
      simp at h2
    simp [f32IsNaN, f32Exp, h1, h3]

end Sys2Proof.Machine
end

