-- ==== Sys2Proof/Laws/Memory.lean ====
section
/-!
SUPPORT. The laws of the memory buffer: what a read after a write gives, and that every operation keeps the canonical
form.
-/

namespace Sys2Proof.Machine

theorem Memory.read_erase (m : Memory) (x y : Nat) : (m.erase x).read y = if x = y then memFill else m.read y := by
  induction m with
  | nil => simp [Memory.erase, Memory.read]
  | cons p m ih =>
    obtain ⟨a, b⟩ := p
    by_cases hax : a = x
    · subst hax
      by_cases hay : a = y <;> simp_all [Memory.erase, Memory.read]
    · by_cases hay : a = y
      · subst hay
        simp [Memory.erase, Memory.read, hax, Ne.symm hax]
      · simp [Memory.erase, Memory.read, hax, hay, ih]

theorem Memory.erase_ne {m : Memory} {x : Nat} {p : Host.Cell} (h : p ∈ m.erase x) : p.1 ≠ x ∧ p ∈ m := by
  induction m with
  | nil => simp [Memory.erase] at h
  | cons q m ih =>
    obtain ⟨a, b⟩ := q
    by_cases hax : a = x
    · simp only [Memory.erase, hax, if_true] at h
      exact ⟨(ih h).1, List.mem_cons_of_mem _ (ih h).2⟩
    · simp only [Memory.erase, hax, if_false, List.mem_cons] at h
      rcases h with rfl | h
      · exact ⟨hax, List.mem_cons_self⟩
      · exact ⟨(ih h).1, List.mem_cons_of_mem _ (ih h).2⟩

theorem Memory.read_insert {m : Memory} {x : Nat} (v : Byte) (h : ∀ p ∈ m, p.1 ≠ x) (y : Nat) :
    (m.insert x v).read y = if x = y then v else m.read y := by
  induction m with
  | nil => simp [Memory.insert, Memory.read]
  | cons q m ih =>
    obtain ⟨a, b⟩ := q
    have hax : a ≠ x := h (a, b) List.mem_cons_self
    have ih := ih fun p hp => h p (List.mem_cons_of_mem _ hp)
    by_cases hlt : x < a
    · simp [Memory.insert, Memory.read, hlt]
    · by_cases hay : a = y
      · subst hay
        simp [Memory.insert, Memory.read, hlt, Ne.symm hax]
      · simp [Memory.insert, Memory.read, hlt, hay, ih]

theorem Memory.mem_insert {m : Memory} {x : Nat} {v : Byte} {p : Host.Cell} (h : p ∈ m.insert x v) :
    p = (x, v) ∨ p ∈ m := by
  induction m with
  | nil => simpa [Memory.insert] using h
  | cons q m ih =>
    obtain ⟨a, b⟩ := q
    by_cases hlt : x < a
    · simpa [Memory.insert, hlt] using h
    · simp only [Memory.insert, hlt, if_false, List.mem_cons] at h
      rcases h with rfl | h
      · exact .inr List.mem_cons_self
      · exact (ih h).imp_right (List.mem_cons_of_mem _)

/-- A read after a write gives the byte written, and every other address as before, in every memory. -/
@[simp] theorem Memory.read_write (m : Memory) (x : Nat) (v : Byte) (y : Nat) :
    (m.write x v).read y = if x = y then v else m.read y := by
  unfold Memory.write
  split
  · rename_i hv
    rw [Memory.read_erase, hv]
  · rw [Memory.read_insert v (fun p hp => (Memory.erase_ne hp).1), Memory.read_erase]
    split <;> rfl

theorem Memory.mem_write {m : Memory} {x : Nat} {v : Byte} {p : Host.Cell} (h : p ∈ m.write x v) :
    p = (x, v) ∨ p ∈ m := by
  unfold Memory.write at h
  split at h
  · exact .inr (Memory.erase_ne h).2
  · exact (Memory.mem_insert h).imp_right fun h => (Memory.erase_ne h).2

@[simp] theorem Memory.readBytes_length (m : Memory) (a n : Nat) : (m.readBytes a n).length = n := by
  induction n generalizing a with
  | zero => rfl
  | succ n ih => simp [Memory.readBytes, ih]

theorem Memory.readBytes_getElem? (m : Memory) (a n i : Nat) :
    (m.readBytes a n)[i]? = if i < n then some (m.read (a + i)) else none := by
  induction n generalizing a i with
  | zero => simp [Memory.readBytes]
  | succ n ih =>
    cases i with
    | zero => simp [Memory.readBytes]
    | succ i => simp [Memory.readBytes, ih, Nat.add_assoc, Nat.add_comm 1 i]

theorem Memory.readBytes_getD (m : Memory) (a n i : Nat) (h : i < n) (d : Byte) :
    (m.readBytes a n).getD i d = m.read (a + i) := by
  rw [List.getD_eq_getElem?_getD, Memory.readBytes_getElem?, if_pos h, Option.getD_some]

/-- Two memories that agree on a range give the same bytes of it. -/
theorem Memory.readBytes_congr {m m' : Memory} {a n : Nat} (h : ∀ i < n, m.read (a + i) = m'.read (a + i)) :
    m.readBytes a n = m'.readBytes a n := by
  apply List.ext_getElem?
  intro i
  simp only [Memory.readBytes_getElem?]
  split
  · rename_i hi
    rw [h i hi]
  · rfl

theorem Memory.readBytes_append (m : Memory) (a n k : Nat) :
    m.readBytes a (n + k) = m.readBytes a n ++ m.readBytes (a + n) k := by
  induction n generalizing a with
  | zero => simp [Memory.readBytes]
  | succ n ih => simp [Nat.add_right_comm n 1 k, Memory.readBytes, ih, Nat.add_right_comm a 1 n, Nat.add_assoc]

theorem Memory.readBytes_take (m : Memory) (a n k : Nat) : (m.readBytes a (n + k)).take n = m.readBytes a n := by
  simp [Memory.readBytes_append]

theorem Memory.readBytes_drop (m : Memory) (a n k : Nat) :
    (m.readBytes a (n + k)).drop n = m.readBytes (a + n) k := by
  simp [Memory.readBytes_append]

/-- What a read gives after a list of bytes was written: the byte written there, or the byte that was there. -/
theorem Memory.read_writeBytes (m : Memory) (a : Nat) (bs : List Byte) (y : Nat) :
    (m.writeBytes a bs).read y = if a ≤ y ∧ y < a + bs.length then bs.getD (y - a) 0 else m.read y := by
  induction bs generalizing m a with
  | nil =>
    rw [Memory.writeBytes, if_neg]
    simp only [List.length_nil]
    omega
  | cons b bs ih =>
    rw [Memory.writeBytes, ih, Memory.read_write]
    by_cases hay : a = y
    · subst hay
      simp
    · by_cases h1 : a + 1 ≤ y ∧ y < a + 1 + bs.length
      · have h2 : a ≤ y ∧ y < a + (b :: bs).length := by simp; omega
        have h3 : y - a = (y - (a + 1)) + 1 := by omega
        rw [if_pos h1, if_pos h2, h3, List.getD_cons_succ]
      · have h2 : ¬(a ≤ y ∧ y < a + (b :: bs).length) := by simp; omega
        rw [if_neg h1, if_neg h2, if_neg hay]

theorem Memory.read_writeBytes_outside (m : Memory) {a : Nat} {bs : List Byte} {y : Nat}
    (h : ¬(a ≤ y ∧ y < a + bs.length)) : (m.writeBytes a bs).read y = m.read y := by
  rw [Memory.read_writeBytes, if_neg h]

/-- The bytes written are the bytes read back. -/
@[simp] theorem Memory.readBytes_writeBytes (m : Memory) (a : Nat) (bs : List Byte) :
    (m.writeBytes a bs).readBytes a bs.length = bs := by
  apply List.ext_getElem?
  intro i
  rw [Memory.readBytes_getElem?]
  split
  · rename_i hi
    rw [Memory.read_writeBytes, if_pos ⟨Nat.le_add_right a i, by omega⟩]
    simp [List.getD_eq_getElem?_getD, hi]
  · rename_i hi
    simp [Nat.le_of_not_lt hi]

/-- Bytes outside those written are read back as before. -/
theorem Memory.readBytes_writeBytes_outside (m : Memory) {a : Nat} {bs : List Byte} {x n : Nat}
    (h : x + n ≤ a ∨ a + bs.length ≤ x) : (m.writeBytes a bs).readBytes x n = m.readBytes x n :=
  Memory.readBytes_congr fun i hi => m.read_writeBytes_outside (by omega)

theorem Memory.mem_writeBytes {m : Memory} {a : Nat} {bs : List Byte} {p : Host.Cell} (h : p ∈ m.writeBytes a bs) :
    p.1 < a + bs.length ∨ p ∈ m := by
  induction bs generalizing m a with
  | nil => exact .inr h
  | cons b bs ih =>
    rw [Memory.writeBytes] at h
    rcases ih h with h | h
    · left
      simp only [List.length_cons]
      omega
    · rcases Memory.mem_write h with rfl | h
      · left
        simp only [List.length_cons]
        omega
      · exact .inr h

theorem Memory.wf_nil : Memory.wf [] := by decide

theorem Memory.wf_erase {m : Memory} (h : m.wf) (x : Nat) : (m.erase x).wf := by
  refine ⟨?_, fun p hp => h.2 p (Memory.erase_ne hp).2⟩
  have hs := h.1
  clear h
  induction m with
  | nil => simp [Memory.erase]
  | cons q m ih =>
    obtain ⟨a, b⟩ := q
    rw [List.pairwise_cons] at hs
    by_cases hax : a = x
    · simpa [Memory.erase, hax] using ih hs.2
    · simp only [Memory.erase, hax, if_false, List.pairwise_cons]
      exact ⟨fun p hp => hs.1 p (Memory.erase_ne hp).2, ih hs.2⟩

theorem Memory.wf_insert {m : Memory} (h : m.wf) {x : Nat} {v : Byte} (hv : v ≠ memFill) (hx : ∀ p ∈ m, p.1 ≠ x) :
    (m.insert x v).wf := by
  refine ⟨?_, ?_⟩
  · have hs := h.1
    clear h
    induction m with
    | nil => simp [Memory.insert]
    | cons q m ih =>
      obtain ⟨a, b⟩ := q
      have hax : a ≠ x := hx (a, b) List.mem_cons_self
      rw [List.pairwise_cons] at hs
      by_cases hlt : x < a
      · simp only [Memory.insert, hlt, if_true, List.pairwise_cons, List.mem_cons]
        refine ⟨?_, hs⟩
        rintro p (rfl | hp)
        · exact hlt
        · exact Nat.lt_trans hlt (hs.1 p hp)
      · simp only [Memory.insert, hlt, if_false, List.pairwise_cons]
        refine ⟨?_, ih (fun p hp => hx p (List.mem_cons_of_mem _ hp)) hs.2⟩
        intro p hp
        rcases Memory.mem_insert hp with rfl | hp
        · show a < x
          omega
        · exact hs.1 p hp
  · intro p hp
    rcases Memory.mem_insert hp with rfl | hp
    · exact hv
    · exact h.2 p hp

/-- A write keeps the canonical form. -/
theorem Memory.wf_write {m : Memory} (h : m.wf) (x : Nat) (v : Byte) : (m.write x v).wf := by
  unfold Memory.write
  split
  · exact Memory.wf_erase h x
  · rename_i hv
    exact Memory.wf_insert (Memory.wf_erase h x) hv fun p hp => (Memory.erase_ne hp).1

/-- Writing a list of bytes keeps the canonical form. -/
theorem Memory.wf_writeBytes {m : Memory} (h : m.wf) (a : Nat) (bs : List Byte) : (m.writeBytes a bs).wf := by
  induction bs generalizing m a with
  | nil => exact h
  | cons b bs ih => exact ih (Memory.wf_write h a b) (a + 1)

end Sys2Proof.Machine
end

