-- ==== Sys2Proof/Laws/State.lean ====
section
/-!
SUPPORT. One lemma per field per update of the state, true by definition, so that no proof unfolds a record update.
-/

namespace Sys2Proof.Machine

variable (s : State)

@[simp] theorem State.withMem_mem (m : Memory) : (s.withMem m).mem = m := rfl
@[simp] theorem State.withMem_ip (m : Memory) : (s.withMem m).ip = s.ip := rfl
@[simp] theorem State.withMem_sp (m : Memory) : (s.withMem m).sp = s.sp := rfl
@[simp] theorem State.withMem_flags (m : Memory) : (s.withMem m).flags = s.flags := rfl
@[simp] theorem State.withMem_memSize (m : Memory) : (s.withMem m).memSize = s.memSize := rfl
@[simp] theorem State.withMem_sp0 (m : Memory) : (s.withMem m).sp0 = s.sp0 := rfl
@[simp] theorem State.withMem_cfg (m : Memory) : (s.withMem m).cfg = s.cfg := rfl
@[simp] theorem State.withMem_status (m : Memory) : (s.withMem m).status = s.status := rfl

@[simp] theorem State.withSp_mem (x : Addr) : (s.withSp x).mem = s.mem := rfl
@[simp] theorem State.withSp_ip (x : Addr) : (s.withSp x).ip = s.ip := rfl
@[simp] theorem State.withSp_sp (x : Addr) : (s.withSp x).sp = x := rfl
@[simp] theorem State.withSp_flags (x : Addr) : (s.withSp x).flags = s.flags := rfl
@[simp] theorem State.withSp_memSize (x : Addr) : (s.withSp x).memSize = s.memSize := rfl
@[simp] theorem State.withSp_sp0 (x : Addr) : (s.withSp x).sp0 = s.sp0 := rfl
@[simp] theorem State.withSp_cfg (x : Addr) : (s.withSp x).cfg = s.cfg := rfl
@[simp] theorem State.withSp_status (x : Addr) : (s.withSp x).status = s.status := rfl

@[simp] theorem State.withFlags_mem (f : BitVec 8) : (s.withFlags f).mem = s.mem := rfl
@[simp] theorem State.withFlags_ip (f : BitVec 8) : (s.withFlags f).ip = s.ip := rfl
@[simp] theorem State.withFlags_sp (f : BitVec 8) : (s.withFlags f).sp = s.sp := rfl
@[simp] theorem State.withFlags_flags (f : BitVec 8) : (s.withFlags f).flags = f := rfl
@[simp] theorem State.withFlags_memSize (f : BitVec 8) : (s.withFlags f).memSize = s.memSize := rfl
@[simp] theorem State.withFlags_sp0 (f : BitVec 8) : (s.withFlags f).sp0 = s.sp0 := rfl
@[simp] theorem State.withFlags_cfg (f : BitVec 8) : (s.withFlags f).cfg = s.cfg := rfl
@[simp] theorem State.withFlags_status (f : BitVec 8) : (s.withFlags f).status = s.status := rfl

@[simp] theorem State.withCfg_mem (c : Config) : (s.withCfg c).mem = s.mem := rfl
@[simp] theorem State.withCfg_ip (c : Config) : (s.withCfg c).ip = s.ip := rfl
@[simp] theorem State.withCfg_sp (c : Config) : (s.withCfg c).sp = s.sp := rfl
@[simp] theorem State.withCfg_flags (c : Config) : (s.withCfg c).flags = s.flags := rfl
@[simp] theorem State.withCfg_memSize (c : Config) : (s.withCfg c).memSize = s.memSize := rfl
@[simp] theorem State.withCfg_sp0 (c : Config) : (s.withCfg c).sp0 = s.sp0 := rfl
@[simp] theorem State.withCfg_cfg (c : Config) : (s.withCfg c).cfg = c := rfl
@[simp] theorem State.withCfg_status (c : Config) : (s.withCfg c).status = s.status := rfl

@[simp] theorem State.finish_mem (x : Addr) (k : Status) : (s.finish x k).mem = s.mem := rfl
@[simp] theorem State.finish_ip (x : Addr) (k : Status) : (s.finish x k).ip = x := rfl
@[simp] theorem State.finish_sp (x : Addr) (k : Status) : (s.finish x k).sp = s.sp := rfl
@[simp] theorem State.finish_flags (x : Addr) (k : Status) : (s.finish x k).flags = s.flags := rfl
@[simp] theorem State.finish_memSize (x : Addr) (k : Status) : (s.finish x k).memSize = s.memSize := rfl
@[simp] theorem State.finish_sp0 (x : Addr) (k : Status) : (s.finish x k).sp0 = s.sp0 := rfl
@[simp] theorem State.finish_cfg (x : Addr) (k : Status) : (s.finish x k).cfg = s.cfg := rfl
@[simp] theorem State.finish_status (x : Addr) (k : Status) : (s.finish x k).status = k := rfl

@[simp] theorem State.continueAt_mem (x : Addr) : (s.continueAt x).mem = s.mem := rfl
@[simp] theorem State.continueAt_ip (x : Addr) : (s.continueAt x).ip = x := rfl
@[simp] theorem State.continueAt_sp (x : Addr) : (s.continueAt x).sp = s.sp := rfl
@[simp] theorem State.continueAt_flags (x : Addr) : (s.continueAt x).flags = s.flags := rfl
@[simp] theorem State.continueAt_memSize (x : Addr) : (s.continueAt x).memSize = s.memSize := rfl
@[simp] theorem State.continueAt_sp0 (x : Addr) : (s.continueAt x).sp0 = s.sp0 := rfl
@[simp] theorem State.continueAt_cfg (x : Addr) : (s.continueAt x).cfg = s.cfg := rfl
@[simp] theorem State.continueAt_status (x : Addr) : (s.continueAt x).status = .continuing := rfl

@[simp] theorem State.setZN_mem (z n : Bool) : (s.setZN z n).mem = s.mem := rfl
@[simp] theorem State.setZN_ip (z n : Bool) : (s.setZN z n).ip = s.ip := rfl
@[simp] theorem State.setZN_sp (z n : Bool) : (s.setZN z n).sp = s.sp := rfl
@[simp] theorem State.setZN_flags (z n : Bool) : (s.setZN z n).flags = (s.flags &&& 0xFC#8) ||| flagsOf z n := rfl
@[simp] theorem State.setZN_memSize (z n : Bool) : (s.setZN z n).memSize = s.memSize := rfl
@[simp] theorem State.setZN_sp0 (z n : Bool) : (s.setZN z n).sp0 = s.sp0 := rfl
@[simp] theorem State.setZN_cfg (z n : Bool) : (s.setZN z n).cfg = s.cfg := rfl
@[simp] theorem State.setZN_status (z n : Bool) : (s.setZN z n).status = s.status := rfl

@[simp] theorem State.setIntFlags_mem (w : Width) (r : Value) : (s.setIntFlags w r).mem = s.mem := rfl
@[simp] theorem State.setIntFlags_ip (w : Width) (r : Value) : (s.setIntFlags w r).ip = s.ip := rfl
@[simp] theorem State.setIntFlags_sp (w : Width) (r : Value) : (s.setIntFlags w r).sp = s.sp := rfl
@[simp] theorem State.setIntFlags_flags (w : Width) (r : Value) : (s.setIntFlags w r).flags = (s.flags &&& 0xFC#8) ||| flagsOf (decide (r = 0)) (signBit w r) := rfl
@[simp] theorem State.setIntFlags_memSize (w : Width) (r : Value) : (s.setIntFlags w r).memSize = s.memSize := rfl
@[simp] theorem State.setIntFlags_sp0 (w : Width) (r : Value) : (s.setIntFlags w r).sp0 = s.sp0 := rfl
@[simp] theorem State.setIntFlags_cfg (w : Width) (r : Value) : (s.setIntFlags w r).cfg = s.cfg := rfl
@[simp] theorem State.setIntFlags_status (w : Width) (r : Value) : (s.setIntFlags w r).status = s.status := rfl

@[simp] theorem State.setFloatFlags_mem (r : Acc) : (s.setFloatFlags r).mem = s.mem := rfl
@[simp] theorem State.setFloatFlags_ip (r : Acc) : (s.setFloatFlags r).ip = s.ip := rfl
@[simp] theorem State.setFloatFlags_sp (r : Acc) : (s.setFloatFlags r).sp = s.sp := rfl
@[simp] theorem State.setFloatFlags_flags (r : Acc) : (s.setFloatFlags r).flags = (s.flags &&& 0xFC#8) ||| flagsOf (f32IsZero r) (f32IsNegative r) := rfl
@[simp] theorem State.setFloatFlags_memSize (r : Acc) : (s.setFloatFlags r).memSize = s.memSize := rfl
@[simp] theorem State.setFloatFlags_sp0 (r : Acc) : (s.setFloatFlags r).sp0 = s.sp0 := rfl
@[simp] theorem State.setFloatFlags_cfg (r : Acc) : (s.setFloatFlags r).cfg = s.cfg := rfl
@[simp] theorem State.setFloatFlags_status (r : Acc) : (s.setFloatFlags r).status = s.status := rfl

@[simp] theorem State.readByte_eq (a : Nat) : s.readByte a = s.mem.read a := rfl

/-- Two states with equal fields are equal. -/
theorem State.eq_of_fields {s t : State} (mem : s.mem = t.mem) (ip : s.ip = t.ip) (sp : s.sp = t.sp)
    (flags : s.flags = t.flags) (memSize : s.memSize = t.memSize) (sp0 : s.sp0 = t.sp0) (cfg : s.cfg = t.cfg)
    (status : s.status = t.status) : s = t := by
  cases s; cases t; simp_all

theorem flagsOf_bit0 (z n : Bool) : (flagsOf z n).getLsbD 0 = z := by cases z <;> cases n <;> rfl

theorem flagsOf_bit1 (z n : Bool) : (flagsOf z n).getLsbD 1 = n := by cases z <;> cases n <;> rfl

@[simp] theorem State.setZN_z (z n : Bool) : (s.setZN z n).z = z := by
  rw [State.z, State.setZN_flags, BitVec.getLsbD_or, flagsOf_bit0]; simp

@[simp] theorem State.setZN_n (z n : Bool) : (s.setZN z n).n = n := by
  rw [State.n, State.setZN_flags, BitVec.getLsbD_or, flagsOf_bit1]; simp

@[simp] theorem State.setIntFlags_z (w : Width) (r : Value) : (s.setIntFlags w r).z = decide (r = 0) :=
  s.setZN_z _ _

@[simp] theorem State.setIntFlags_n (w : Width) (r : Value) : (s.setIntFlags w r).n = signBit w r :=
  s.setZN_n _ _

@[simp] theorem State.setFloatFlags_z (r : Acc) : (s.setFloatFlags r).z = f32IsZero r := s.setZN_z _ _

@[simp] theorem State.setFloatFlags_n (r : Acc) : (s.setFloatFlags r).n = f32IsNegative r := s.setZN_n _ _

/-- The flag writers leave the reserved bits 7:2 as they are (10_state.md R38). -/
theorem State.setZN_reserved (z n : Bool) : (s.setZN z n).flags.extractLsb' 2 6 = s.flags.extractLsb' 2 6 := by
  cases z <;> cases n <;> simp only [State.setZN_flags, flagsOf] <;> ext i hi <;> interval_cases i <;> simp

end Sys2Proof.Machine
end

