-- ==== Sys2Proof/Laws/Ops.lean ====
section
/-!
SUPPORT. What each shared operation does: for each, the equation it follows when its checks pass, and the lemma that
says once everything it can do.
-/

namespace Sys2Proof.Machine

/-! ## Sequencing -/

@[simp] theorem bind_ok {α β : Type} (a : α) (f : α → Except Fault β) : ((Except.ok a : Except Fault α) >>= f) = f a :=
  rfl

@[simp] theorem bind_error {α β : Type} (e : Fault) (f : α → Except Fault β) :
    ((Except.error e : Except Fault α) >>= f) = .error e := rfl

theorem bind_eq_ok {α β : Type} {x : Except Fault α} {f : α → Except Fault β} {b : β} :
    (x >>= f) = .ok b ↔ ∃ a, x = .ok a ∧ f a = .ok b := by
  cases x <;> simp

theorem bind_eq_error {α β : Type} {x : Except Fault α} {f : α → Except Fault β} {e : Fault} :
    (x >>= f) = .error e ↔ x = .error e ∨ ∃ a, x = .ok a ∧ f a = .error e := by
  cases x <;> simp

@[simp] theorem endStep_ok (s : State) : endStep (.ok s) = .next s := rfl

@[simp] theorem endStep_error (f : Fault) : endStep (.error f) = .fault f := rfl

theorem endStep_eq_next {x : Except Fault State} {t : State} : endStep x = .next t ↔ x = .ok t := by
  cases x <;> simp

theorem endStep_eq_fault {x : Except Fault State} {f : Fault} : endStep x = .fault f ↔ x = .error f := by
  cases x <;> simp

/-- No instruction that ends with `endStep` is refused. -/
theorem endStep_ne_refused {x : Except Fault State} {r : Refusal} : endStep x ≠ .refused r := by
  cases x <;> simp

/-! ## Addresses -/

theorem toNat_sub_bytes {sp : Addr} {n : Nat} (h : n ≤ sp.toNat) : (sp - BitVec.ofNat 16 n).toNat = sp.toNat - n := by
  have := sp.isLt
  rw [BitVec.toNat_sub, BitVec.toNat_ofNat, Nat.mod_eq_of_lt (a := n) (by omega)]
  omega

theorem toNat_add_bytes {sp : Addr} {n : Nat} (h : sp.toNat + n < 2 ^ 16) :
    (sp + BitVec.ofNat 16 n).toNat = sp.toNat + n := by
  rw [BitVec.toNat_add, BitVec.toNat_ofNat, Nat.mod_eq_of_lt (a := n) (by omega), Nat.mod_eq_of_lt h]

/-! ## Ranges -/

theorem readRange_eq_ok {a : Addr} {n : Nat} {s : State} {bs : List Byte} :
    readRange a n s = .ok bs ↔ a.toNat + n ≤ s.memSize ∧ bs = s.mem.readBytes a.toNat n := by
  unfold readRange
  split <;> simp_all [eq_comm]

theorem writeRange_eq_ok {a : Addr} {bs : List Byte} {s t : State} :
    writeRange a bs s = .ok t ↔
      a.toNat + bs.length ≤ s.memSize ∧ t = s.withMem (s.mem.writeBytes a.toNat bs) := by
  unfold writeRange
  split <;> simp_all [eq_comm]

theorem readRange_error {a : Addr} {n : Nat} {s : State} {f : Fault} (h : readRange a n s = .error f) :
    f = .boundsViolation := by
  unfold readRange at h
  split at h <;> simp_all

theorem writeRange_error {a : Addr} {bs : List Byte} {s : State} {f : Fault} (h : writeRange a bs s = .error f) :
    f = .boundsViolation := by
  unfold writeRange at h
  split at h <;> simp_all

/-! ## MemRead and MemWrite -/

/-- MemRead in bounds (20_memory.md R63). -/
theorem memRead_of_inBounds {a : Addr} {w : Width} {s : State} (h : a.toNat + w.bytes ≤ s.memSize) :
    memRead a w s = .ok (s.valueAt a.toNat w) := by
  simp [memRead, readRange, h, State.valueAt]

theorem memRead_of_outOfBounds {a : Addr} {w : Width} {s : State} (h : s.memSize < a.toNat + w.bytes) :
    memRead a w s = .error .boundsViolation := by
  simp [memRead, readRange, Nat.not_le_of_lt h]

theorem memRead_eq_ok {a : Addr} {w : Width} {s : State} {v : Value} :
    memRead a w s = .ok v ↔ a.toNat + w.bytes ≤ s.memSize ∧ v = s.valueAt a.toNat w := by
  by_cases h : a.toNat + w.bytes ≤ s.memSize
  · simp [memRead_of_inBounds h, h, eq_comm]
  · simp [memRead_of_outOfBounds (Nat.lt_of_not_le h), h]

theorem memRead_error {a : Addr} {w : Width} {s : State} {f : Fault} (h : memRead a w s = .error f) :
    f = .boundsViolation := by
  by_cases hb : a.toNat + w.bytes ≤ s.memSize
  · simp [memRead_of_inBounds hb] at h
  · simpa [memRead_of_outOfBounds (Nat.lt_of_not_le hb), eq_comm] using h

/-- MemWrite in bounds (20_memory.md R64). -/
theorem memWrite_of_inBounds {a : Addr} {w : Width} {v : Value} {s : State} (h : a.toNat + w.bytes ≤ s.memSize) :
    memWrite a w v s = .ok (s.withMem (s.mem.writeBytes a.toNat (leBytes w.bytes v))) := by
  simp [memWrite, writeRange, h]

theorem memWrite_of_outOfBounds {a : Addr} {w : Width} {v : Value} {s : State} (h : s.memSize < a.toNat + w.bytes) :
    memWrite a w v s = .error .boundsViolation := by
  simp [memWrite, writeRange, Nat.not_le_of_lt h]

theorem memWrite_eq_ok {a : Addr} {w : Width} {v : Value} {s t : State} :
    memWrite a w v s = .ok t ↔
      a.toNat + w.bytes ≤ s.memSize ∧ t = s.withMem (s.mem.writeBytes a.toNat (leBytes w.bytes v)) := by
  simp [memWrite, writeRange_eq_ok]

theorem memWrite_error {a : Addr} {w : Width} {v : Value} {s : State} {f : Fault} (h : memWrite a w v s = .error f) :
    f = .boundsViolation := writeRange_error h

/-! ## The stack engine -/

/-- The state after a push (20_memory.md R68). -/
def afterPush (w : Width) (v : Value) (s : State) : State :=
  (s.withSp (s.sp - BitVec.ofNat 16 w.bytes)).withMem (s.mem.writeBytes (s.sp.toNat - w.bytes) (leBytes w.bytes v))

/-- The state after a pop (20_memory.md R69). -/
def afterPop (w : Width) (s : State) : State := s.withSp (s.sp + BitVec.ofNat 16 w.bytes)

section
variable (w : Width) (v : Value) (s : State)
@[simp] theorem afterPush_mem :
    (afterPush w v s).mem = s.mem.writeBytes (s.sp.toNat - w.bytes) (leBytes w.bytes v) := rfl
@[simp] theorem afterPush_ip : (afterPush w v s).ip = s.ip := rfl
@[simp] theorem afterPush_sp : (afterPush w v s).sp = s.sp - BitVec.ofNat 16 w.bytes := rfl
@[simp] theorem afterPush_flags : (afterPush w v s).flags = s.flags := rfl
@[simp] theorem afterPush_memSize : (afterPush w v s).memSize = s.memSize := rfl
@[simp] theorem afterPush_sp0 : (afterPush w v s).sp0 = s.sp0 := rfl
@[simp] theorem afterPush_cfg : (afterPush w v s).cfg = s.cfg := rfl
@[simp] theorem afterPush_status : (afterPush w v s).status = s.status := rfl
@[simp] theorem afterPop_mem : (afterPop w s).mem = s.mem := rfl
@[simp] theorem afterPop_ip : (afterPop w s).ip = s.ip := rfl
@[simp] theorem afterPop_sp : (afterPop w s).sp = s.sp + BitVec.ofNat 16 w.bytes := rfl
@[simp] theorem afterPop_flags : (afterPop w s).flags = s.flags := rfl
@[simp] theorem afterPop_memSize : (afterPop w s).memSize = s.memSize := rfl
@[simp] theorem afterPop_sp0 : (afterPop w s).sp0 = s.sp0 := rfl
@[simp] theorem afterPop_cfg : (afterPop w s).cfg = s.cfg := rfl
@[simp] theorem afterPop_status : (afterPop w s).status = s.status := rfl
end

/-- Everything a push can do when it answers (20_memory.md R68). -/
theorem push_eq_ok {w : Width} {v : Value} {s t : State} :
    push w v s = .ok t ↔ w.bytes ≤ s.sp.toNat ∧ s.sp.toNat ≤ s.memSize ∧ t = afterPush w v s := by
  unfold push
  split
  · rename_i h
    simp only [reduceCtorEq, false_iff]
    omega
  · rename_i h
    have hw : w.bytes ≤ s.sp.toNat := Nat.le_of_not_lt h
    have : s.sp.toNat - w.bytes + w.bytes = s.sp.toNat := Nat.sub_add_cancel hw
    simp only [memWrite_eq_ok, toNat_sub_bytes hw, State.withSp_memSize, State.withSp_mem, this, hw, true_and]
    rfl

/-- A push with room for it (20_memory.md R68). -/
theorem push_of_fits {w : Width} {v : Value} {s : State} (h1 : w.bytes ≤ s.sp.toNat) (h2 : s.sp.toNat ≤ s.memSize) :
    push w v s = .ok (afterPush w v s) := push_eq_ok.mpr ⟨h1, h2, rfl⟩

theorem push_of_no_room {w : Width} {v : Value} {s : State} (h : s.sp.toNat < w.bytes) :
    push w v s = .error .boundsViolation := by
  simp [push, h]

theorem push_error {w : Width} {v : Value} {s : State} {f : Fault} (h : push w v s = .error f) :
    f = .boundsViolation := by
  unfold push at h
  split at h
  · simpa [eq_comm] using h
  · exact memWrite_error h

/-- Everything a pop can do when it answers (20_memory.md R69). -/
theorem pop_eq_ok {w : Width} {s : State} {r : Value × State} :
    pop w s = .ok r ↔
      s.sp.toNat + w.bytes ≤ s.sp0.toNat ∧ s.sp.toNat + w.bytes ≤ s.memSize ∧
        r = (s.valueAt s.sp.toNat w, afterPop w s) := by
  unfold pop
  split
  · rename_i h
    simp only [bind_eq_ok, memRead_eq_ok, h, true_and]
    constructor
    · rintro ⟨v, ⟨h2, rfl⟩, h3⟩
      exact ⟨h2, by simpa [eq_comm, afterPop] using h3⟩
    · rintro ⟨h2, rfl⟩
      exact ⟨_, ⟨h2, rfl⟩, rfl⟩
  · simp_all

/-- A pop of an element that the stack holds (20_memory.md R69). -/
theorem pop_of_holds {w : Width} {s : State} (h1 : s.sp.toNat + w.bytes ≤ s.sp0.toNat)
    (h2 : s.sp.toNat + w.bytes ≤ s.memSize) : pop w s = .ok (s.valueAt s.sp.toNat w, afterPop w s) :=
  pop_eq_ok.mpr ⟨h1, h2, rfl⟩

theorem pop_of_short {w : Width} {s : State} (h : s.sp0.toNat < s.sp.toNat + w.bytes) :
    pop w s = .error .boundsViolation := by
  simp [pop, Nat.not_le_of_lt h]

theorem pop_error {w : Width} {s : State} {f : Fault} (h : pop w s = .error f) : f = .boundsViolation := by
  unfold pop at h
  split at h
  · rcases bind_eq_error.mp h with h | ⟨v, _, h⟩
    · exact memRead_error h
    · simp at h
  · simpa [eq_comm] using h

/-- The stack pointer after a pop of an element that the stack holds. -/
theorem afterPop_sp_toNat {w : Width} {s : State} (h : s.sp.toNat + w.bytes ≤ s.sp0.toNat) :
    (afterPop w s).sp.toNat = s.sp.toNat + w.bytes := by
  have := s.sp0.isLt
  exact toNat_add_bytes (by omega)

theorem afterPush_sp_toNat {w : Width} {v : Value} {s : State} (h : w.bytes ≤ s.sp.toNat) :
    (afterPush w v s).sp.toNat = s.sp.toNat - w.bytes := toNat_sub_bytes h

/-! ## Values in memory -/

theorem valueAt_congr {s t : State} (h : s.mem = t.mem) (a : Nat) (w : Width) : s.valueAt a w = t.valueAt a w := by
  simp [State.valueAt, h]

@[simp] theorem maskTo_valueAt (s : State) (a : Nat) (w : Width) : maskTo w (s.valueAt a w) = s.valueAt a w :=
  maskTo_ofLE w _ (s.mem.readBytes_length a w.bytes)

theorem valueAt_lt (s : State) (a : Nat) (w : Width) : (s.valueAt a w).toNat < 2 ^ (8 * w.bytes) := by
  rw [← maskTo_valueAt, maskTo_toNat]
  exact Nat.mod_lt _ (by positivity)

/-- The value pushed is the value on top. -/
theorem valueAt_afterPush {w : Width} {v : Value} {s : State} (h : w.bytes ≤ s.sp.toNat) :
    (afterPush w v s).valueAt (afterPush w v s).sp.toNat w = maskTo w v := by
  have hb := s.mem.readBytes_writeBytes (s.sp.toNat - w.bytes) (leBytes w.bytes v)
  rw [leBytes_length] at hb
  rw [State.valueAt, afterPush_sp_toNat h, afterPush_mem, hb, ofLE_leBytes]

end Sys2Proof.Machine
end

