-- ==== Sys2Proof/Laws/Operands.lean ====
section
/-!
SUPPORT. What the operand forms and the families' shared operations do when they answer, each said once, and the one
fault each can raise.
-/

namespace Sys2Proof.Machine

/-! ## Two- and four-byte elements -/

theorem popAddr_eq_ok {s : State} {r : Addr × State} :
    popAddr s = .ok r ↔
      s.sp.toNat + 2 ≤ s.sp0.toNat ∧ s.sp.toNat + 2 ≤ s.memSize ∧ r = (s.addrAt s.sp.toNat, afterPop .w2 s) := by
  constructor
  · intro h
    obtain ⟨⟨v, t⟩, h1, h2⟩ := bind_eq_ok.mp h
    obtain ⟨hs, hm, he⟩ := pop_eq_ok.mp h1
    cases he
    exact ⟨hs, hm, (Except.ok.inj h2).symm⟩
  · rintro ⟨hs, hm, rfl⟩
    exact bind_eq_ok.mpr ⟨_, pop_eq_ok.mpr ⟨hs, hm, rfl⟩, rfl⟩

theorem popAcc_eq_ok {s : State} {r : Acc × State} :
    popAcc s = .ok r ↔
      s.sp.toNat + 4 ≤ s.sp0.toNat ∧ s.sp.toNat + 4 ≤ s.memSize ∧ r = (s.accAt s.sp.toNat, afterPop .w4 s) := by
  constructor
  · intro h
    obtain ⟨⟨v, t⟩, h1, h2⟩ := bind_eq_ok.mp h
    obtain ⟨hs, hm, he⟩ := pop_eq_ok.mp h1
    cases he
    exact ⟨hs, hm, (Except.ok.inj h2).symm⟩
  · rintro ⟨hs, hm, rfl⟩
    exact bind_eq_ok.mpr ⟨_, pop_eq_ok.mpr ⟨hs, hm, rfl⟩, rfl⟩

theorem popAddr_error {s : State} {f : Fault} (h : popAddr s = .error f) : f = .boundsViolation := by
  rcases bind_eq_error.mp h with h | ⟨⟨v, t⟩, _, h⟩
  · exact pop_error h
  · simp at h

theorem popAcc_error {s : State} {f : Fault} (h : popAcc s = .error f) : f = .boundsViolation := by
  rcases bind_eq_error.mp h with h | ⟨⟨v, t⟩, _, h⟩
  · exact pop_error h
  · simp at h

theorem pushAddr_eq_ok {a : Addr} {s t : State} :
    pushAddr a s = .ok t ↔
      2 ≤ s.sp.toNat ∧ s.sp.toNat ≤ s.memSize ∧ t = afterPush .w2 (a.setWidth 64) s := push_eq_ok

theorem pushAcc_eq_ok {v : Acc} {s t : State} :
    pushAcc v s = .ok t ↔
      4 ≤ s.sp.toNat ∧ s.sp.toNat ≤ s.memSize ∧ t = afterPush .w4 (v.setWidth 64) s := push_eq_ok

theorem pushAddr_error {a : Addr} {s : State} {f : Fault} (h : pushAddr a s = .error f) : f = .boundsViolation :=
  push_error h

theorem pushAcc_error {v : Acc} {s : State} {f : Fault} (h : pushAcc v s = .error f) : f = .boundsViolation :=
  push_error h

/-- The address pushed is the address on top. -/
theorem addrAt_afterPush {a : Addr} {s : State} (h : 2 ≤ s.sp.toNat) :
    (afterPush .w2 (a.setWidth 64) s).addrAt (afterPush .w2 (a.setWidth 64) s).sp.toNat = a := by
  rw [State.addrAt, valueAt_afterPush (w := .w2) h, maskTo_w2_setWidth]

/-- The 4 bytes pushed are the 4 bytes on top. -/
theorem accAt_afterPush {v : Acc} {s : State} (h : 4 ≤ s.sp.toNat) :
    (afterPush .w4 (v.setWidth 64) s).accAt (afterPush .w4 (v.setWidth 64) s).sp.toNat = v := by
  rw [State.accAt, valueAt_afterPush (w := .w4) h, maskTo_w4_setWidth]

/-! ## Branch conditions -/

/-- Everything the evaluation of a condition can do when it answers (44_control.md R222, R223). -/
theorem evalCond_eq_ok {cond : Cond} {s : State} {r : Bool × State} (h : evalCond cond s = .ok r) :
    (s.cfg.branchSrc = .flags ∧ r = (cond.onFlags s.z s.n, s)) ∨
      (s.cfg.branchSrc = .stack ∧ cond = .always ∧ r = (true, s)) ∨
      (s.cfg.branchSrc = .stack ∧ cond ≠ .always ∧ s.sp.toNat + 4 ≤ s.sp0.toNat ∧ s.sp.toNat + 4 ≤ s.memSize ∧
        r = (cond.onValue (s.accAt s.sp.toNat).toInt, afterPop .w4 s)) := by
  unfold evalCond at h
  split at h
  · exact .inl ⟨‹_›, (Except.ok.inj h).symm⟩
  · split at h
    · exact .inr (.inl ⟨‹_›, ‹_›, (Except.ok.inj h).symm⟩)
    · obtain ⟨⟨v, t⟩, h1, h2⟩ := bind_eq_ok.mp h
      obtain ⟨hs, hm, he⟩ := popAcc_eq_ok.mp h1
      cases he
      exact .inr (.inr ⟨‹_›, ‹_›, hs, hm, (Except.ok.inj h2).symm⟩)

theorem evalCond_error {cond : Cond} {s : State} {f : Fault} (h : evalCond cond s = .error f) :
    f = .boundsViolation := by
  unfold evalCond at h
  split at h
  · simp at h
  · split at h
    · simp at h
    · rcases bind_eq_error.mp h with h | ⟨⟨v, t⟩, _, h⟩
      · exact popAcc_error h
      · simp at h

/-! ## The families' shared operations -/

theorem loadFrom_eq_ok {ea : Addr} {w : Width} {nip : Addr} {s t : State} :
    loadFrom ea w nip s = .ok t ↔
      ea.toNat + w.bytes ≤ s.memSize ∧ w.bytes ≤ s.sp.toNat ∧ s.sp.toNat ≤ s.memSize ∧
        t = (afterPush w (s.valueAt ea.toNat w) s).continueAt nip := by
  constructor
  · intro h
    obtain ⟨v, h1, h⟩ := bind_eq_ok.mp h
    obtain ⟨u, h2, h⟩ := bind_eq_ok.mp h
    obtain ⟨hb, rfl⟩ := memRead_eq_ok.mp h1
    obtain ⟨hw, hm, rfl⟩ := push_eq_ok.mp h2
    exact ⟨hb, hw, hm, (Except.ok.inj h).symm⟩
  · rintro ⟨hb, hw, hm, rfl⟩
    exact bind_eq_ok.mpr ⟨_, memRead_of_inBounds hb, bind_eq_ok.mpr ⟨_, push_of_fits hw hm, rfl⟩⟩

theorem storeTo_eq_ok {ea : Addr} {w : Width} {v : Value} {nip : Addr} {s t : State} :
    storeTo ea w v nip s = .ok t ↔
      ea.toNat + w.bytes ≤ s.memSize ∧
        t = (s.withMem (s.mem.writeBytes ea.toNat (leBytes w.bytes v))).continueAt nip := by
  constructor
  · intro h
    obtain ⟨u, h1, h⟩ := bind_eq_ok.mp h
    obtain ⟨hb, rfl⟩ := memWrite_eq_ok.mp h1
    exact ⟨hb, (Except.ok.inj h).symm⟩
  · rintro ⟨hb, rfl⟩
    exact bind_eq_ok.mpr ⟨_, memWrite_of_inBounds hb, rfl⟩

theorem loadFrom_error {ea : Addr} {w : Width} {nip : Addr} {s : State} {f : Fault}
    (h : loadFrom ea w nip s = .error f) : f = .boundsViolation := by
  rcases bind_eq_error.mp h with h | ⟨v, _, h⟩
  · exact memRead_error h
  · rcases bind_eq_error.mp h with h | ⟨u, _, h⟩
    · exact push_error h
    · simp at h

theorem storeTo_error {ea : Addr} {w : Width} {v : Value} {nip : Addr} {s : State} {f : Fault}
    (h : storeTo ea w v nip s = .error f) : f = .boundsViolation := by
  rcases bind_eq_error.mp h with h | ⟨u, _, h⟩
  · exact memWrite_error h
  · simp at h

theorem checkWindow_eq_ok {w : Width} {k : Nat} {s : State} {u : Unit} :
    checkWindow w k s = .ok u ↔ s.sp.toNat + w.bytes + k ≤ s.sp0.toNat ∧ w.bytes ≤ s.sp.toNat := by
  unfold checkWindow
  split
  · simp only [reduceCtorEq, false_iff]; omega
  · split
    · simp only [reduceCtorEq, false_iff]; omega
    · simp only [true_iff]; omega

theorem checkWindow_error {w : Width} {k : Nat} {s : State} {f : Fault} (h : checkWindow w k s = .error f) :
    f = .boundsViolation := by
  unfold checkWindow at h
  split at h
  · simpa [eq_comm] using h
  · split at h
    · simpa [eq_comm] using h
    · simp at h

/-- Everything DUP can do when it answers (41_dup_dig.md R160, R161). -/
theorem dup_eq_ok {ww : BitVec 2} {k len : Nat} {s t : State} :
    dup ww k len s = .ok t ↔
      s.sp.toNat + (s.width ww).bytes + k ≤ s.sp0.toNat ∧ (s.width ww).bytes ≤ s.sp.toNat ∧
        s.sp.toNat + (s.width ww).bytes + k ≤ s.memSize ∧
        t = ((s.withSp (s.sp - BitVec.ofNat 16 (s.width ww).bytes)).withMem
          (s.mem.writeBytes (s.sp.toNat - (s.width ww).bytes)
            (s.mem.readBytes s.sp.toNat ((s.width ww).bytes + k) ++
              s.mem.readBytes s.sp.toNat (s.width ww).bytes))).continueAt (s.nip len) := by
  constructor
  · intro h
    obtain ⟨u, h1, h⟩ := bind_eq_ok.mp h
    obtain ⟨bs, h2, h⟩ := bind_eq_ok.mp h
    obtain ⟨v, h3, h⟩ := bind_eq_ok.mp h
    obtain ⟨hk, hw⟩ := checkWindow_eq_ok.mp h1
    obtain ⟨hm, rfl⟩ := readRange_eq_ok.mp h2
    obtain ⟨hb, rfl⟩ := writeRange_eq_ok.mp h3
    refine ⟨hk, hw, by omega, ?_⟩
    rw [← Except.ok.inj h, toNat_sub_bytes hw, Memory.readBytes_take]
    rfl
  · rintro ⟨hk, hw, hm, rfl⟩
    refine bind_eq_ok.mpr ⟨(), checkWindow_eq_ok.mpr ⟨hk, hw⟩, bind_eq_ok.mpr
      ⟨_, readRange_eq_ok.mpr ⟨by omega, rfl⟩, bind_eq_ok.mpr ⟨_, writeRange_eq_ok.mpr ⟨?_, rfl⟩, ?_⟩⟩⟩
    · rw [toNat_sub_bytes hw, List.length_append, Memory.readBytes_take, Memory.readBytes_length,
        Memory.readBytes_length, State.withSp_memSize]
      omega
    · rw [toNat_sub_bytes hw, Memory.readBytes_take]
      rfl

/-- Everything DIG can do when it answers (41_dup_dig.md R160, R162). -/
theorem dig_eq_ok {ww : BitVec 2} {k len : Nat} {s t : State} :
    dig ww k len s = .ok t ↔
      s.sp.toNat + (s.width ww).bytes + k ≤ s.sp0.toNat ∧ (s.width ww).bytes ≤ s.sp.toNat ∧
        s.sp.toNat + (s.width ww).bytes + k ≤ s.memSize ∧
        t = ((s.withSp (s.sp - BitVec.ofNat 16 (s.width ww).bytes)).withMem
          (s.mem.writeBytes (s.sp.toNat - (s.width ww).bytes)
            (s.mem.readBytes (s.sp.toNat + k) (s.width ww).bytes))).continueAt (s.nip len) := by
  have hdrop : (s.mem.readBytes s.sp.toNat ((s.width ww).bytes + k)).drop k =
      s.mem.readBytes (s.sp.toNat + k) (s.width ww).bytes := by
    rw [Nat.add_comm, Memory.readBytes_drop]
  constructor
  · intro h
    obtain ⟨u, h1, h⟩ := bind_eq_ok.mp h
    obtain ⟨bs, h2, h⟩ := bind_eq_ok.mp h
    obtain ⟨v, h3, h⟩ := bind_eq_ok.mp h
    obtain ⟨hk, hw⟩ := checkWindow_eq_ok.mp h1
    obtain ⟨hm, rfl⟩ := readRange_eq_ok.mp h2
    obtain ⟨hb, rfl⟩ := writeRange_eq_ok.mp h3
    refine ⟨hk, hw, by omega, ?_⟩
    rw [← Except.ok.inj h, toNat_sub_bytes hw, hdrop]
    rfl
  · rintro ⟨hk, hw, hm, rfl⟩
    refine bind_eq_ok.mpr ⟨(), checkWindow_eq_ok.mpr ⟨hk, hw⟩, bind_eq_ok.mpr
      ⟨_, readRange_eq_ok.mpr ⟨by omega, rfl⟩, bind_eq_ok.mpr ⟨_, writeRange_eq_ok.mpr ⟨?_, rfl⟩, ?_⟩⟩⟩
    · rw [toNat_sub_bytes hw, hdrop, Memory.readBytes_length, State.withSp_memSize]
      omega
    · rw [toNat_sub_bytes hw, hdrop]
      rfl

theorem dup_error {ww : BitVec 2} {k len : Nat} {s : State} {f : Fault} (h : dup ww k len s = .error f) :
    f = .boundsViolation := by
  rcases bind_eq_error.mp h with h | ⟨u, _, h⟩
  · exact checkWindow_error h
  · rcases bind_eq_error.mp h with h | ⟨bs, _, h⟩
    · exact readRange_error h
    · rcases bind_eq_error.mp h with h | ⟨v, _, h⟩
      · exact writeRange_error h
      · simp at h

theorem dig_error {ww : BitVec 2} {k len : Nat} {s : State} {f : Fault} (h : dig ww k len s = .error f) :
    f = .boundsViolation := by
  rcases bind_eq_error.mp h with h | ⟨u, _, h⟩
  · exact checkWindow_error h
  · rcases bind_eq_error.mp h with h | ⟨bs, _, h⟩
    · exact readRange_error h
    · rcases bind_eq_error.mp h with h | ⟨v, _, h⟩
      · exact writeRange_error h
      · simp at h

theorem aluFinish_eq_ok {w : Width} {r : Acc} {nip : Addr} {s t : State} :
    aluFinish w r nip s = .ok t ↔
      w.bytes ≤ s.sp.toNat ∧ s.sp.toNat ≤ s.memSize ∧
        t = ((afterPush w (aluResult w r) s).setIntFlags w (aluResult w r)).continueAt nip := by
  constructor
  · intro h
    obtain ⟨u, h1, h⟩ := bind_eq_ok.mp h
    obtain ⟨hw, hm, rfl⟩ := push_eq_ok.mp h1
    exact ⟨hw, hm, (Except.ok.inj h).symm⟩
  · rintro ⟨hw, hm, rfl⟩
    exact bind_eq_ok.mpr ⟨_, push_of_fits hw hm, rfl⟩

theorem aluFinish_error {w : Width} {r : Acc} {nip : Addr} {s : State} {f : Fault}
    (h : aluFinish w r nip s = .error f) : f = .boundsViolation := by
  rcases bind_eq_error.mp h with h | ⟨u, _, h⟩
  · exact push_error h
  · simp at h

/-- The state after a binary integer command with result `r` (42_alu.md R170, R172). -/
def afterBinary (w : Width) (r : Acc) (s : State) : State :=
  ((afterPush w (aluResult w r) (afterPop w (afterPop w s))).setIntFlags w (aluResult w r)).continueAt (s.nip 1)

/-- The state after the unary integer command with result `r` (42_alu.md R171, R172). -/
def afterUnary (w : Width) (r : Acc) (s : State) : State :=
  ((afterPush w (aluResult w r) (afterPop w s)).setIntFlags w (aluResult w r)).continueAt (s.nip 1)

/-- Everything a binary integer command can do when it answers (42_alu.md R170). -/
theorem aluBinary_eq_ok {f : Acc → Acc → Except Fault Acc} {ww : BitVec 2} {s t : State} :
    aluBinary f ww s = .ok t ↔
      s.sp.toNat + 2 * (s.width ww).bytes ≤ s.sp0.toNat ∧ s.sp.toNat + 2 * (s.width ww).bytes ≤ s.memSize ∧
        ∃ r, f ((s.valueAt (s.sp.toNat + (s.width ww).bytes) (s.width ww)).setWidth 32)
            ((s.valueAt s.sp.toNat (s.width ww)).setWidth 32) = .ok r ∧ t = afterBinary (s.width ww) r s := by
  constructor
  · intro h
    obtain ⟨⟨b, u⟩, h1, h⟩ := bind_eq_ok.mp h
    obtain ⟨⟨a, v⟩, h2, h⟩ := bind_eq_ok.mp h
    obtain ⟨r, h3, h4⟩ := bind_eq_ok.mp h
    obtain ⟨p1, p2, e1⟩ := pop_eq_ok.mp h1
    cases e1
    obtain ⟨q1, q2, e2⟩ := pop_eq_ok.mp h2
    cases e2
    obtain ⟨_, _, rfl⟩ := aluFinish_eq_ok.mp h4
    rw [afterPop_sp_toNat p1] at q1 q2 h3
    simp only [afterPop_sp0, afterPop_memSize] at q1 q2
    exact ⟨by omega, by omega, r, h3, rfl⟩
  · rintro ⟨p, q, r, h3, rfl⟩
    have p1 : s.sp.toNat + (s.width ww).bytes ≤ s.sp0.toNat := by omega
    have e1 := afterPop_sp_toNat p1
    have p2 : (afterPop (s.width ww) s).sp.toNat + (s.width ww).bytes ≤ (afterPop (s.width ww) s).sp0.toNat := by
      rw [e1, afterPop_sp0]; omega
    have e2 := afterPop_sp_toNat p2
    refine bind_eq_ok.mpr ⟨_, pop_of_holds p1 (by omega), bind_eq_ok.mpr ⟨_, pop_of_holds p2 ?_, bind_eq_ok.mpr
      ⟨r, ?_, aluFinish_eq_ok.mpr ⟨?_, ?_, rfl⟩⟩⟩⟩
    · rw [e1, afterPop_memSize]; omega
    · rw [e1]; exact h3
    · rw [e2, e1]; omega
    · rw [e2, e1]; simp only [afterPop_memSize]; omega

/-- Everything the unary integer command can do when it answers (42_alu.md R171). -/
theorem aluUnary_eq_ok {f : Acc → Acc} {ww : BitVec 2} {s t : State} :
    aluUnary f ww s = .ok t ↔
      s.sp.toNat + (s.width ww).bytes ≤ s.sp0.toNat ∧ s.sp.toNat + (s.width ww).bytes ≤ s.memSize ∧
        t = afterUnary (s.width ww) (f ((s.valueAt s.sp.toNat (s.width ww)).setWidth 32)) s := by
  constructor
  · intro h
    obtain ⟨⟨a, u⟩, h1, h⟩ := bind_eq_ok.mp h
    obtain ⟨p1, p2, e1⟩ := pop_eq_ok.mp h1
    cases e1
    obtain ⟨_, _, rfl⟩ := aluFinish_eq_ok.mp h
    exact ⟨p1, p2, rfl⟩
  · rintro ⟨p1, p2, rfl⟩
    have e1 := afterPop_sp_toNat p1
    refine bind_eq_ok.mpr ⟨_, pop_of_holds p1 p2, aluFinish_eq_ok.mpr ⟨?_, ?_, rfl⟩⟩
    · rw [e1]; omega
    · rw [e1, afterPop_memSize]; omega

/-- A binary integer command faults on its pops, or as its function does (42_alu.md R170). -/
theorem aluBinary_error {f : Acc → Acc → Except Fault Acc} {ww : BitVec 2} {s : State} {e : Fault}
    (h : aluBinary f ww s = .error e) :
    e = .boundsViolation ∨
      s.sp.toNat + 2 * (s.width ww).bytes ≤ s.sp0.toNat ∧ s.sp.toNat + 2 * (s.width ww).bytes ≤ s.memSize ∧
        f ((s.valueAt (s.sp.toNat + (s.width ww).bytes) (s.width ww)).setWidth 32)
          ((s.valueAt s.sp.toNat (s.width ww)).setWidth 32) = .error e := by
  rcases bind_eq_error.mp h with h | ⟨⟨b, u⟩, h1, h⟩
  · exact .inl (pop_error h)
  · rcases bind_eq_error.mp h with h | ⟨⟨a, v⟩, h2, h⟩
    · exact .inl (pop_error h)
    · obtain ⟨p1, p2, e1⟩ := pop_eq_ok.mp h1
      cases e1
      obtain ⟨q1, q2, e2⟩ := pop_eq_ok.mp h2
      cases e2
      rcases bind_eq_error.mp h with h3 | ⟨r, _, h⟩
      · rw [afterPop_sp_toNat p1] at q1 q2 h3
        simp only [afterPop_sp0, afterPop_memSize] at q1 q2
        exact .inr ⟨by omega, by omega, h3⟩
      · exact .inl (aluFinish_error h)

theorem aluUnary_error {f : Acc → Acc} {ww : BitVec 2} {s : State} {e : Fault} (h : aluUnary f ww s = .error e) :
    e = .boundsViolation := by
  rcases bind_eq_error.mp h with h | ⟨⟨a, u⟩, _, h⟩
  · exact pop_error h
  · exact aluFinish_error h

/-- The state after a binary float command with result `r` (43_fpu.md R201, R203). -/
def afterFloat (r : Acc) (s : State) : State :=
  ((afterPush .w4 (r.setWidth 64) (afterPop .w4 (afterPop .w4 s))).setFloatFlags r).continueAt (s.nip 1)

/-- Everything a binary float command can do when it answers (43_fpu.md R203). -/
theorem fpuBinary_eq_ok {f : Acc → Acc → Acc} {s t : State} :
    fpuBinary f s = .ok t ↔
      s.sp.toNat + 8 ≤ s.sp0.toNat ∧ s.sp.toNat + 8 ≤ s.memSize ∧
        t = afterFloat (f (s.accAt (s.sp.toNat + 4)) (s.accAt s.sp.toNat)) s := by
  constructor
  · intro h
    obtain ⟨⟨b, u⟩, h1, h⟩ := bind_eq_ok.mp h
    obtain ⟨⟨a, v⟩, h2, h⟩ := bind_eq_ok.mp h
    obtain ⟨x, h3, h⟩ := bind_eq_ok.mp h
    obtain ⟨p1, p2, e1⟩ := popAcc_eq_ok.mp h1
    cases e1
    obtain ⟨q1, q2, e2⟩ := popAcc_eq_ok.mp h2
    cases e2
    obtain ⟨_, _, rfl⟩ := pushAcc_eq_ok.mp h3
    have e1 := afterPop_sp_toNat (w := .w4) p1
    rw [e1] at q1 q2 h
    simp only [afterPop_sp0, afterPop_memSize, Width.bytes] at q1 q2
    exact ⟨by omega, by omega, (Except.ok.inj h).symm⟩
  · rintro ⟨p, q, rfl⟩
    have p1 : s.sp.toNat + Width.w4.bytes ≤ s.sp0.toNat := by simp only [Width.bytes]; omega
    have e1 := afterPop_sp_toNat p1
    have p2 : (afterPop .w4 s).sp.toNat + Width.w4.bytes ≤ (afterPop .w4 s).sp0.toNat := by
      rw [e1, afterPop_sp0]; simp only [Width.bytes]; omega
    have e2 := afterPop_sp_toNat p2
    have m2 : (afterPop .w4 s).sp.toNat + 4 ≤ (afterPop .w4 s).memSize := by
      rw [e1, afterPop_memSize]; simp only [Width.bytes]; omega
    have r1 : 4 ≤ (afterPop .w4 (afterPop .w4 s)).sp.toNat := by rw [e2]; simp only [Width.bytes]; omega
    have r2 : (afterPop .w4 (afterPop .w4 s)).sp.toNat ≤ (afterPop .w4 (afterPop .w4 s)).memSize := by
      rw [e2, e1]; simp only [afterPop_memSize, Width.bytes]; omega
    have a2 : (afterPop .w4 s).accAt (afterPop .w4 s).sp.toNat = s.accAt (s.sp.toNat + 4) := by
      rw [e1]; rfl
    refine bind_eq_ok.mpr ⟨_, popAcc_eq_ok.mpr ⟨p1, by omega, rfl⟩, bind_eq_ok.mpr ⟨_, popAcc_eq_ok.mpr ⟨p2, m2, rfl⟩,
      bind_eq_ok.mpr ⟨_, pushAcc_eq_ok.mpr ⟨r1, r2, rfl⟩, ?_⟩⟩⟩
    rw [a2]
    rfl

theorem fpuBinary_error {f : Acc → Acc → Acc} {s : State} {e : Fault} (h : fpuBinary f s = .error e) :
    e = .boundsViolation := by
  rcases bind_eq_error.mp h with h | ⟨⟨b, u⟩, _, h⟩
  · exact popAcc_error h
  · rcases bind_eq_error.mp h with h | ⟨⟨a, v⟩, _, h⟩
    · exact popAcc_error h
    · rcases bind_eq_error.mp h with h | ⟨x, _, h⟩
      · exact pushAcc_error h
      · simp at h

/-- Everything a branch can do when it answers (44_control.md R221). -/
theorem branch_eq_ok {cond : Cond} {d : Disp} {s t : State} :
    branch cond d s = .ok t ↔
      ∃ r, evalCond cond s = .ok r ∧
        t = r.2.continueAt (if r.1 then branchTarget (s.nip (1 + d.length)) d else s.nip (1 + d.length)) := by
  constructor
  · intro h
    obtain ⟨⟨b, u⟩, h1, h⟩ := bind_eq_ok.mp h
    exact ⟨_, h1, (Except.ok.inj h).symm⟩
  · rintro ⟨r, h1, rfl⟩
    exact bind_eq_ok.mpr ⟨r, h1, rfl⟩

theorem branch_error {cond : Cond} {d : Disp} {s : State} {f : Fault} (h : branch cond d s = .error f) :
    f = .boundsViolation := by
  rcases bind_eq_error.mp h with h | ⟨⟨b, u⟩, _, h⟩
  · exact evalCond_error h
  · simp at h

end Sys2Proof.Machine
end

