-- ==== Sys2Proof/Laws/PerInstr.lean ====
section
/-!
SUPPORT. Facts about every instruction as syntax, one lemma per constructor: its length lies between one and nine bytes,
and its encoding has that length (30_encoding.md R90, R108).
-/

namespace Sys2Proof.Laws

/-- A displacement takes one or two bytes (30_encoding.md R103). -/
theorem disp_length_range (d : Disp) : 1 ≤ d.length ∧ d.length ≤ 2 := by
  cases d <;> simp [Disp.length]

/-- The encoding of a displacement has its length. -/
theorem disp_encode_length (d : Disp) : d.encode.length = d.length := by cases d <;> rfl

/-- A branch is as long as its displacement and one byte (30_encoding.md R108). -/
theorem branch_encode_length (ccc : BitVec 3) (d : Disp) : (encodeBranch ccc d).length = 1 + d.length := by
  rw [encodeBranch, List.length_cons, disp_encode_length, Nat.add_comm]

theorem one_byte : 1 ≤ 1 ∧ 1 ≤ maxLength := by decide

theorem two_bytes : 1 ≤ 2 ∧ 2 ≤ maxLength := by decide

theorem three_bytes : 1 ≤ 3 ∧ 3 ≤ maxLength := by decide

namespace LengthInRange

/-- The instruction takes one to nine bytes under every configuration (30_encoding.md R90, R108). -/
def Statement (i : Instr) : Prop := ∀ c, 1 ≤ i.length c ∧ i.length c ≤ maxLength

theorem loadDir (ww : BitVec 2) (a16 : Addr) : Statement (.loadDir ww a16) := fun _ => three_bytes
theorem loadXb (ww : BitVec 2) (off8 : Byte) : Statement (.loadXb ww off8) := fun _ => two_bytes
theorem loadXw (ww : BitVec 2) : Statement (.loadXw ww) := fun _ => one_byte
theorem loadImm (ww : BitVec 2) (imm : Value) : Statement (.loadImm ww imm) := fun c => by
  have h1 := Machine.Width.bytes_pos (Machine.resolveWidth c ww)
  have h2 := Machine.Width.bytes_le (Machine.resolveWidth c ww)
  simp only [Instr.length, maxLength]
  omega
theorem storeDir (ww : BitVec 2) (a16 : Addr) : Statement (.storeDir ww a16) := fun _ => three_bytes
theorem storeXb (ww : BitVec 2) (off8 : Byte) : Statement (.storeXb ww off8) := fun _ => two_bytes
theorem storeXw (ww : BitVec 2) : Statement (.storeXw ww) := fun _ => one_byte
theorem pop (ww : BitVec 2) : Statement (.pop ww) := fun _ => one_byte
theorem dup0 (ww : BitVec 2) : Statement (.dup0 ww) := fun _ => one_byte
theorem dup1 (ww : BitVec 2) : Statement (.dup1 ww) := fun _ => one_byte
theorem dup2 (ww : BitVec 2) : Statement (.dup2 ww) := fun _ => one_byte
theorem dupX (ww : BitVec 2) (k8 : Byte) : Statement (.dupX ww k8) := fun _ => two_bytes
theorem dig0 (ww : BitVec 2) : Statement (.dig0 ww) := fun _ => one_byte
theorem dig1 (ww : BitVec 2) : Statement (.dig1 ww) := fun _ => one_byte
theorem dig2 (ww : BitVec 2) : Statement (.dig2 ww) := fun _ => one_byte
theorem digX (ww : BitVec 2) (k8 : Byte) : Statement (.digX ww k8) := fun _ => two_bytes
theorem call (a16 : Addr) : Statement (.call a16) := fun _ => three_bytes
theorem calli : Statement (.calli) := fun _ => one_byte
theorem ret : Statement (.ret) := fun _ => one_byte
theorem add (ww : BitVec 2) : Statement (.add ww) := fun _ => one_byte
theorem sub (ww : BitVec 2) : Statement (.sub ww) := fun _ => one_byte
theorem mul (ww : BitVec 2) : Statement (.mul ww) := fun _ => one_byte
theorem div (ww : BitVec 2) : Statement (.div ww) := fun _ => one_byte
theorem mod (ww : BitVec 2) : Statement (.mod ww) := fun _ => one_byte
theorem and (ww : BitVec 2) : Statement (.and ww) := fun _ => one_byte
theorem or (ww : BitVec 2) : Statement (.or ww) := fun _ => one_byte
theorem xor (ww : BitVec 2) : Statement (.xor ww) := fun _ => one_byte
theorem not (ww : BitVec 2) : Statement (.not ww) := fun _ => one_byte
theorem fadd : Statement (.fadd) := fun _ => one_byte
theorem fsub : Statement (.fsub) := fun _ => one_byte
theorem fmul : Statement (.fmul) := fun _ => one_byte
theorem fdiv : Statement (.fdiv) := fun _ => one_byte
theorem convf : Statement (.convf) := fun _ => one_byte
theorem convi : Statement (.convi) := fun _ => one_byte
theorem bra (d : Disp) : Statement (.bra d) := fun _ => by
  have h := disp_length_range d
  simp only [Instr.length, maxLength]
  omega
theorem beq (d : Disp) : Statement (.beq d) := fun _ => by
  have h := disp_length_range d
  simp only [Instr.length, maxLength]
  omega
theorem bne (d : Disp) : Statement (.bne d) := fun _ => by
  have h := disp_length_range d
  simp only [Instr.length, maxLength]
  omega
theorem blt (d : Disp) : Statement (.blt d) := fun _ => by
  have h := disp_length_range d
  simp only [Instr.length, maxLength]
  omega
theorem bgt (d : Disp) : Statement (.bgt d) := fun _ => by
  have h := disp_length_range d
  simp only [Instr.length, maxLength]
  omega
theorem ble (d : Disp) : Statement (.ble d) := fun _ => by
  have h := disp_length_range d
  simp only [Instr.length, maxLength]
  omega
theorem bge (d : Disp) : Statement (.bge d) := fun _ => by
  have h := disp_length_range d
  simp only [Instr.length, maxLength]
  omega
theorem braAlt (d : BitVec 8) : Statement (.braAlt d) := fun _ => two_bytes
theorem yield : Statement (.yield) := fun _ => one_byte
theorem halt : Statement (.halt) := fun _ => one_byte

end LengthInRange

namespace EncodedLength

/-- The encoding has the length that 30_encoding.md R108 gives the instruction. -/
def Statement (i : Instr) : Prop := ∀ c, (encode c i).length = i.length c

theorem loadDir (ww : BitVec 2) (a16 : Addr) : Statement (.loadDir ww a16) := fun _ => rfl
theorem loadXb (ww : BitVec 2) (off8 : Byte) : Statement (.loadXb ww off8) := fun _ => rfl
theorem loadXw (ww : BitVec 2) : Statement (.loadXw ww) := fun _ => rfl
theorem loadImm (ww : BitVec 2) (imm : Value) : Statement (.loadImm ww imm) := fun c => by
  rw [encode, List.length_cons, Machine.leBytes_length, Instr.length, Nat.add_comm]
theorem storeDir (ww : BitVec 2) (a16 : Addr) : Statement (.storeDir ww a16) := fun _ => rfl
theorem storeXb (ww : BitVec 2) (off8 : Byte) : Statement (.storeXb ww off8) := fun _ => rfl
theorem storeXw (ww : BitVec 2) : Statement (.storeXw ww) := fun _ => rfl
theorem pop (ww : BitVec 2) : Statement (.pop ww) := fun _ => rfl
theorem dup0 (ww : BitVec 2) : Statement (.dup0 ww) := fun _ => rfl
theorem dup1 (ww : BitVec 2) : Statement (.dup1 ww) := fun _ => rfl
theorem dup2 (ww : BitVec 2) : Statement (.dup2 ww) := fun _ => rfl
theorem dupX (ww : BitVec 2) (k8 : Byte) : Statement (.dupX ww k8) := fun _ => rfl
theorem dig0 (ww : BitVec 2) : Statement (.dig0 ww) := fun _ => rfl
theorem dig1 (ww : BitVec 2) : Statement (.dig1 ww) := fun _ => rfl
theorem dig2 (ww : BitVec 2) : Statement (.dig2 ww) := fun _ => rfl
theorem digX (ww : BitVec 2) (k8 : Byte) : Statement (.digX ww k8) := fun _ => rfl
theorem call (a16 : Addr) : Statement (.call a16) := fun _ => rfl
theorem calli : Statement (.calli) := fun _ => rfl
theorem ret : Statement (.ret) := fun _ => rfl
theorem add (ww : BitVec 2) : Statement (.add ww) := fun _ => rfl
theorem sub (ww : BitVec 2) : Statement (.sub ww) := fun _ => rfl
theorem mul (ww : BitVec 2) : Statement (.mul ww) := fun _ => rfl
theorem div (ww : BitVec 2) : Statement (.div ww) := fun _ => rfl
theorem mod (ww : BitVec 2) : Statement (.mod ww) := fun _ => rfl
theorem and (ww : BitVec 2) : Statement (.and ww) := fun _ => rfl
theorem or (ww : BitVec 2) : Statement (.or ww) := fun _ => rfl
theorem xor (ww : BitVec 2) : Statement (.xor ww) := fun _ => rfl
theorem not (ww : BitVec 2) : Statement (.not ww) := fun _ => rfl
theorem fadd : Statement (.fadd) := fun _ => rfl
theorem fsub : Statement (.fsub) := fun _ => rfl
theorem fmul : Statement (.fmul) := fun _ => rfl
theorem fdiv : Statement (.fdiv) := fun _ => rfl
theorem convf : Statement (.convf) := fun _ => rfl
theorem convi : Statement (.convi) := fun _ => rfl
theorem bra (d : Disp) : Statement (.bra d) := fun _ => branch_encode_length _ d
theorem beq (d : Disp) : Statement (.beq d) := fun _ => branch_encode_length _ d
theorem bne (d : Disp) : Statement (.bne d) := fun _ => branch_encode_length _ d
theorem blt (d : Disp) : Statement (.blt d) := fun _ => branch_encode_length _ d
theorem bgt (d : Disp) : Statement (.bgt d) := fun _ => branch_encode_length _ d
theorem ble (d : Disp) : Statement (.ble d) := fun _ => branch_encode_length _ d
theorem bge (d : Disp) : Statement (.bge d) := fun _ => branch_encode_length _ d
theorem braAlt (d : BitVec 8) : Statement (.braAlt d) := fun _ => rfl
theorem yield : Statement (.yield) := fun _ => rfl
theorem halt : Statement (.halt) := fun _ => rfl

end EncodedLength

end Sys2Proof.Laws
end

