-- ==== Sys2Proof/Tests/Slice0.lean ====
section
/-!
SUPPORT. The model's own tests: words written bit by bit from 30_encoding.md, single steps with the results of the vectors of
95_test_vectors.md, ill-formed terms that WellFormed refuses, and for every obligation with hypotheses a concrete case
that meets them, clause by clause at boundary values.
-/

namespace Sys2Proof.Tests

open Sys2Proof.Machine

/-! ## Helpers -/

/-- A state with code at `ip`, the stack's bytes from `sp` up to `SP0`, and more bytes of memory. -/
def start (c : Config) (size sp0 ip : Nat) (flags : BitVec 8) (code stack : List Byte)
    (more : List (Nat × Byte)) : State :=
  { mem := (more.foldl (fun m p => m.write p.1 p.2) (Memory.writeBytes [] ip code)).writeBytes (sp0 - stack.length) stack
    ip := BitVec.ofNat 16 ip, sp := BitVec.ofNat 16 (sp0 - stack.length), flags := flags, memSize := size
    sp0 := BitVec.ofNat 16 sp0, cfg := c, status := .continuing }

/-- What a step leaves: `ip`, `sp`, the flags, the status value and the `n` bytes from `a` upwards. -/
def after (s : State) (a n : Nat) : Option (Nat × Nat × Nat × Int × List Byte) :=
  match step s with
  | .next t => some (t.ip.toNat, t.sp.toNat, t.flags.toNat, t.status.code, t.mem.readBytes a n)
  | .fault _ => none
  | .refused _ => none

/-- The code of the fault a step raises. -/
def faultOf (s : State) : Option Nat :=
  match step s with
  | .next _ => none
  | .fault f => some f.code
  | .refused _ => none

/-! ## Single steps -/

/-- 95_test_vectors.md, M1. -/
theorem test_load_dir :
    after (start Config.cfg0 0x100 0x100 0x10 0#8 [0x02#8, 0x80#8, 0x00#8] [] [(0x80, 0x78#8), (0x81, 0x56#8),
      (0x82, 0x34#8), (0x83, 0x12#8)]) 0xFC 4 =
      some (0x13, 0xFC, 0, 0, [0x78#8, 0x56#8, 0x34#8, 0x12#8]) := by decide

/-- 95_test_vectors.md, L15. -/
theorem test_load_dir_reads_before_it_pushes :
    after (start Config.cfg0 0x100 0x100 0x10 0#8 [0x01#8, 0xFE#8, 0x00#8] [0xAA#8] []) 0xFD 3 =
      some (0x13, 0xFD, 0, 0, [0x00#8, 0xAA#8, 0xAA#8]) := by decide

/-- 95_test_vectors.md, L3. -/
theorem test_load_xb :
    after (start { Config.cfg0 with indexedByte := true } 0x300 0x300 0x10 0#8 [0x05#8, 0x10#8] [0x00#8, 0x02#8]
      [(0x210, 0x7F#8), (0x211, 0x66#8)]) 0x2FE 2 =
      some (0x12, 0x2FE, 0, 0, [0x7F#8, 0x66#8]) := by decide

/-- 95_test_vectors.md, L4. -/
theorem test_load_xb_wraps :
    after (start { Config.cfg0 with indexedByte := true } 0x100 0x100 0x10 0#8 [0x04#8, 0x01#8] [0xFF#8, 0xFF#8]
      [(0x0, 0x77#8)]) 0xFF 1 =
      some (0x12, 0xFF, 0, 0, [0x77#8]) := by decide

/-- 95_test_vectors.md, L6. -/
theorem test_load_xw_negative_offset :
    after (start Config.cfg0 0x400 0x400 0x10 0#8 [0x0A#8] [0xFE#8, 0xFF#8, 0x00#8, 0x03#8] [(0x2FE, 0x78#8),
      (0x2FF, 0x56#8), (0x300, 0x34#8), (0x301, 0x12#8)]) 0x3FC 4 =
      some (0x11, 0x3FC, 0, 0, [0x78#8, 0x56#8, 0x34#8, 0x12#8]) := by decide

/-- 95_test_vectors.md, D16. -/
theorem test_load_xw_fixed_width :
    after (start { Config.cfg0 with widthMode := .fixed8 } 0x100 0x100 0x10 0#8 [0x0B#8] [0x01#8, 0x00#8,
      0x80#8, 0x00#8] [(0x81, 0x42#8)]) 0xFF 1 =
      some (0x11, 0xFF, 0, 0, [0x42#8]) := by decide

/-- 95_test_vectors.md, L2. -/
theorem test_load_imm :
    after (start Config.cfg0 0x100 0x100 0x10 0#8 [0x0F#8, 0x01#8, 0x02#8, 0x03#8, 0x04#8, 0x05#8, 0x06#8,
      0x07#8, 0x08#8] [] []) 0xF8 8 =
      some (0x19, 0xF8, 0, 0, [0x01#8, 0x02#8, 0x03#8, 0x04#8, 0x05#8, 0x06#8, 0x07#8, 0x08#8]) := by decide

/-- 95_test_vectors.md, D15. -/
theorem test_load_imm_fixed_width :
    after (start { Config.cfg0 with widthMode := .fixed16 } 0x100 0x100 0x10 0#8 [0x0F#8, 0x34#8, 0x12#8,
      0x99#8] [] []) 0xFE 2 =
      some (0x13, 0xFE, 0, 0, [0x34#8, 0x12#8]) := by decide

/-- 95_test_vectors.md, L9. -/
theorem test_store_dir :
    after (start Config.cfg0 0x3000 0x3000 0x10 0#8 [0x11#8, 0x00#8, 0x20#8] [0xCD#8, 0xAB#8] []) 0x2000 2 =
      some (0x13, 0x3000, 0, 0, [0xCD#8, 0xAB#8]) := by decide

/-- 95_test_vectors.md, M4. -/
theorem test_store_dir_out_of_bounds :
    faultOf (start Config.cfg0 0x100 0x100 0x10 0#8 [0x11#8, 0xFF#8, 0x00#8] [0xCD#8, 0xAB#8]
      []) = some 3 := by decide

/-- 95_test_vectors.md, L11. -/
theorem test_store_xb :
    after (start { Config.cfg0 with indexedByte := true } 0x500 0x500 0x10 0#8 [0x14#8, 0x03#8] [0x5A#8, 0x00#8,
      0x04#8] []) 0x403 1 =
      some (0x12, 0x500, 0, 0, [0x5A#8]) := by decide

/-- 95_test_vectors.md, L12. -/
theorem test_store_xw :
    after (start Config.cfg0 0x600 0x600 0x10 0#8 [0x19#8] [0x34#8, 0x12#8, 0x10#8, 0x00#8, 0x00#8, 0x05#8]
      []) 0x510 2 =
      some (0x11, 0x600, 0, 0, [0x34#8, 0x12#8]) := by decide

/-- 95_test_vectors.md, L13. -/
theorem test_pop :
    after (start Config.cfg0 0x100 0x100 0x10 0#8 [0x1E#8] [0x01#8, 0x02#8, 0x03#8, 0x04#8] []) 0xFC 4 =
      some (0x11, 0x100, 0, 0, [0x01#8, 0x02#8, 0x03#8, 0x04#8]) := by decide

/-- 95_test_vectors.md, L14. -/
theorem test_pop_empty :
    faultOf (start Config.cfg0 0x100 0x100 0x10 0#8 [0x1E#8] [] []) = some 3 := by decide

/-- 95_test_vectors.md, S1. -/
theorem test_dup0 :
    after (start Config.cfg0 0x100 0x100 0x10 0#8 [0x20#8] [0xAA#8, 0xBB#8] []) 0xFD 3 =
      some (0x11, 0xFD, 0, 0, [0xAA#8, 0xAA#8, 0xBB#8]) := by decide

/-- 95_test_vectors.md, S2. -/
theorem test_dup1 :
    after (start Config.cfg0 0x100 0x100 0x10 0#8 [0x24#8] [0xAA#8, 0xBB#8, 0xCC#8] []) 0xFC 4 =
      some (0x11, 0xFC, 0, 0, [0xAA#8, 0xBB#8, 0xAA#8, 0xCC#8]) := by decide

/-- 95_test_vectors.md, S3. -/
theorem test_dup2 :
    after (start Config.cfg0 0x100 0x100 0x10 0#8 [0x29#8] [0x11#8, 0x11#8, 0x22#8, 0x22#8] []) 0xFA 6 =
      some (0x11, 0xFA, 0, 0, [0x11#8, 0x11#8, 0x22#8, 0x22#8, 0x11#8, 0x11#8]) := by decide

/-- 95_test_vectors.md, S4. -/
theorem test_dup_extension_byte :
    after (start Config.cfg0 0x100 0x100 0x10 0#8 [0x2C#8, 0x03#8] [0xAA#8, 0x01#8, 0x02#8, 0x03#8, 0x04#8]
      []) 0xFA 6 =
      some (0x12, 0xFA, 0, 0, [0xAA#8, 0x01#8, 0x02#8, 0x03#8, 0xAA#8, 0x04#8]) := by decide

/-- 95_test_vectors.md, S5. -/
theorem test_dup_window :
    faultOf (start Config.cfg0 0x100 0x100 0x10 0#8 [0x24#8] [0xAA#8] []) = some 3 := by decide

/-- 95_test_vectors.md, S10. -/
theorem test_dig0 :
    after (start Config.cfg0 0x100 0x100 0x10 0#8 [0x30#8] [0xAA#8, 0xBB#8] []) 0xFD 3 =
      some (0x11, 0xFD, 0, 0, [0xAA#8, 0xAA#8, 0xBB#8]) := by decide

/-- 95_test_vectors.md, S7. -/
theorem test_dig1 :
    after (start Config.cfg0 0x100 0x100 0x10 0#8 [0x35#8] [0x11#8, 0x22#8, 0x33#8, 0x44#8] []) 0xFA 6 =
      some (0x11, 0xFA, 0, 0, [0x22#8, 0x33#8, 0x11#8, 0x22#8, 0x33#8, 0x44#8]) := by decide

/-- 95_test_vectors.md, S8. -/
theorem test_dig2 :
    after (start Config.cfg0 0x100 0x100 0x10 0#8 [0x38#8] [0xAA#8, 0xBB#8, 0xCC#8] []) 0xFC 4 =
      some (0x11, 0xFC, 0, 0, [0xCC#8, 0xAA#8, 0xBB#8, 0xCC#8]) := by decide

/-- 95_test_vectors.md, S9. -/
theorem test_dig_extension_byte :
    after (start Config.cfg0 0x100 0x100 0x10 0#8 [0x3D#8, 0x02#8] [0x11#8, 0x11#8, 0x22#8, 0x22#8] []) 0xFA 6 =
      some (0x12, 0xFA, 0, 0, [0x22#8, 0x22#8, 0x11#8, 0x11#8, 0x22#8, 0x22#8]) := by decide

/-- 95_test_vectors.md, A1. -/
theorem test_add :
    after (start Config.cfg0 0x100 0x100 0x10 0#8 [0x80#8] [0x64#8, 0xC8#8] []) 0xFF 1 =
      some (0x11, 0xFF, 0, 0, [0x2C#8]) := by decide

/-- 95_test_vectors.md, A16. -/
theorem test_add_width_8 :
    after (start Config.cfg0 0x100 0x100 0x10 0#8 [0x83#8] [0x01#8, 0x00#8, 0x00#8, 0x00#8, 0x00#8, 0x00#8,
      0x00#8, 0x00#8, 0xFF#8, 0xFF#8, 0xFF#8, 0xFF#8, 0x01#8, 0x00#8, 0x00#8, 0x00#8] []) 0xF8 8 =
      some (0x11, 0xF8, 1, 0, [0x00#8, 0x00#8, 0x00#8, 0x00#8, 0x00#8, 0x00#8, 0x00#8, 0x00#8]) := by decide

/-- 95_test_vectors.md, A3. -/
theorem test_sub :
    after (start Config.cfg0 0x100 0x100 0x10 0#8 [0x84#8] [0x02#8, 0x01#8] []) 0xFF 1 =
      some (0x11, 0xFF, 2, 0, [0xFF#8]) := by decide

/-- 95_test_vectors.md, A7. -/
theorem test_mul :
    after (start Config.cfg0 0x100 0x100 0x10 0#8 [0x89#8] [0x01#8, 0x01#8, 0x00#8, 0x01#8] []) 0xFE 2 =
      some (0x11, 0xFE, 0, 0, [0x00#8, 0x01#8]) := by decide

/-- 95_test_vectors.md, A8. -/
theorem test_mul_wraps :
    after (start Config.cfg0 0x100 0x100 0x10 0#8 [0x8A#8] [0x00#8, 0x00#8, 0x01#8, 0x00#8, 0x00#8, 0x00#8,
      0x01#8, 0x00#8] []) 0xFC 4 =
      some (0x11, 0xFC, 1, 0, [0x00#8, 0x00#8, 0x00#8, 0x00#8]) := by decide

/-- 95_test_vectors.md, A9. -/
theorem test_div :
    after (start Config.cfg0 0x100 0x100 0x10 0#8 [0x8D#8] [0x07#8, 0x00#8, 0xE8#8, 0x03#8] []) 0xFE 2 =
      some (0x11, 0xFE, 0, 0, [0x8E#8, 0x00#8]) := by decide

/-- 95_test_vectors.md, A24. -/
theorem test_div_by_zero :
    faultOf (start Config.cfg0 0x100 0x100 0x10 0#8 [0x8C#8] [0x00#8, 0x07#8] []) = some 2 := by decide

/-- 95_test_vectors.md, R184 table. -/
theorem test_mod :
    after (start Config.cfg0 0x100 0x100 0x10 0#8 [0x90#8] [0xFE#8, 0xF9#8] []) 0xFF 1 =
      some (0x11, 0xFF, 2, 0, [0xF9#8]) := by decide

/-- 95_test_vectors.md, A25. -/
theorem test_mod_by_zero :
    faultOf (start Config.cfg0 0x100 0x100 0x10 0#8 [0x92#8] [0x00#8, 0x00#8, 0x00#8, 0x00#8, 0x05#8, 0x00#8,
      0x00#8, 0x00#8] []) = some 2 := by decide

/-- 95_test_vectors.md, A11. -/
theorem test_and :
    after (start Config.cfg0 0x100 0x100 0x10 0#8 [0x94#8] [0x3C#8, 0xF0#8] []) 0xFF 1 =
      some (0x11, 0xFF, 0, 0, [0x30#8]) := by decide

/-- 95_test_vectors.md, A12. -/
theorem test_or :
    after (start Config.cfg0 0x100 0x100 0x10 0#8 [0x98#8] [0x01#8, 0x80#8] []) 0xFF 1 =
      some (0x11, 0xFF, 2, 0, [0x81#8]) := by decide

/-- 95_test_vectors.md, A14. -/
theorem test_xor :
    after (start Config.cfg0 0x100 0x100 0x10 0#8 [0x9C#8] [0x0F#8, 0xFF#8] []) 0xFF 1 =
      some (0x11, 0xFF, 2, 0, [0xF0#8]) := by decide

/-- 95_test_vectors.md, A19. -/
theorem test_not_logical :
    after (start Config.cfg0 0x100 0x100 0x10 0#8 [0xA1#8] [0x05#8, 0x00#8] []) 0xFE 2 =
      some (0x11, 0xFE, 1, 0, [0x00#8, 0x00#8]) := by decide

/-- 95_test_vectors.md, A23. -/
theorem test_not_bitwise :
    after (start { Config.cfg0 with notKind := .bitwise } 0x100 0x100 0x10 0#8 [0xA3#8] [0x00#8, 0x00#8, 0x00#8,
      0x00#8, 0x00#8, 0x00#8, 0x00#8, 0x00#8] []) 0xF8 8 =
      some (0x11, 0xF8, 0, 0, [0xFF#8, 0xFF#8, 0xFF#8, 0xFF#8, 0x00#8, 0x00#8, 0x00#8, 0x00#8]) := by decide

/-- 95_test_vectors.md, F1. -/
theorem test_fadd :
    after (start Config.cfg0 0x100 0x100 0x10 0#8 [0xAC#8] [0x00#8, 0x00#8, 0x00#8, 0x40#8, 0x00#8, 0x00#8,
      0x80#8, 0x3F#8] []) 0xFC 4 =
      some (0x11, 0xFC, 0, 0, [0x00#8, 0x00#8, 0x40#8, 0x40#8]) := by decide

/-- 95_test_vectors.md, F2. -/
theorem test_fadd_zeros :
    after (start Config.cfg0 0x100 0x100 0x10 0#8 [0xAC#8] [0x00#8, 0x00#8, 0x00#8, 0x80#8, 0x00#8, 0x00#8,
      0x00#8, 0x00#8] []) 0xFC 4 =
      some (0x11, 0xFC, 1, 0, [0x00#8, 0x00#8, 0x00#8, 0x00#8]) := by decide

/-- 95_test_vectors.md, F4. -/
theorem test_fsub :
    after (start Config.cfg0 0x100 0x100 0x10 0#8 [0xAD#8] [0x00#8, 0x00#8, 0x00#8, 0x40#8, 0x00#8, 0x00#8,
      0x80#8, 0x3F#8] []) 0xFC 4 =
      some (0x11, 0xFC, 2, 0, [0x00#8, 0x00#8, 0x80#8, 0xBF#8]) := by decide

/-- 95_test_vectors.md, F5. -/
theorem test_fsub_equal :
    after (start Config.cfg0 0x100 0x100 0x10 0#8 [0xAD#8] [0xDB#8, 0x0F#8, 0x49#8, 0x40#8, 0xDB#8, 0x0F#8,
      0x49#8, 0x40#8] []) 0xFC 4 =
      some (0x11, 0xFC, 1, 0, [0x00#8, 0x00#8, 0x00#8, 0x00#8]) := by decide

/-- 95_test_vectors.md, F7. -/
theorem test_fmul_negative_zero :
    after (start Config.cfg0 0x100 0x100 0x10 0#8 [0xAE#8] [0x00#8, 0x00#8, 0x00#8, 0x00#8, 0x00#8, 0x00#8,
      0x80#8, 0xBF#8] []) 0xFC 4 =
      some (0x11, 0xFC, 1, 0, [0x00#8, 0x00#8, 0x00#8, 0x80#8]) := by decide

/-- 95_test_vectors.md, F9. -/
theorem test_fmul_overflow :
    after (start Config.cfg0 0x100 0x100 0x10 0#8 [0xAE#8] [0x00#8, 0x00#8, 0x00#8, 0x40#8, 0xFF#8, 0xFF#8,
      0x7F#8, 0x7F#8] []) 0xFC 4 =
      some (0x11, 0xFC, 0, 0, [0x00#8, 0x00#8, 0x80#8, 0x7F#8]) := by decide +kernel

/-- 95_test_vectors.md, F12. -/
theorem test_fdiv_by_zero :
    after (start Config.cfg0 0x100 0x100 0x10 0#8 [0xAF#8] [0x00#8, 0x00#8, 0x00#8, 0x80#8, 0x00#8, 0x00#8,
      0x80#8, 0x3F#8] []) 0xFC 4 =
      some (0x11, 0xFC, 1, 0, [0x00#8, 0x00#8, 0x00#8, 0x00#8]) := by decide

/-- 95_test_vectors.md, F15. -/
theorem test_fdiv_subnormal :
    after (start Config.cfg0 0x100 0x100 0x10 0#8 [0xAF#8] [0x00#8, 0x00#8, 0x00#8, 0x40#8, 0x00#8, 0x00#8,
      0x80#8, 0x00#8] []) 0xFC 4 =
      some (0x11, 0xFC, 0, 0, [0x00#8, 0x00#8, 0x40#8, 0x00#8]) := by decide

/-- 95_test_vectors.md, F21. -/
theorem test_convf_tie :
    after (start Config.cfg0 0x100 0x100 0x10 0#8 [0xBC#8] [0x01#8, 0x00#8, 0x00#8, 0x01#8] []) 0xFC 4 =
      some (0x11, 0xFC, 0, 0, [0x00#8, 0x00#8, 0x80#8, 0x4B#8]) := by decide

/-- 95_test_vectors.md, F32. -/
theorem test_convf_keeps_flags :
    after (start { Config.cfg0 with convSetsFlags := false } 0x100 0x100 0x10 2#8 [0xBC#8] [0x00#8, 0x00#8,
      0x00#8, 0x00#8] []) 0xFC 4 =
      some (0x11, 0xFC, 2, 0, [0x00#8, 0x00#8, 0x00#8, 0x00#8]) := by decide

/-- 95_test_vectors.md, F23. -/
theorem test_convi :
    after (start Config.cfg0 0x100 0x100 0x10 0#8 [0xBD#8] [0x00#8, 0x00#8, 0x20#8, 0xC0#8] []) 0xFC 4 =
      some (0x11, 0xFC, 2, 0, [0xFE#8, 0xFF#8, 0xFF#8, 0xFF#8]) := by decide

/-- 95_test_vectors.md, F24. -/
theorem test_convi_large :
    after (start Config.cfg0 0x100 0x100 0x10 0#8 [0xBD#8] [0xFF#8, 0xFF#8, 0xFF#8, 0x4E#8] []) 0xFC 4 =
      some (0x11, 0xFC, 0, 0, [0x80#8, 0xFF#8, 0xFF#8, 0x7F#8]) := by decide

/-- 95_test_vectors.md, B6. -/
theorem test_bra_backwards :
    after (start Config.cfg0 0x100 0x100 0x90 0#8 [0xC0#8, 0x80#8] [] []) 0x100 0 =
      some (0x12, 0x100, 0, 0, []) := by decide

/-- 95_test_vectors.md, B1. -/
theorem test_bra_pops_nothing :
    after (start { Config.cfg0 with branchSrc := .stack } 0x100 0x100 0x10 0#8 [0xC0#8, 0x04#8] [0x01#8, 0x00#8,
      0x00#8, 0x00#8] []) 0xFC 0 =
      some (0x16, 0xFC, 0, 0, []) := by decide

/-- 95_test_vectors.md, B9. -/
theorem test_beq_long :
    after (start Config.cfg0 0x300 0x300 0x200 1#8 [0xC3#8, 0xFD#8, 0xFF#8] [] []) 0x300 0 =
      some (0x200, 0x300, 1, 0, []) := by decide

/-- 95_test_vectors.md, section 2.7, STACK table. -/
theorem test_beq_stack :
    after (start { Config.cfg0 with branchSrc := .stack } 0x100 0x100 0x10 0#8 [0xC2#8, 0x04#8] [0xFF#8, 0xFF#8,
      0xFF#8, 0xFF#8] []) 0x100 0 =
      some (0x12, 0x100, 0, 0, []) := by decide

/-- 95_test_vectors.md, section 2.7, FLAGS table. -/
theorem test_bne_flags :
    after (start Config.cfg0 0x100 0x100 0x10 1#8 [0xC4#8, 0x04#8] [] []) 0x100 0 =
      some (0x12, 0x100, 1, 0, []) := by decide

/-- 95_test_vectors.md, section 2.7, STACK table. -/
theorem test_bne_stack :
    after (start { Config.cfg0 with branchSrc := .stack } 0x100 0x100 0x10 0#8 [0xC4#8, 0x04#8] [0x01#8, 0x00#8,
      0x00#8, 0x00#8] []) 0x100 0 =
      some (0x16, 0x100, 0, 0, []) := by decide

/-- 95_test_vectors.md, section 2.7, FLAGS table. -/
theorem test_blt_flags :
    after (start Config.cfg0 0x100 0x100 0x10 2#8 [0xC6#8, 0x04#8] [] []) 0x100 0 =
      some (0x16, 0x100, 2, 0, []) := by decide

/-- 95_test_vectors.md, section 2.7, STACK table. -/
theorem test_blt_stack :
    after (start { Config.cfg0 with branchSrc := .stack } 0x100 0x100 0x10 0#8 [0xC6#8, 0x04#8] [0xFF#8, 0xFF#8,
      0xFF#8, 0xFF#8] []) 0x100 0 =
      some (0x16, 0x100, 0, 0, []) := by decide

/-- 95_test_vectors.md, section 2.7, FLAGS table. -/
theorem test_bgt_flags :
    after (start Config.cfg0 0x100 0x100 0x10 2#8 [0xC8#8, 0x04#8] [] []) 0x100 0 =
      some (0x12, 0x100, 2, 0, []) := by decide

/-- 95_test_vectors.md, section 2.7, STACK table. -/
theorem test_bgt_stack :
    after (start { Config.cfg0 with branchSrc := .stack } 0x100 0x100 0x10 0#8 [0xC8#8, 0x04#8] [0x01#8, 0x00#8,
      0x00#8, 0x00#8] []) 0x100 0 =
      some (0x16, 0x100, 0, 0, []) := by decide

/-- 95_test_vectors.md, section 2.7, FLAGS table. -/
theorem test_ble_flags :
    after (start Config.cfg0 0x100 0x100 0x10 2#8 [0xCA#8, 0x04#8] [] []) 0x100 0 =
      some (0x16, 0x100, 2, 0, []) := by decide

/-- 95_test_vectors.md, section 2.7, STACK table. -/
theorem test_ble_stack :
    after (start { Config.cfg0 with branchSrc := .stack } 0x100 0x100 0x10 0#8 [0xCA#8, 0x04#8] [0x01#8, 0x00#8,
      0x00#8, 0x00#8] []) 0x100 0 =
      some (0x12, 0x100, 0, 0, []) := by decide

/-- 95_test_vectors.md, section 2.7, FLAGS table. -/
theorem test_bge_flags :
    after (start Config.cfg0 0x100 0x100 0x10 2#8 [0xCC#8, 0x04#8] [] []) 0x100 0 =
      some (0x12, 0x100, 2, 0, []) := by decide

/-- 95_test_vectors.md, section 2.7, STACK table. -/
theorem test_bge_stack :
    after (start { Config.cfg0 with branchSrc := .stack } 0x100 0x100 0x10 0#8 [0xCC#8, 0x04#8] [0x00#8, 0x00#8,
      0x00#8, 0x00#8] []) 0x100 0 =
      some (0x16, 0x100, 0, 0, []) := by decide

/-- 95_test_vectors.md, D7. -/
theorem test_bra_second_encoding :
    after (start Config.cfg0 0x100 0x100 0x10 0#8 [0xD0#8, 0x05#8] [] []) 0x100 0 =
      some (0x17, 0x100, 0, 0, []) := by decide

/-- 95_test_vectors.md, C1. -/
theorem test_call :
    after (start Config.cfg0 0x1000 0x1000 0x10 0#8 [0x40#8, 0x00#8, 0x02#8] [] []) 0xFFE 2 =
      some (0x200, 0xFFE, 0, 0, [0x13#8, 0x00#8]) := by decide

/-- 95_test_vectors.md, C7. -/
theorem test_call_return_address_wraps :
    after (start Config.cfg0 0x10000 0xFFF0 0xFFFD 0#8 [0x40#8, 0x00#8, 0x10#8] [] []) 0xFFEE 2 =
      some (0x1000, 0xFFEE, 0, 0, [0x00#8, 0x00#8]) := by decide

/-- 95_test_vectors.md, C3. -/
theorem test_calli :
    after (start Config.cfg0 0x100 0x100 0x50 0#8 [0x41#8] [0x00#8, 0x03#8] []) 0xFE 2 =
      some (0x300, 0xFE, 0, 0, [0x51#8, 0x00#8]) := by decide

/-- 95_test_vectors.md, C4. -/
theorem test_calli_empty :
    faultOf (start Config.cfg0 0x100 0x100 0x50 0#8 [0x41#8] [] []) = some 3 := by decide

/-- 95_test_vectors.md, C5. -/
theorem test_ret :
    after (start Config.cfg0 0x100 0x100 0x10 0#8 [0x42#8] [0x13#8, 0x00#8] []) 0x100 0 =
      some (0x13, 0x100, 0, 0, []) := by decide

/-- 95_test_vectors.md, D18. -/
theorem test_yield_at_the_top :
    after (start Config.cfg0 0x10000 0xFFFF 0xFFFF 0#8 [0xFE#8] [] []) 0xFFFF 0 =
      some (0x0, 0xFFFF, 0, -2, []) := by decide

/-- 95_test_vectors.md, C9. -/
theorem test_halt :
    after (start Config.cfg0 0x100 0x100 0x3 0#8 [0xFF#8] [] []) 0x100 0 =
      some (0x3, 0x100, 0, -1, []) := by decide

/-- 95_test_vectors.md, D12. -/
theorem test_unknown_outranks_truncated :
    faultOf (start Config.cfg0 0x100 0x100 0xFF 0#8 [0x04#8] [] []) = some 1 := by decide

/-- 95_test_vectors.md, D9. -/
theorem test_truncated :
    faultOf (start Config.cfg0 0x100 0x100 0xFF 0#8 [0x01#8] [] []) = some 4 := by decide

/-! ## Words written from the layouts of 30_encoding.md R93 to R105 -/

/-- R94: `0b00000_mm_ww`, with INDEXED_BYTE off. -/
theorem test_decode_load :
    decode Config.cfg0 [0b0000_00_10#8, 0x34#8, 0x12#8] = .ok (.loadDir 2 0x1234) ∧
      decode Config.cfg0 [0b0000_10_01#8] = .ok (.loadXw 1) ∧
      decode Config.cfg0 [0b0000_11_10#8, 0x78#8, 0x56#8, 0x34#8, 0x12#8] = .ok (.loadImm 2 0x12345678) := by decide

/-- R94, R95, with INDEXED_BYTE on. -/
theorem test_decode_indexed_byte :
    decode { Config.cfg0 with indexedByte := true } [0b0000_01_11#8, 0xFE#8] = .ok (.loadXb 3 0xFE) ∧
      decode { Config.cfg0 with indexedByte := true } [0b0001_01_00#8, 0x03#8] = .ok (.storeXb 0 3) ∧
      decode { Config.cfg0 with indexedByte := true } [0b0000_11_00#8, 0x05#8] = .error .unknownOpcode := by decide

/-- R95, R96: STORE and POP; 0x1A and 0x1B are no stores. -/
theorem test_decode_store :
    decode Config.cfg0 [0b0001_00_01#8, 0x00#8, 0x20#8] = .ok (.storeDir 1 0x2000) ∧
      decode Config.cfg0 [0b0001_10_01#8] = .ok (.storeXw 1) ∧
      decode Config.cfg0 [0b0001_10_10#8] = .error .unknownOpcode ∧
      decode Config.cfg0 [0b0001_11_11#8] = .ok (.pop 3) := by decide

/-- R97: `0b0010_kk_ww` and `0b0011_kk_ww`. -/
theorem test_decode_dup_dig :
    decode Config.cfg0 [0b0010_00_01#8] = .ok (.dup0 1) ∧ decode Config.cfg0 [0b0010_01_01#8] = .ok (.dup1 1) ∧
      decode Config.cfg0 [0b0010_10_01#8] = .ok (.dup2 1) ∧
      decode Config.cfg0 [0b0010_11_01#8, 0xFF#8] = .ok (.dupX 1 0xFF) ∧
      decode Config.cfg0 [0b0011_00_10#8] = .ok (.dig0 2) ∧ decode Config.cfg0 [0b0011_01_10#8] = .ok (.dig1 2) ∧
      decode Config.cfg0 [0b0011_10_10#8] = .ok (.dig2 2) ∧
      decode Config.cfg0 [0b0011_11_10#8, 0x00#8] = .ok (.digX 2 0) := by decide

/-- R98. -/
theorem test_decode_call :
    decode Config.cfg0 [0x40#8, 0x00#8, 0x02#8] = .ok (.call 0x0200) ∧ decode Config.cfg0 [0x41#8] = .ok .calli ∧
      decode Config.cfg0 [0x42#8] = .ok .ret ∧ decode Config.cfg0 [0x43#8] = .error .unknownOpcode := by decide

/-- R99: `0b10_oooo_ww`. -/
theorem test_decode_alu :
    decode Config.cfg0 [0b10_0000_01#8] = .ok (.add 1) ∧ decode Config.cfg0 [0b10_0001_10#8] = .ok (.sub 2) ∧
      decode Config.cfg0 [0b10_0010_11#8] = .ok (.mul 3) ∧ decode Config.cfg0 [0b10_0011_00#8] = .ok (.div 0) ∧
      decode Config.cfg0 [0b10_0100_01#8] = .ok (.mod 1) ∧ decode Config.cfg0 [0b10_0101_10#8] = .ok (.and 2) ∧
      decode Config.cfg0 [0b10_0110_11#8] = .ok (.or 3) ∧ decode Config.cfg0 [0b10_0111_00#8] = .ok (.xor 0) ∧
      decode Config.cfg0 [0b10_1000_01#8] = .ok (.not 1) ∧
      decode Config.cfg0 [0b10_1001_00#8] = .error .unknownOpcode := by decide

/-- R101, R102. -/
theorem test_decode_fpu :
    decode Config.cfg0 [0xAC#8] = .ok .fadd ∧ decode Config.cfg0 [0xAD#8] = .ok .fsub ∧
      decode Config.cfg0 [0xAE#8] = .ok .fmul ∧ decode Config.cfg0 [0xAF#8] = .ok .fdiv ∧
      decode Config.cfg0 [0xBC#8] = .ok .convf ∧ decode Config.cfg0 [0xBD#8] = .ok .convi ∧
      decode { Config.cfg0 with fpu := false } [0xAC#8] = .error .unknownOpcode := by decide

/-- R103, R104: `0b1100_ccc_s`. -/
theorem test_decode_branch :
    decode Config.cfg0 [0b1100_000_0#8, 0x80#8] = .ok (.bra (.d8 0x80)) ∧
      decode Config.cfg0 [0b1100_001_1#8, 0xFD#8, 0xFF#8] = .ok (.beq (.d16 0xFFFD)) ∧
      decode Config.cfg0 [0b1100_010_0#8, 0x04#8] = .ok (.bne (.d8 4)) ∧
      decode Config.cfg0 [0b1100_011_1#8, 0x34#8, 0x12#8] = .ok (.blt (.d16 0x1234)) ∧
      decode Config.cfg0 [0b1100_100_0#8, 0x7F#8] = .ok (.bgt (.d8 0x7F)) ∧
      decode Config.cfg0 [0b1100_101_1#8, 0x00#8, 0x80#8] = .ok (.ble (.d16 0x8000)) ∧
      decode Config.cfg0 [0b1100_110_0#8, 0xFF#8] = .ok (.bge (.d8 0xFF)) ∧
      decode Config.cfg0 [0b1100_111_0#8, 0x00#8] = .error .unknownOpcode := by decide

/-- R105. -/
theorem test_decode_system :
    decode Config.cfg0 [0xD0#8, 0x05#8] = .ok (.braAlt 5) ∧ decode Config.cfg0 [0xFE#8] = .ok .yield ∧
      decode Config.cfg0 [0xFF#8] = .ok .halt ∧ decode Config.cfg0 [] = .error .truncated := by decide

/-- A numbered word has the first byte in bits 7 to 0; missing operand bytes are zero (log entry 14). -/
theorem test_table_words :
    decodeTableWord 8 0x00 = some (.loadDir 0 0) ∧ decodeTableWord 16 0xFD05 = some (.loadXb 1 0xFD) ∧
      decodeTableWord 24 0x123440 = some (.call 0x1234) ∧ decodeTableWord 8 0xD0 = some (.braAlt 0) ∧
      decodeTableWord 8 0x1A = none := by decide

/-- An instruction word placed after reset is the one the next step fetches. -/
theorem test_fetch_word :
    (fetchInstr (State.reset.withFetchWord 24 0xFFFDC3)).toOption = some (.beq (.d16 0xFFFD)) ∧
      (fetchInstr (State.reset.withFetchWord 8 0x04)).toOption = some (.loadXb 0 0) := by decide

/-! ## Ill-formed terms -/

/-- Each presence check refuses a term of its group (30_encoding.md R94, R99, R101, R102). -/
theorem test_wf_present :
    (Instr.loadXb 0 0).wellFormed Config.cfg0 = false ∧ (Instr.storeXb 0 0).wellFormed Config.cfg0 = false ∧
      (Instr.loadImm 0 0).wellFormed { Config.cfg0 with indexedByte := true } = false ∧
      (∀ i ∈ [Instr.and 0, Instr.or 0, Instr.xor 0, Instr.not 0],
        i.wellFormed { Config.cfg0 with bitwise := false } = false) ∧
      ∀ i ∈ [Instr.fadd, Instr.fsub, Instr.fmul, Instr.fdiv, Instr.convf, Instr.convi],
        i.wellFormed { Config.cfg0 with fpu := false } = false := by decide

/-- Each operand check refuses the first value past its range (R95, R109). -/
theorem test_wf_operands :
    (Instr.storeXw 1).wellFormed Config.cfg0 = true ∧ (Instr.storeXw 2).wellFormed Config.cfg0 = false ∧
      (Instr.loadImm 0 0xFF).wellFormed Config.cfg0 = true ∧ (Instr.loadImm 0 0x100).wellFormed Config.cfg0 = false ∧
      (Instr.loadImm 3 0xFFFFFFFFFFFFFFFF).wellFormed Config.cfg0 = true ∧
      (Instr.loadImm 3 0x10000).wellFormed { Config.cfg0 with widthMode := .fixed16 } = false := by decide

/-! ## Memory and reset -/

/-- Writing keeps the canonical form, and writing the fill value leaves no entry. -/
theorem test_memory_canonical :
    (Memory.writeBytes [] 3 [1#8, 0#8, 2#8]).write 4 9#8 = [(3, 1#8), (4, 9#8), (5, 2#8)] ∧
      ((Memory.writeBytes [] 3 [1#8, 0#8, 2#8]).write 3 0#8) = [(5, 2#8)] := by decide

/-- The reset state has an empty stack and clear flags. -/
theorem test_reset :
    State.reset.sp = State.reset.sp0 ∧ State.reset.flags = 0 ∧ State.reset.ip = 0 ∧ State.reset.mem = [] := by decide

/-! ## The hypotheses of the obligations can be met -/

/-- The reset state with another stack, buffer size and configuration: all memory zero. -/
def small (c : Config) (sp sp0 memSize : Nat) : State :=
  { State.reset with cfg := c, sp := BitVec.ofNat 16 sp, sp0 := BitVec.ofNat 16 sp0, memSize := memSize }

/-- The default configuration with INDEXED_BYTE on. -/
abbrev cfgIB : Config := { Config.cfg0 with indexedByte := true }

/-- The default configuration with the STACK strategy. -/
abbrev cfgStack : Config := { Config.cfg0 with branchSrc := .stack }

theorem test_hyp_WellFormedLaunchIsLegal :
    Launch.default.wf ∧ { Launch.default with memSize := 1, sp0 := 1#16, mem0 := [(0, 5#8)] }.wf := by decide

theorem test_hyp_MemReadIsLittleEndian :
    (0xFFFF#16).toNat + Width.w1.bytes ≤ State.reset.memSize ∧ State.reset.memSize < (0xFFFF#16).toNat + Width.w2.bytes := by
  decide

theorem test_hyp_MemWriteIsLittleEndian :
    (0xFFFE#16).toNat + Width.w2.bytes ≤ State.reset.memSize ∧ State.reset.memSize < (0xFFFD#16).toNat + Width.w4.bytes := by
  decide

/-- With `sp` at the width, and one below it. -/
theorem test_hyp_PushDecrementsThenWrites :
    (small Config.cfg0 4 16 16).stackOk ∧ Width.w4.bytes ≤ (small Config.cfg0 4 16 16).sp.toNat ∧
      (small Config.cfg0 3 16 16).stackOk ∧ (small Config.cfg0 3 16 16).sp.toNat < Width.w4.bytes := by decide

/-- With the stack holding just the width, and one byte less. -/
theorem test_hyp_PopReadsThenIncrements :
    (small Config.cfg0 12 16 16).stackOk ∧ (small Config.cfg0 12 16 16).sp.toNat + Width.w4.bytes ≤ 16 ∧
      (small Config.cfg0 13 16 16).stackOk ∧ 16 < (small Config.cfg0 13 16 16).sp.toNat + Width.w4.bytes := by decide

theorem test_hyp_DecodeOfEncode :
    (Instr.storeXw 1).wellFormed Config.cfg0 = true ∧ (Instr.loadImm 0 0xFF).wellFormed Config.cfg0 = true ∧
      (Instr.loadXb 3 0xFF).wellFormed cfgIB = true := by decide

theorem test_hyp_EncodeOfDecode :
    decode Config.cfg0 [0x0C#8, 0xFF#8, 0x01#8] = .ok (.loadImm 0 0xFF) ∧
      decode cfgIB [0x14#8, 0x00#8] = .ok (.storeXb 0 0) := by decide

/-- A three-byte instruction in the last three bytes of the buffer. -/
theorem test_hyp_StepRunsTheDecodedInstruction :
    ∀ s, s = start Config.cfg0 16 16 13 0 [0x40#8, 0x00#8, 0x02#8] [] [] →
      s.ip.toNat < s.memSize ∧
        decode s.cfg (s.mem.readBytes s.ip.toNat (min 9 (s.memSize - s.ip.toNat))) = .ok (.call 0x0200) := by
  rintro _ rfl; decide

theorem test_hyp_StepRunsTheEncodedInstruction :
    ∀ s, s = start Config.cfg0 16 16 13 0 [0x40#8, 0x00#8, 0x02#8] [] [] →
      (Instr.call 0x0200).wellFormed s.cfg = true ∧ s.ip.toNat + (Instr.call 0x0200).length s.cfg ≤ s.memSize ∧
        s.mem.readBytes s.ip.toNat ((Instr.call 0x0200).length s.cfg) = encode s.cfg (.call 0x0200) := by
  rintro _ rfl; decide

/-- `ip` at the size of the buffer; an unknown opcode in its last byte; an operand one byte past its end. -/
theorem test_hyp_FetchFaultsInOrder :
    (∀ s, s = start Config.cfg0 16 16 16 0 [] [] [] → s.memSize ≤ s.ip.toNat) ∧
      (∀ s, s = start Config.cfg0 16 16 15 0 [0x04#8] [] [] →
        s.ip.toNat < s.memSize ∧ (decodeByte s.cfg (s.readByte s.ip.toNat)).isNone = true) ∧
      ∀ s, s = start Config.cfg0 16 16 14 0 [0x00#8, 0x00#8] [] [] →
        s.ip.toNat < s.memSize ∧
          (decodeByte s.cfg (s.readByte s.ip.toNat)).any (fun f => decide (s.memSize < s.ip.toNat + 1 + f.operandBytes)) =
            true := by
  refine ⟨?_, ?_, ?_⟩ <;> rintro _ rfl <;> decide

/-- The last word of the buffer with `sp` at the width; one byte past it; and `sp` one below the width. -/
theorem test_hyp_LoadDirectPushesTheBytesAtTheAddress :
    (∀ s, s = small Config.cfg0 2 16 16 →
      s.stackOk ∧ (0x00#8 ++ 0x0E#8).toNat + (s.width 1).bytes ≤ s.memSize ∧ (s.width 1).bytes ≤ s.sp.toNat ∧
        s.memSize < (0x00#8 ++ 0x0F#8).toNat + (s.width 1).bytes) ∧
      ∀ s, s = small Config.cfg0 1 16 16 → s.stackOk ∧ s.sp.toNat < (s.width 1).bytes := by
  refine ⟨?_, ?_⟩ <;> rintro _ rfl <;> decide

/-- Base 0: an effective address at the last byte and one past it; a stack of one byte; and no room for eight bytes. -/
theorem test_hyp_LoadIndexedBytePushesTheBytesAtBasePlusOffset :
    (∀ s, s = small cfgIB 14 16 16 →
      s.stackOk ∧ 15 = ((s.addrAt s.sp.toNat).toNat + (15#8).toNat) % 65536 ∧ s.sp.toNat + 2 ≤ s.sp0.toNat ∧
        15 + (s.width 0).bytes ≤ s.memSize ∧ (s.width 0).bytes ≤ s.sp.toNat + 2 ∧
        16 = ((s.addrAt s.sp.toNat).toNat + (16#8).toNat) % 65536 ∧ s.memSize < 16 + (s.width 0).bytes) ∧
      (∀ s, s = small cfgIB 15 16 16 → s.stackOk ∧ s.sp0.toNat < s.sp.toNat + 2) ∧
      (∀ s, s = small cfgIB 6 16 16 → s.stackOk ∧ (s.width 3).bytes ≤ s.sp.toNat + 2) ∧
      ∀ s, s = small cfgIB 5 16 16 → s.stackOk ∧ s.sp.toNat + 2 < (s.width 3).bytes := by
  refine ⟨?_, ?_, ?_, ?_⟩ <;> rintro _ rfl <;> decide

/-- The offset -1 on the base 0x10 is the last byte of the buffer, and the offset 0 one past it. -/
theorem test_hyp_LoadIndexedWordPushesTheBytesAtBasePlusOffset :
    (∀ s, s = start Config.cfg0 16 16 0 0 [] [0xFF#8, 0xFF#8, 0x10#8, 0x00#8] [] →
      s.stackOk ∧ ((15 : Nat) : Int) = (((s.addrAt (s.sp.toNat + 2)).toNat : Int) + (s.addrAt s.sp.toNat).toInt) % 65536 ∧
        s.sp.toNat + 4 ≤ s.sp0.toNat ∧ 15 + (s.width 0).bytes ≤ s.memSize ∧ (s.width 0).bytes ≤ s.sp.toNat + 4) ∧
      (∀ s, s = start Config.cfg0 16 16 0 0 [] [0x00#8, 0x00#8, 0x10#8, 0x00#8] [] →
        s.stackOk ∧
          ((16 : Nat) : Int) = (((s.addrAt (s.sp.toNat + 2)).toNat : Int) + (s.addrAt s.sp.toNat).toInt) % 65536 ∧
          s.memSize < 16 + (s.width 0).bytes) ∧
      (∀ s, s = small Config.cfg0 13 16 16 → s.stackOk ∧ s.sp0.toNat < s.sp.toNat + 4) ∧
      (∀ s, s = small Config.cfg0 4 16 16 → s.stackOk ∧ (s.width 3).bytes ≤ s.sp.toNat + 4) ∧
      ∀ s, s = small Config.cfg0 3 16 16 → s.stackOk ∧ s.sp.toNat + 4 < (s.width 3).bytes := by
  refine ⟨?_, ?_, ?_, ?_, ?_⟩ <;> rintro _ rfl <;> decide

/-- Width code 1 per opcode, with just the room and with one byte too little; and each FIXED mode, under a width code that
would select another width. -/
theorem test_hyp_LoadImmediatePushesTheInlineBytes :
    (∀ s, s = small Config.cfg0 2 16 16 → s.stackOk ∧ [1#8, 2#8].length = operandBytes s.cfg.widthMode 1 ∧ 2 ≤ s.sp.toNat) ∧
      (∀ s, s = small Config.cfg0 1 16 16 → s.stackOk ∧ [1#8, 2#8].length = operandBytes s.cfg.widthMode 1 ∧ s.sp.toNat < 2) ∧
      ∀ p ∈ [(WidthMode.fixed8, [1#8]), (.fixed16, [1#8, 2#8]), (.fixed32, [1#8, 2#8, 3#8, 4#8])],
        (small { Config.cfg0 with widthMode := p.1 } 4 16 16).stackOk ∧ p.2.length = operandBytes p.1 3 ∧ p.2.length ≤ 4 := by
  refine ⟨?_, ?_, by decide⟩ <;> rintro _ rfl <;> decide

theorem test_hyp_StoreDirectWritesThePoppedBytes :
    (∀ s, s = small Config.cfg0 14 16 16 →
      s.stackOk ∧ s.sp.toNat + (s.width 1).bytes ≤ s.sp0.toNat ∧
        (0x00#8 ++ 0x0E#8).toNat + (s.width 1).bytes ≤ s.memSize ∧
        s.memSize < (0x00#8 ++ 0x0F#8).toNat + (s.width 1).bytes) ∧
      ∀ s, s = small Config.cfg0 15 16 16 → s.stackOk ∧ s.sp0.toNat < s.sp.toNat + (s.width 1).bytes := by
  refine ⟨?_, ?_⟩ <;> rintro _ rfl <;> decide

theorem test_hyp_StoreIndexedByteWritesAtBasePlusOffset :
    (∀ s, s = small cfgIB 12 16 16 →
      s.stackOk ∧ 14 = ((s.addrAt (s.sp.toNat + (s.width 1).bytes)).toNat + (14#8).toNat) % 65536 ∧
        s.sp.toNat + (s.width 1).bytes + 2 ≤ s.sp0.toNat ∧ 14 + (s.width 1).bytes ≤ s.memSize ∧
        15 = ((s.addrAt (s.sp.toNat + (s.width 1).bytes)).toNat + (15#8).toNat) % 65536 ∧
        s.memSize < 15 + (s.width 1).bytes) ∧
      ∀ s, s = small cfgIB 13 16 16 → s.stackOk ∧ s.sp0.toNat < s.sp.toNat + (s.width 1).bytes + 2 := by
  refine ⟨?_, ?_⟩ <;> rintro _ rfl <;> decide

/-- Both width codes that have an encoding and one that has none; the offset -1 on the base 0x10. -/
theorem test_hyp_StoreIndexedWordWritesAtBasePlusOffset :
    ((1#2).toNat < 2 ∧ ¬(2#2).toNat < 2) ∧
      (∀ s, s = start Config.cfg0 16 16 0 0 [] [0x7F#8, 0xFF#8, 0xFF#8, 0x10#8, 0x00#8] [] →
        s.stackOk ∧ ((15 : Nat) : Int) = (((s.addrAt (s.sp.toNat + (s.width 0).bytes + 2)).toNat : Int) +
            (s.addrAt (s.sp.toNat + (s.width 0).bytes)).toInt) % 65536 ∧
          s.sp.toNat + (s.width 0).bytes + 4 ≤ s.sp0.toNat ∧ 15 + (s.width 0).bytes ≤ s.memSize) ∧
      (∀ s, s = start Config.cfg0 16 16 0 0 [] [0x7F#8, 0x00#8, 0x00#8, 0x10#8, 0x00#8] [] →
        s.stackOk ∧ ((16 : Nat) : Int) = (((s.addrAt (s.sp.toNat + (s.width 0).bytes + 2)).toNat : Int) +
            (s.addrAt (s.sp.toNat + (s.width 0).bytes)).toInt) % 65536 ∧
          s.memSize < 16 + (s.width 0).bytes) ∧
      ∀ s, s = small Config.cfg0 12 16 16 → s.stackOk ∧ s.sp0.toNat < s.sp.toNat + (s.width 0).bytes + 4 := by
  refine ⟨by decide, ?_, ?_, ?_⟩ <;> rintro _ rfl <;> decide

theorem test_hyp_PopDiscardsTheTopElement :
    (∀ s, s = small Config.cfg0 8 16 16 → s.stackOk ∧ s.sp.toNat + (s.width 3).bytes ≤ s.sp0.toNat) ∧
      ∀ s, s = small Config.cfg0 9 16 16 → s.stackOk ∧ s.sp0.toNat < s.sp.toNat + (s.width 3).bytes := by
  refine ⟨?_, ?_⟩ <;> rintro _ rfl <;> decide

theorem test_hyp_StoreThenLoadGivesTheValueBack :
    ∀ s, s = small Config.cfg0 12 16 16 →
      s.stackOk ∧ (12#16).toNat + (s.width 2).bytes ≤ s.memSize ∧ s.sp.toNat + (s.width 2).bytes ≤ s.sp0.toNat := by
  rintro _ rfl; decide

/-- A window up to `SP0` with `sp` at the width, by the extension byte and inline; a window one byte too long; no room. -/
theorem test_hyp_DupCopiesTheTopBelowTheGap :
    (∀ s, s = small Config.cfg0 2 16 16 →
      s.stackOk ∧ s.sp.toNat + (s.width 1).bytes + (12#8).toNat ≤ s.sp0.toNat ∧ (s.width 1).bytes ≤ s.sp.toNat ∧
        s.sp0.toNat < s.sp.toNat + (s.width 1).bytes + (13#8).toNat ∧
        s.sp.toNat + (s.width 1).bytes + 2 ≤ s.sp0.toNat) ∧
      ∀ s, s = small Config.cfg0 1 16 16 → s.stackOk ∧ s.sp.toNat < (s.width 1).bytes := by
  refine ⟨?_, ?_⟩ <;> rintro _ rfl <;> decide

theorem test_hyp_DigPushesTheBytesAtTheDepth :
    (∀ s, s = small Config.cfg0 4 16 16 →
      s.stackOk ∧ s.sp.toNat + (s.width 2).bytes + (8#8).toNat ≤ s.sp0.toNat ∧ (s.width 2).bytes ≤ s.sp.toNat ∧
        s.sp0.toNat < s.sp.toNat + (s.width 2).bytes + (9#8).toNat ∧
        s.sp.toNat + (s.width 2).bytes + 2 ≤ s.sp0.toNat) ∧
      ∀ s, s = small Config.cfg0 3 16 16 → s.stackOk ∧ s.sp.toNat < (s.width 2).bytes := by
  refine ⟨?_, ?_⟩ <;> rintro _ rfl <;> decide

theorem test_hyp_PopAfterDupAndDig :
    ∀ s, s = small Config.cfg0 8 32 32 →
      s.stackOk ∧ s.sp.toNat + (s.width 3).bytes + (16#8).toNat ≤ s.sp0.toNat ∧ (s.width 3).bytes ≤ s.sp.toNat := by
  rintro _ rfl; decide

theorem test_hyp_BinaryCommandsPushTheMaskedResult :
    (∀ s, s = small Config.cfg0 8 16 16 → s.stackOk ∧ s.sp.toNat + 2 * (s.width 2).bytes ≤ s.sp0.toNat) ∧
      ∀ s, s = small Config.cfg0 9 16 16 → s.stackOk ∧ s.sp0.toNat < s.sp.toNat + 2 * (s.width 2).bytes := by
  refine ⟨?_, ?_⟩ <;> rintro _ rfl <;> decide

/-- A divisor of 1, a divisor of 0, and a stack one byte short. -/
theorem test_hyp_DivAndModAreUnsignedAndFaultOnZero :
    (∀ s, s = start Config.cfg0 16 16 0 0 [] [0x01#8, 0x07#8] [] →
      s.stackOk ∧ s.sp.toNat + 2 * (s.width 0).bytes ≤ s.sp0.toNat ∧
        ((s.valueAt s.sp.toNat (s.width 0)).setWidth 32 : Acc).toNat ≠ 0) ∧
      (∀ s, s = start Config.cfg0 16 16 0 0 [] [0x00#8, 0x07#8] [] →
        s.stackOk ∧ s.sp.toNat + 2 * (s.width 0).bytes ≤ s.sp0.toNat ∧
          ((s.valueAt s.sp.toNat (s.width 0)).setWidth 32 : Acc).toNat = 0) ∧
      ∀ s, s = small Config.cfg0 15 16 16 → s.stackOk ∧ s.sp0.toNat < s.sp.toNat + 2 * (s.width 0).bytes := by
  refine ⟨?_, ?_, ?_⟩ <;> rintro _ rfl <;> decide

theorem test_hyp_NotIsLogicalOrBitwise :
    (∀ s, s = small Config.cfg0 12 16 16 →
      s.stackOk ∧ s.sp.toNat + (s.width 2).bytes ≤ s.sp0.toNat ∧ s.cfg.notKind = .logical) ∧
      (∀ s, s = small { Config.cfg0 with notKind := .bitwise } 12 16 16 →
        s.stackOk ∧ s.sp.toNat + (s.width 2).bytes ≤ s.sp0.toNat ∧ s.cfg.notKind = .bitwise) ∧
      ∀ s, s = small Config.cfg0 13 16 16 → s.stackOk ∧ s.sp0.toNat < s.sp.toNat + (s.width 2).bytes := by
  refine ⟨?_, ?_, ?_⟩ <;> rintro _ rfl <;> decide

/-- At the widest width of the law, all five commands give a next state. -/
theorem test_hyp_ArithmeticIsModularAtItsWidth :
    ∀ s, s = start Config.cfg0 16 16 0 0 [] [0x02#8, 0#8, 0#8, 0#8, 0x01#8, 0#8, 0#8, 0#8] [] →
      (s.width 2).bytes ≤ 4 ∧ (∃ t, exec (.add 2) s = .next t) ∧ (∃ t, exec (.sub 2) s = .next t) ∧
        (∃ t, exec (.mul 2) s = .next t) ∧ (∃ t, exec (.div 2) s = .next t) ∧ ∃ t, exec (.mod 2) s = .next t := by
  rintro _ rfl; exact ⟨by decide, ⟨_, rfl⟩, ⟨_, rfl⟩, ⟨_, rfl⟩, ⟨_, rfl⟩, ⟨_, rfl⟩⟩

theorem test_hyp_IntegerFlagsDescribeThePushedValue :
    IsAluCommand 3 (.sub 3) ∧ ∃ t, exec (.sub 3) (small Config.cfg0 0 16 16) = .next t :=
  ⟨by unfold IsAluCommand; decide, _, rfl⟩

theorem test_hyp_FloatCommandsPushTheFloatResult :
    (∀ s, s = small Config.cfg0 8 16 16 → s.stackOk ∧ s.sp.toNat + 8 ≤ s.sp0.toNat) ∧
      ∀ s, s = small Config.cfg0 9 16 16 → s.stackOk ∧ s.sp0.toNat < s.sp.toNat + 8 := by
  refine ⟨?_, ?_⟩ <;> rintro _ rfl <;> decide

/-- Infinity minus infinity, infinity plus minus infinity, zero times infinity and infinity divided by infinity. -/
theorem test_hyp_NaNResultsAreNaNsAndClearTheFlags :
    (∀ s, s = start Config.cfg0 16 16 0 0 [] [0#8, 0#8, 0x80#8, 0x7F#8, 0#8, 0#8, 0x80#8, 0x7F#8] [] →
      s.stackOk ∧ s.sp.toNat + 8 ≤ s.sp0.toNat ∧ f32Sub (s.accAt (s.sp.toNat + 4)) (s.accAt s.sp.toNat) = none ∧
        f32IsZero (s.accAt s.sp.toNat) = false ∧ f32Div (s.accAt (s.sp.toNat + 4)) (s.accAt s.sp.toNat) = none) ∧
      (∀ s, s = start Config.cfg0 16 16 0 0 [] [0#8, 0#8, 0x80#8, 0xFF#8, 0#8, 0#8, 0x80#8, 0x7F#8] [] →
        s.stackOk ∧ s.sp.toNat + 8 ≤ s.sp0.toNat ∧ f32Add (s.accAt (s.sp.toNat + 4)) (s.accAt s.sp.toNat) = none) ∧
      ∀ s, s = start Config.cfg0 16 16 0 0 [] [0#8, 0#8, 0x80#8, 0x7F#8, 0#8, 0#8, 0#8, 0#8] [] →
        s.stackOk ∧ s.sp.toNat + 8 ≤ s.sp0.toNat ∧ f32Mul (s.accAt (s.sp.toNat + 4)) (s.accAt s.sp.toNat) = none := by
  refine ⟨?_, ?_, ?_⟩ <;> rintro _ rfl <;> decide

/-- +infinity with the largest number, with -0.0 and with infinities. -/
theorem test_hyp_InfiniteOperandsGiveTheIeeeResults :
    f32IsInf 0x7F800000#32 = true ∧ f32IsFinite 0x7F7FFFFF#32 = true ∧ f32IsFinite 0x80000000#32 = true ∧
      f32IsNaN 0x7F7FFFFF#32 = false ∧ f32IsZero 0x7F7FFFFF#32 = false ∧
      f32Neg 0x7F800000#32 = 0xFF800000#32 ∧ f32IsInf 0xFF800000#32 = true := by decide

/-- Finite operands: zeros of either sign, whose exact sum is zero, and the largest number with half a unit in its last
place, whose exact sum is the overflow threshold. -/
theorem test_hyp_FloatSumAndDifferenceAreCorrectlyRounded :
    f32IsFinite 0x00000000#32 = true ∧ f32IsFinite 0x80000000#32 = true ∧
      f32Int 0x00000000#32 + f32Int 0x80000000#32 = 0 ∧ f32Int 0x00000000#32 - f32Int 0x80000000#32 = 0 ∧
      f32IsFinite 0x7F7FFFFF#32 = true ∧ f32IsFinite 0x73000000#32 = true ∧
      f32Int 0x7F7FFFFF#32 + f32Int 0x73000000#32 = f32Overflow := by decide

theorem test_hyp_FloatProductIsCorrectlyRounded :
    f32IsFinite 0x7F7FFFFF#32 = true ∧ f32IsFinite 0x00000001#32 = true ∧ f32IsFinite 0x80000000#32 = true := by decide

theorem test_hyp_FloatQuotientIsCorrectlyRounded :
    f32IsFinite 0x7F7FFFFF#32 = true ∧ f32IsFinite 0x80000001#32 = true ∧ f32IsZero 0x80000001#32 = false := by decide

theorem test_hyp_IntToFloatIsCorrectlyRounded :
    (0 : Acc) = 0 ∧ (0x80000000#32 : Acc).toInt = -(2 ^ 31) := by decide

theorem test_hyp_ConvfConvertsInPlace :
    (∀ s, s = small Config.cfg0 12 16 16 → s.stackOk ∧ s.sp.toNat + 4 ≤ s.sp0.toNat ∧ s.cfg.convSetsFlags = true) ∧
      (∀ s, s = small { Config.cfg0 with convSetsFlags := false } 12 16 16 →
        s.stackOk ∧ s.sp.toNat + 4 ≤ s.sp0.toNat ∧ s.cfg.convSetsFlags = false) ∧
      ∀ s, s = small Config.cfg0 13 16 16 → s.stackOk ∧ s.sp0.toNat < s.sp.toNat + 4 := by
  refine ⟨?_, ?_, ?_⟩ <;> rintro _ rfl <;> decide

/-- -2^31 is in range, 2^31 is not, and a NaN is not finite. -/
theorem test_hyp_ConviTruncatesInPlace :
    (∀ s, s = start Config.cfg0 16 16 0 0 [] [0#8, 0#8, 0#8, 0xCF#8] [] →
      s.stackOk ∧ s.sp.toNat + 4 ≤ s.sp0.toNat ∧ f32IsFinite (s.accAt s.sp.toNat) = true ∧
        (f32Int (s.accAt s.sp.toNat)).tdiv (2 ^ 149) = -(2 ^ 31)) ∧
      (∀ s, s = start Config.cfg0 16 16 0 0 [] [0#8, 0#8, 0#8, 0x4F#8] [] →
        s.stackOk ∧ s.sp.toNat + 4 ≤ s.sp0.toNat ∧ f32IsFinite (s.accAt s.sp.toNat) = true ∧
          (f32Int (s.accAt s.sp.toNat)).tdiv (2 ^ 149) = 2 ^ 31) ∧
      (∀ s, s = start Config.cfg0 16 16 0 0 [] [1#8, 0#8, 0x80#8, 0x7F#8] [] →
        s.stackOk ∧ s.sp.toNat + 4 ≤ s.sp0.toNat ∧ f32IsFinite (s.accAt s.sp.toNat) = false) ∧
      ∀ s, s = small Config.cfg0 13 16 16 → s.stackOk ∧ s.sp0.toNat < s.sp.toNat + 4 := by
  refine ⟨?_, ?_, ?_, ?_⟩ <;> rintro _ rfl <;> decide

theorem test_hyp_BranchesTestTheFlags : State.reset.cfg.branchSrc = .flags := by decide

/-- Popped values of 0, -1 and 1, and a stack one byte short. -/
theorem test_hyp_BranchesTestThePoppedValue :
    (∀ s, s = small cfgStack 12 16 16 →
      s.stackOk ∧ s.cfg.branchSrc = .stack ∧ s.sp.toNat + 4 ≤ s.sp0.toNat ∧ (s.accAt s.sp.toNat).toInt = 0) ∧
      (∀ s, s = start cfgStack 16 16 0 0 [] [0xFF#8, 0xFF#8, 0xFF#8, 0xFF#8] [] →
        s.stackOk ∧ s.cfg.branchSrc = .stack ∧ s.sp.toNat + 4 ≤ s.sp0.toNat ∧ (s.accAt s.sp.toNat).toInt = -1) ∧
      (∀ s, s = start cfgStack 16 16 0 0 [] [1#8, 0#8, 0#8, 0#8] [] →
        s.stackOk ∧ s.cfg.branchSrc = .stack ∧ s.sp.toNat + 4 ≤ s.sp0.toNat ∧ (s.accAt s.sp.toNat).toInt = 1) ∧
      ∀ s, s = small cfgStack 13 16 16 → s.stackOk ∧ s.cfg.branchSrc = .stack ∧ s.sp0.toNat < s.sp.toNat + 4 := by
  refine ⟨?_, ?_, ?_, ?_⟩ <;> rintro _ rfl <;> decide

theorem test_hyp_CallPushesTheReturnAddress :
    (small Config.cfg0 2 16 16).stackOk ∧ 2 ≤ (small Config.cfg0 2 16 16).sp.toNat ∧
      (small Config.cfg0 2 16 16).memSize ≤ (0x00#8 ++ 0x10#8).toNat ∧
      (small Config.cfg0 1 16 16).stackOk ∧ (small Config.cfg0 1 16 16).sp.toNat < 2 := by decide

theorem test_hyp_CalliReplacesTheTargetByTheReturnAddress :
    (small Config.cfg0 14 16 16).stackOk ∧ (small Config.cfg0 14 16 16).sp.toNat + 2 ≤ 16 ∧
      (small Config.cfg0 15 16 16).stackOk ∧ 16 < (small Config.cfg0 15 16 16).sp.toNat + 2 := by decide

theorem test_hyp_RetPopsTheReturnAddress :
    (small Config.cfg0 14 16 16).stackOk ∧ (small Config.cfg0 14 16 16).sp.toNat + 2 ≤ 16 ∧
      (small Config.cfg0 15 16 16).stackOk ∧ 16 < (small Config.cfg0 15 16 16).sp.toNat + 2 := by decide

/-- The state after the call is itself such a state: nothing ran in between. -/
theorem test_hyp_ReturnGoesBackToTheCaller :
    ∀ s, s = small Config.cfg0 14 16 16 →
      s.stackOk ∧ (∃ t, exec (.call 0x0005) s = .next t ∧ SameLaunch t t) ∧ ∃ t, exec .calli s = .next t := by
  rintro _ rfl; exact ⟨by decide, ⟨_, rfl, rfl, rfl, rfl⟩, ⟨_, rfl⟩⟩

theorem test_hyp_HaltStops :
    ∀ s, s = start Config.cfg0 16 16 15 0 [0xFF#8] [] [] →
      s.ip.toNat < s.memSize ∧ s.readByte s.ip.toNat = 0xFF#8 := by
  rintro _ rfl; decide

theorem test_hyp_OnlyYieldAndHaltSignal :
    ((∃ t, exec .ret (small Config.cfg0 14 16 16) = .next t) ∧ Instr.ret ≠ .yield ∧ Instr.ret ≠ .halt) ∧
      ∀ s, s = start Config.cfg0 16 16 0 0 [0x42#8] [0x00#8, 0x00#8] [] →
        (∃ t, step s = .next t) ∧ s.readByte s.ip.toNat ≠ 0xFE#8 ∧ s.readByte s.ip.toNat ≠ 0xFF#8 := by
  refine ⟨⟨⟨_, rfl⟩, by decide, by decide⟩, ?_⟩
  rintro _ rfl; exact ⟨⟨_, rfl⟩, by decide, by decide⟩

/-- A push in the first legal place: `sp` at the width, the buffer just as large as the code and the stack. -/
theorem test_hyp_EveryStepKeepsTheStateLegal :
    ∀ s, s = start Config.cfg0 4 4 2 0 [0x0C#8, 0x07#8] [] [] → s.inv ∧ ∃ t, step s = .next t := by
  rintro _ rfl; exact ⟨by decide, _, rfl⟩

/-- Address 2, the size of the buffer, holds a byte. -/
theorem test_hyp_NoStepWritesOutsideTheBuffer :
    ∀ s, s = start Config.cfg0 2 2 0 0 [0xFE#8] [] [(2, 9#8)] → (∃ t, step s = .next t) ∧ s.memSize ≤ 2 := by
  rintro _ rfl; exact ⟨⟨_, rfl⟩, by decide⟩

/-- Two states that differ in the byte at the size of the buffer. -/
theorem test_hyp_NoStepReadsOutsideTheBuffer :
    AgreeInTheBuffer (start Config.cfg0 2 2 0 0 [0xFE#8] [] [(2, 9#8)]) (start Config.cfg0 2 2 0 0 [0xFE#8] [] []) ∧
      (start Config.cfg0 2 2 0 0 [0xFE#8] [] [(2, 9#8)]).readByte 2 ≠ 0#8 := by
  refine ⟨⟨rfl, rfl, rfl, rfl, rfl, rfl, rfl, ?_⟩, ?_⟩ <;> decide

/-- RET, and CONVF with CONV_SETS_FLAGS off, complete and are no writers of the flags. -/
theorem test_hyp_OnlyTheListedWritersChangeTheFlags :
    ((∃ t, exec .ret (small Config.cfg0 14 16 16) = .next t) ∧ ¬WritesFlags Config.cfg0 .ret) ∧
      ∀ c, c = { Config.cfg0 with convSetsFlags := false } →
        (∃ t, exec .convf (small c 12 16 16) = .next t) ∧ ¬WritesFlags c .convf := by
  refine ⟨⟨⟨_, rfl⟩, ?_⟩, ?_⟩
  · simp [WritesFlags, IsAluCommand]
  · rintro _ rfl
    exact ⟨⟨_, rfl⟩, by simp [WritesFlags, IsAluCommand]⟩

theorem test_hyp_OnlyFlagBranchesReadTheFlags :
    (small cfgStack 12 16 16).cfg.branchSrc = .stack ∧
      ∀ d, Instr.halt ≠ .beq d ∧ Instr.halt ≠ .bne d ∧ Instr.halt ≠ .blt d ∧ Instr.halt ≠ .bgt d ∧ Instr.halt ≠ .ble d ∧
        Instr.halt ≠ .bge d := by
  exact ⟨rfl, by simp⟩

/-- A zero divisor with both operands just on the stack. -/
theorem test_hyp_DivideByZeroOnlyFromDivAndMod :
    ∀ s, s = small Config.cfg0 14 16 16 →
      s.sp.toNat + 2 * (s.width 0).bytes ≤ s.sp0.toNat ∧ s.sp.toNat + 2 * (s.width 0).bytes ≤ s.memSize ∧
        (s.valueAt s.sp.toNat (s.width 0)).toNat % 2 ^ 32 = 0 ∧ exec (.div 0) s = .fault .divideByZero := by
  rintro _ rfl; exact ⟨by decide, by decide, by decide, rfl⟩

/-- A fault of each kind, the one under the FLAGS strategy. -/
theorem test_hyp_InstructionFaultsAreTheListedOnes :
    exec .ret (small Config.cfg0 15 16 16) = .fault .boundsViolation ∧
      exec (.mod 0) (small Config.cfg0 14 16 16) = .fault .divideByZero ∧
      (small Config.cfg0 15 16 16).cfg.branchSrc = .flags := ⟨rfl, rfl, rfl⟩

end Sys2Proof.Tests
end

section
/-!
What an instruction may do to the working copy, said once for all 44: it moves `sp` inside the stack, writes bytes
inside the buffer, writes Z and N if it is a writer of the flags, and ends with an `ip` and a status. Each family's
operation is shown to be made of these changes, and what every instruction keeps is then an induction over them.
-/

namespace Sys2Proof.Machine

/-! ## The writers of the flags -/

/-- The writers of the flags (10_state.md R39) as a test, which evaluates at each instruction. -/
def flagWriter : Instr → Config → Bool
  | .add _, _ | .sub _, _ | .mul _, _ | .div _, _ | .mod _, _ | .and _, _ | .or _, _ | .xor _, _ | .not _, _ => true
  | .fadd, _ | .fsub, _ | .fmul, _ | .fdiv, _ => true
  | .convf, c | .convi, c => c.convSetsFlags
  | _, _ => false

theorem writesFlags_iff_flagWriter {c : Config} {i : Instr} : WritesFlags c i ↔ flagWriter i c = true := by
  cases i <;> simp [WritesFlags, IsAluCommand, flagWriter]

/-! ## The changes of a working copy -/

/-- The working copies that come from `s` by the changes an instruction makes; the flags only where `flags` holds. `sp`
goes down, or up to `SP0` at most (10_state.md R37), and every byte is written inside the buffer (20_memory.md R62). -/
inductive Changes (flags : Prop) (s : State) : State → Prop
  | refl : Changes flags s s
  | moveSp {t : State} {x : Addr} (h : Changes flags s t) (hx : x.toNat ≤ t.sp.toNat ∨ x.toNat ≤ t.sp0.toNat) :
      Changes flags s (t.withSp x)
  | write {t : State} {a : Nat} {bs : List Byte} (h : Changes flags s t) (hb : a + bs.length ≤ t.memSize) :
      Changes flags s (t.withMem (t.mem.writeBytes a bs))
  | setZN {t : State} {z n : Bool} (h : Changes flags s t) (hf : flags) : Changes flags s (t.setZN z n)
  | finish {t : State} {ip : Addr} {status : Status} (h : Changes flags s t) : Changes flags s (t.finish ip status)

namespace Changes

section
variable {flags : Prop} {s t : State}

theorem afterPush {w : Width} {v : Value} (h : Changes flags s t) (hw : w.bytes ≤ t.sp.toNat)
    (hm : t.sp.toNat ≤ t.memSize) : Changes flags s (afterPush w v t) := by
  refine (h.moveSp (.inl ?_)).write ?_
  · rw [toNat_sub_bytes hw]; omega
  · rw [leBytes_length, State.withSp_memSize]; omega

theorem afterPop {w : Width} (h : Changes flags s t) (hs : t.sp.toNat + w.bytes ≤ t.sp0.toNat) :
    Changes flags s (afterPop w t) :=
  h.moveSp (.inr (by rw [← afterPop_sp, afterPop_sp_toNat hs]; exact hs))

theorem continueAt {ip : Addr} (h : Changes flags s t) : Changes flags s (t.continueAt ip) := h.finish

theorem setIntFlags {w : Width} {r : Value} (h : Changes flags s t) (hf : flags) :
    Changes flags s (t.setIntFlags w r) := h.setZN hf

theorem setFloatFlags {r : Acc} (h : Changes flags s t) (hf : flags) : Changes flags s (t.setFloatFlags r) := h.setZN hf

/-! ### The shared operations -/

theorem push {w : Width} {v : Value} {u : State} (h : Changes flags s t) (he : push w v t = .ok u) :
    Changes flags s u := by
  obtain ⟨hw, hm, rfl⟩ := push_eq_ok.mp he
  exact h.afterPush hw hm

theorem pop {w : Width} {r : Value × State} (h : Changes flags s t) (he : pop w t = .ok r) : Changes flags s r.2 := by
  obtain ⟨hs, _, rfl⟩ := pop_eq_ok.mp he
  exact h.afterPop hs

theorem popAddr {r : Addr × State} (h : Changes flags s t) (he : popAddr t = .ok r) : Changes flags s r.2 := by
  obtain ⟨hs, _, rfl⟩ := popAddr_eq_ok.mp he
  exact h.afterPop (w := .w2) hs

theorem popAcc {r : Acc × State} (h : Changes flags s t) (he : popAcc t = .ok r) : Changes flags s r.2 := by
  obtain ⟨hs, _, rfl⟩ := popAcc_eq_ok.mp he
  exact h.afterPop (w := .w4) hs

theorem loadFrom {ea : Addr} {w : Width} {nip : Addr} {u : State} (h : Changes flags s t)
    (he : loadFrom ea w nip t = .ok u) : Changes flags s u := by
  obtain ⟨_, hw, hm, rfl⟩ := loadFrom_eq_ok.mp he
  exact (h.afterPush hw hm).continueAt

theorem storeTo {ea : Addr} {w : Width} {v : Value} {nip : Addr} {u : State} (h : Changes flags s t)
    (he : storeTo ea w v nip t = .ok u) : Changes flags s u := by
  obtain ⟨hb, rfl⟩ := storeTo_eq_ok.mp he
  exact (h.write (by rwa [leBytes_length])).continueAt

theorem dup {ww : BitVec 2} {k len : Nat} (he : dup ww k len s = .ok t) : Changes flags s t := by
  obtain ⟨_, hw, hm, rfl⟩ := dup_eq_ok.mp he
  refine ((refl.moveSp (.inl ?_)).write ?_).continueAt
  · rw [toNat_sub_bytes hw]; omega
  · rw [List.length_append, Memory.readBytes_length, Memory.readBytes_length, State.withSp_memSize]; omega

theorem dig {ww : BitVec 2} {k len : Nat} (he : dig ww k len s = .ok t) : Changes flags s t := by
  obtain ⟨_, hw, hm, rfl⟩ := dig_eq_ok.mp he
  refine ((refl.moveSp (.inl ?_)).write ?_).continueAt
  · rw [toNat_sub_bytes hw]; omega
  · rw [Memory.readBytes_length, State.withSp_memSize]; omega

theorem aluFinish {w : Width} {r : Acc} {nip : Addr} {u : State} (h : Changes flags s t) (hf : flags)
    (he : aluFinish w r nip t = .ok u) : Changes flags s u := by
  obtain ⟨hw, hm, rfl⟩ := aluFinish_eq_ok.mp he
  exact ((h.afterPush hw hm).setIntFlags hf).continueAt

theorem aluBinary {f : Acc → Acc → Except Fault Acc} {ww : BitVec 2} (hf : flags) (he : aluBinary f ww s = .ok t) :
    Changes flags s t := by
  obtain ⟨_, hb, he⟩ := bind_eq_ok.mp he
  obtain ⟨_, ha, he⟩ := bind_eq_ok.mp he
  obtain ⟨_, _, he⟩ := bind_eq_ok.mp he
  exact ((refl.pop hb).pop ha).aluFinish hf he

theorem aluUnary {f : Acc → Acc} {ww : BitVec 2} (hf : flags) (he : aluUnary f ww s = .ok t) : Changes flags s t := by
  obtain ⟨_, ha, he⟩ := bind_eq_ok.mp he
  exact (refl.pop ha).aluFinish hf he

theorem fpuBinary {f : Acc → Acc → Acc} (hf : flags) (he : fpuBinary f s = .ok t) : Changes flags s t := by
  obtain ⟨_, hb, he⟩ := bind_eq_ok.mp he
  obtain ⟨_, ha, he⟩ := bind_eq_ok.mp he
  obtain ⟨_, hr, he⟩ := bind_eq_ok.mp he
  cases he
  exact ((((refl.popAcc hb).popAcc ha).push hr).setFloatFlags hf).continueAt

theorem evalCond {cond : Cond} {r : Bool × State} (h : Changes flags s t) (he : evalCond cond t = .ok r) :
    Changes flags s r.2 := by
  obtain ⟨_, rfl⟩ | ⟨_, _, rfl⟩ | ⟨_, _, hs, _, rfl⟩ := evalCond_eq_ok he
  · exact h
  · exact h
  · exact h.afterPop (w := .w4) hs

theorem branch {cond : Cond} {d : Disp} (he : branch cond d s = .ok t) : Changes flags s t := by
  obtain ⟨_, hc, rfl⟩ := branch_eq_ok.mp he
  exact (refl.evalCond hc).continueAt

/-! ### What all the changes keep -/

theorem sameLaunch (h : Changes flags s t) : SameLaunch s t := by
  induction h with
  | refl => exact ⟨rfl, rfl, rfl⟩
  | moveSp _ _ ih | write _ _ ih | setZN _ _ ih | finish _ ih => exact ih

/-- Of the changes, `setZN` alone writes the flags (10_state.md R39). -/
theorem flags_eq (h : Changes flags s t) (hf : ¬flags) : t.flags = s.flags := by
  induction h with
  | refl => rfl
  | moveSp _ _ ih | write _ _ ih | finish _ ih => exact ih
  | setZN _ hw => exact absurd hw hf

theorem inv (h : Changes flags s t) (hs : s.inv) : t.inv := by
  induction h with
  | refl => exact hs
  | moveSp _ hx ih =>
    obtain ⟨hwf, hin, hsize, ⟨hsp, hsp0⟩, hflags⟩ := ih
    refine ⟨hwf, hin, hsize, ⟨?_, hsp0⟩, hflags⟩
    simp only [State.withSp_sp, State.withSp_sp0]
    omega
  | write _ hb ih =>
    obtain ⟨hwf, hin, hsize, hstack, hflags⟩ := ih
    refine ⟨Memory.wf_writeBytes hwf _ _, fun p hp => ?_, hsize, hstack, hflags⟩
    rcases Memory.mem_writeBytes hp with hp | hp
    · exact Nat.lt_of_lt_of_le hp hb
    · exact hin p hp
  | setZN _ _ ih =>
    obtain ⟨hwf, hin, hsize, hstack, hflags⟩ := ih
    exact ⟨hwf, hin, hsize, hstack, (State.setZN_reserved _ _ _).trans hflags⟩
  | finish _ ih => exact ih

end

end Changes

/-! ## Every instruction is made of these changes -/

/-- The conversions' flags are written under the option alone (43_fpu.md R208, R209). -/
theorem Changes.whenConvSetsFlags {s t u : State} (h : Changes (s.cfg.convSetsFlags = true) s t)
    (hu : s.cfg.convSetsFlags = true → Changes (s.cfg.convSetsFlags = true) s u) :
    Changes (s.cfg.convSetsFlags = true) s (t.whenConvSetsFlags u) := by
  obtain ⟨_, _, hcfg⟩ := h.sameLaunch
  unfold State.whenConvSetsFlags
  split
  · exact hu (hcfg ▸ ‹_›)
  · exact h

/-- Everything an instruction can do when it completes. -/
theorem exec_changes {i : Instr} {s t : State} (h : exec i s = .next t) :
    Changes (flagWriter i s.cfg = true) s t := by
  cases i with
  | loadDir => exact .loadFrom .refl (endStep_eq_next.mp h)
  | loadXb =>
    obtain ⟨_, hb, h⟩ := bind_eq_ok.mp (endStep_eq_next.mp h)
    exact (Changes.refl.popAddr hb).loadFrom h
  | loadXw =>
    obtain ⟨_, ho, h⟩ := bind_eq_ok.mp (endStep_eq_next.mp h)
    obtain ⟨_, hb, h⟩ := bind_eq_ok.mp h
    exact ((Changes.refl.popAddr ho).popAddr hb).loadFrom h
  | loadImm =>
    obtain ⟨_, hp, h⟩ := bind_eq_ok.mp (endStep_eq_next.mp h)
    cases h
    exact (Changes.refl.push hp).continueAt
  | storeDir =>
    obtain ⟨_, hv, h⟩ := bind_eq_ok.mp (endStep_eq_next.mp h)
    exact (Changes.refl.pop hv).storeTo h
  | storeXb =>
    obtain ⟨_, hv, h⟩ := bind_eq_ok.mp (endStep_eq_next.mp h)
    obtain ⟨_, hb, h⟩ := bind_eq_ok.mp h
    exact ((Changes.refl.pop hv).popAddr hb).storeTo h
  | storeXw =>
    obtain ⟨_, hv, h⟩ := bind_eq_ok.mp (endStep_eq_next.mp h)
    obtain ⟨_, ho, h⟩ := bind_eq_ok.mp h
    obtain ⟨_, hb, h⟩ := bind_eq_ok.mp h
    exact (((Changes.refl.pop hv).popAddr ho).popAddr hb).storeTo h
  | pop =>
    obtain ⟨_, hv, h⟩ := bind_eq_ok.mp (endStep_eq_next.mp h)
    cases h
    exact (Changes.refl.pop hv).continueAt
  | dup0 | dup1 | dup2 | dupX => exact .dup (endStep_eq_next.mp h)
  | dig0 | dig1 | dig2 | digX => exact .dig (endStep_eq_next.mp h)
  | call =>
    obtain ⟨_, hp, h⟩ := bind_eq_ok.mp (endStep_eq_next.mp h)
    cases h
    exact (Changes.refl.push hp).continueAt
  | calli =>
    obtain ⟨_, hv, h⟩ := bind_eq_ok.mp (endStep_eq_next.mp h)
    obtain ⟨_, hp, h⟩ := bind_eq_ok.mp h
    cases h
    exact ((Changes.refl.popAddr hv).push hp).continueAt
  | ret =>
    obtain ⟨_, hv, h⟩ := bind_eq_ok.mp (endStep_eq_next.mp h)
    cases h
    exact (Changes.refl.popAddr hv).continueAt
  | add | sub | mul | div | mod | and | or | xor => exact .aluBinary rfl (endStep_eq_next.mp h)
  | not => exact .aluUnary rfl (endStep_eq_next.mp h)
  | fadd | fsub | fmul | fdiv => exact .fpuBinary rfl (endStep_eq_next.mp h)
  | convf =>
    obtain ⟨_, hv, h⟩ := bind_eq_ok.mp (endStep_eq_next.mp h)
    obtain ⟨_, hr, h⟩ := bind_eq_ok.mp h
    cases h
    have ht : Changes (s.cfg.convSetsFlags = true) s _ := (Changes.refl.popAcc hv).push hr
    exact (ht.whenConvSetsFlags ht.setFloatFlags).continueAt
  | convi =>
    obtain ⟨_, hv, h⟩ := bind_eq_ok.mp (endStep_eq_next.mp h)
    obtain ⟨_, hr, h⟩ := bind_eq_ok.mp h
    cases h
    have ht : Changes (s.cfg.convSetsFlags = true) s _ := (Changes.refl.popAcc hv).push hr
    exact (ht.whenConvSetsFlags ht.setIntFlags).continueAt
  | bra | beq | bne | blt | bgt | ble | bge | braAlt => exact .branch (endStep_eq_next.mp h)
  | yield | halt => cases h; exact .finish .refl

/-- A step that completes has run an instruction (60_exceptions.md R251). -/
theorem step_eq_next {s t : State} : step s = .next t ↔ ∃ i, fetchInstr s = .ok i ∧ exec i s = .next t := by
  unfold step
  cases fetchInstr s <;> simp

/-- Settles O51: a completed step is made of changes, and all of them keep a legal state legal and its constants. -/
theorem everyStepKeepsTheStateLegal : Obligations.EveryStepKeepsTheStateLegal := by
  intro s t hs h
  obtain ⟨_, _, h⟩ := step_eq_next.mp h
  have hc := exec_changes h
  exact ⟨hc.inv hs, hc.sameLaunch⟩

/-- Settles O54: an instruction that is no writer of the flags is made of changes other than of the flags. -/
theorem onlyTheListedWritersChangeTheFlags : Obligations.OnlyTheListedWritersChangeTheFlags :=
  fun _ _ _ h hw => (exec_changes h).flags_eq (mt writesFlags_iff_flagWriter.mpr hw)

end Sys2Proof.Machine
end

section
/-!
What a step may depend on, said once for all 44 instructions: related states give the same fault or related next states,
for every relation that agrees on what a step reads (the bytes in the buffer, `ip`, `sp`, the constants) and that the
step's changes keep. The flags count only where a conditional branch tests them under the FLAGS strategy.
-/

namespace Sys2Proof.Machine

/-! ## The same answer -/

/-- Two answers are of one kind: related values, or the same fault. -/
def SameAnswer {α β : Type} (R : α → β → Prop) : Except Fault α → Except Fault β → Prop
  | .ok a, .ok b => R a b
  | .error e, .error f => e = f
  | _, _ => False

/-- Two popped elements with the working copies after them: the elements are the same. -/
def SamePopped {α : Type} (R : State → State → Prop) (p q : α × State) : Prop := p.1 = q.1 ∧ R p.2 q.2

theorem SameAnswer.of_eq {α : Type} {x y : Except Fault α} (h : x = y) : SameAnswer Eq x y := by
  subst h
  cases x <;> rfl

theorem SameAnswer.bind {α β γ δ : Type} {R : α → β → Prop} {S : γ → δ → Prop} {x : Except Fault α}
    {y : Except Fault β} {f : α → Except Fault γ} {g : β → Except Fault δ} (h : SameAnswer R x y)
    (hfg : ∀ a b, R a b → SameAnswer S (f a) (g b)) : SameAnswer S (x >>= f) (y >>= g) := by
  cases x <;> cases y
  case ok.ok a b => exact hfg a b h
  case error.error => exact h
  all_goals exact h.elim

theorem SameAnswer.endStep {R : State → State → Prop} {x y : Except Fault State} (h : SameAnswer R x y) :
    SameOutcome R (endStep x) (endStep y) := by
  cases x <;> cases y <;> exact h

theorem SameOutcome.imp {R S : State → State → Prop} {x y : Result} (h : SameOutcome R x y)
    (hRS : ∀ t u, x = .next t → R t u → S t u) : SameOutcome S x y := by
  cases x <;> cases y
  case next.next t u => exact hRS t u rfl h
  all_goals exact h

theorem SameOutcome.eq {x y : Result} (h : SameOutcome Eq x y) : x = y := by
  cases x <;> cases y
  case next.next | fault.fault | refused.refused => exact congrArg _ h
  all_goals exact h.elim

/-! ## Relations that a step cannot tell apart -/

/-- The relation agrees on everything a step reads but the flags, and every change of the working copy keeps it. -/
structure Congruence (R : State → State → Prop) : Prop where
  ip : ∀ {s t}, R s t → s.ip = t.ip
  sp : ∀ {s t}, R s t → s.sp = t.sp
  memSize : ∀ {s t}, R s t → s.memSize = t.memSize
  sp0 : ∀ {s t}, R s t → s.sp0 = t.sp0
  cfg : ∀ {s t}, R s t → s.cfg = t.cfg
  read : ∀ {s t}, R s t → ∀ a < s.memSize, s.mem.read a = t.mem.read a
  withSp : ∀ {s t}, R s t → ∀ x, R (s.withSp x) (t.withSp x)
  writeBytes : ∀ {s t}, R s t → ∀ a bs, R (s.withMem (s.mem.writeBytes a bs)) (t.withMem (t.mem.writeBytes a bs))
  setZN : ∀ {s t}, R s t → ∀ z n, R (s.setZN z n) (t.setZN z n)

/-- Two next states that come from related working copies by the same end of the step, with the same Z and N where
`writer` says that the instruction writes them under the configuration. -/
def SameEnd (R : State → State → Prop) (writer : Config → Bool) (t u : State) : Prop :=
  (∃ a b ip status, R a b ∧ t = a.finish ip status ∧ u = b.finish ip status) ∧
    (writer t.cfg = true → t.z = u.z ∧ t.n = u.n)

namespace Congruence

section
variable {R : State → State → Prop} {s t : State} (hR : Congruence R) (h : R s t)

include hR h

theorem nip (len : Nat) : s.nip len = t.nip len := by simp only [State.nip, hR.ip h]

theorem width (ww : BitVec 2) : s.width ww = t.width ww := by simp only [State.width, hR.cfg h]

theorem readBytes {a n : Nat} (hb : a + n ≤ s.memSize) : s.mem.readBytes a n = t.mem.readBytes a n :=
  Memory.readBytes_congr fun _ _ => hR.read h _ (by omega)

/-! ### The accesses -/

theorem readRange (a : Addr) (n : Nat) : readRange a n s = readRange a n t := by
  simp only [Machine.readRange, ← hR.memSize h]
  split
  · rw [hR.readBytes h ‹_›]
  · rfl

theorem memRead (a : Addr) (w : Width) : memRead a w s = memRead a w t := by
  simp only [Machine.memRead, hR.readRange h]

theorem writeRange (a : Addr) (bs : List Byte) : SameAnswer R (writeRange a bs s) (writeRange a bs t) := by
  simp only [Machine.writeRange, ← hR.memSize h]
  split
  · exact hR.writeBytes h _ _
  · rfl

theorem memWrite (a : Addr) (w : Width) (v : Value) : SameAnswer R (memWrite a w v s) (memWrite a w v t) :=
  hR.writeRange h _ _

theorem push (w : Width) (v : Value) : SameAnswer R (push w v s) (push w v t) := by
  simp only [Machine.push, ← hR.sp h]
  split
  · rfl
  · exact hR.memWrite (hR.withSp h _) _ _ _

theorem pop (w : Width) : SameAnswer (SamePopped R) (pop w s) (pop w t) := by
  simp only [Machine.pop, ← hR.sp h, ← hR.sp0 h]
  split
  · refine .bind (.of_eq (hR.memRead h _ _)) fun v _ hv => ?_
    exact ⟨hv, hR.withSp h _⟩
  · rfl

theorem popAddr : SameAnswer (SamePopped R) (popAddr s) (popAddr t) :=
  .bind (hR.pop h _) fun _ _ ⟨hv, hs⟩ => ⟨congrArg (BitVec.setWidth _) hv, hs⟩

theorem popAcc : SameAnswer (SamePopped R) (popAcc s) (popAcc t) :=
  .bind (hR.pop h _) fun _ _ ⟨hv, hs⟩ => ⟨congrArg (BitVec.setWidth _) hv, hs⟩

theorem pushAddr (a : Addr) : SameAnswer R (pushAddr a s) (pushAddr a t) := hR.push h _ _

theorem pushAcc (v : Acc) : SameAnswer R (pushAcc v s) (pushAcc v t) := hR.push h _ _

/-! ### The ends of the instructions -/

omit hR in
theorem finish (ip : Addr) (status : Status) : 
    SameAnswer (SameEnd R fun _ => false) (.ok (s.finish ip status)) (.ok (t.finish ip status)) :=
  ⟨⟨s, t, ip, status, h, rfl, rfl⟩, nofun⟩

omit hR in
theorem continueAt (ip : Addr) :
    SameAnswer (SameEnd R fun _ => false) (.ok (s.continueAt ip)) (.ok (t.continueAt ip)) := finish h _ _

theorem setZN_continueAt (writer : Config → Bool) (z n : Bool) (ip : Addr) :
    SameAnswer (SameEnd R writer) (.ok ((s.setZN z n).continueAt ip)) (.ok ((t.setZN z n).continueAt ip)) := by
  refine ⟨⟨_, _, ip, .continuing, hR.setZN h z n, rfl, rfl⟩, fun _ => ⟨?_, ?_⟩⟩
  · exact (s.setZN_z z n).trans (t.setZN_z z n).symm
  · exact (s.setZN_n z n).trans (t.setZN_n z n).symm

theorem whenConvSetsFlags (z n : Bool) (ip : Addr) :
    SameAnswer (SameEnd R Config.convSetsFlags) (.ok ((s.whenConvSetsFlags (s.setZN z n)).continueAt ip))
      (.ok ((t.whenConvSetsFlags (t.setZN z n)).continueAt ip)) := by
  simp only [State.whenConvSetsFlags, ← hR.cfg h]
  split
  · exact hR.setZN_continueAt h _ _ _ _
  · exact ⟨⟨s, t, ip, .continuing, h, rfl, rfl⟩, fun hw => absurd hw ‹_›⟩

/-! ### The families' shared operations -/

theorem loadFrom (ea : Addr) (w : Width) (nip : Addr) :
    SameAnswer (SameEnd R fun _ => false) (loadFrom ea w nip s) (loadFrom ea w nip t) := by
  refine .bind (.of_eq (hR.memRead h ea w)) ?_
  rintro v _ rfl
  exact .bind (hR.push h w v) fun _ _ h => continueAt h nip

theorem storeTo (ea : Addr) (w : Width) (v : Value) (nip : Addr) :
    SameAnswer (SameEnd R fun _ => false) (storeTo ea w v nip s) (storeTo ea w v nip t) :=
  .bind (hR.memWrite h ea w v) fun _ _ h => continueAt h nip

theorem checkWindow (w : Width) (k : Nat) : checkWindow w k s = checkWindow w k t := by
  simp only [Machine.checkWindow, hR.sp h, hR.sp0 h]

theorem dup (ww : BitVec 2) (k len : Nat) :
    SameAnswer (SameEnd R fun _ => false) (dup ww k len s) (dup ww k len t) := by
  simp only [Machine.dup, hR.width h, hR.nip h, hR.sp h]
  refine .bind (.of_eq (hR.checkWindow h _ _)) fun _ _ _ => .bind (.of_eq (hR.readRange h _ _)) ?_
  rintro bs _ rfl
  exact .bind (hR.writeRange (hR.withSp h _) _ _) fun _ _ h => continueAt h _

theorem dig (ww : BitVec 2) (k len : Nat) :
    SameAnswer (SameEnd R fun _ => false) (dig ww k len s) (dig ww k len t) := by
  simp only [Machine.dig, hR.width h, hR.nip h, hR.sp h]
  refine .bind (.of_eq (hR.checkWindow h _ _)) fun _ _ _ => .bind (.of_eq (hR.readRange h _ _)) ?_
  rintro bs _ rfl
  exact .bind (hR.writeRange (hR.withSp h _) _ _) fun _ _ h => continueAt h _

theorem aluFinish (w : Width) (r : Acc) (nip : Addr) :
    SameAnswer (SameEnd R fun _ => true) (aluFinish w r nip s) (aluFinish w r nip t) :=
  .bind (hR.push h w (aluResult w r)) fun _ _ h => hR.setZN_continueAt h _ _ _ _

theorem aluBinary (f : Acc → Acc → Except Fault Acc) (ww : BitVec 2) :
    SameAnswer (SameEnd R fun _ => true) (aluBinary f ww s) (aluBinary f ww t) := by
  simp only [Machine.aluBinary, hR.width h, hR.nip h]
  refine .bind (hR.pop h _) ?_
  rintro ⟨b, _⟩ ⟨_, _⟩ ⟨rfl, h⟩
  refine .bind (hR.pop h _) ?_
  rintro ⟨a, _⟩ ⟨_, _⟩ ⟨rfl, h⟩
  refine .bind (.of_eq rfl) ?_
  rintro r _ rfl
  exact hR.aluFinish h _ _ _

theorem aluUnary (f : Acc → Acc) (ww : BitVec 2) :
    SameAnswer (SameEnd R fun _ => true) (aluUnary f ww s) (aluUnary f ww t) := by
  simp only [Machine.aluUnary, hR.width h, hR.nip h]
  refine .bind (hR.pop h _) ?_
  rintro ⟨a, _⟩ ⟨_, _⟩ ⟨rfl, h⟩
  exact hR.aluFinish h _ _ _

theorem fpuBinary (f : Acc → Acc → Acc) : SameAnswer (SameEnd R fun _ => true) (fpuBinary f s) (fpuBinary f t) := by
  simp only [Machine.fpuBinary, hR.nip h]
  refine .bind (hR.popAcc h) ?_
  rintro ⟨b, _⟩ ⟨_, _⟩ ⟨rfl, h⟩
  refine .bind (hR.popAcc h) ?_
  rintro ⟨a, _⟩ ⟨_, _⟩ ⟨rfl, h⟩
  exact .bind (hR.pushAcc h _) fun _ _ h => hR.setZN_continueAt h _ _ _ _

/-- A condition reads the flags under the FLAGS strategy alone, and not even there if it is unconditional
(44_control.md R222, R223). -/
theorem evalCond {cond : Cond} (hc : s.cfg.branchSrc = .stack ∨ cond = .always ∨ s.z = t.z ∧ s.n = t.n) :
    SameAnswer (SamePopped R) (evalCond cond s) (evalCond cond t) := by
  simp only [Machine.evalCond, ← hR.cfg h]
  split
  · refine ⟨?_, h⟩
    obtain hs | rfl | ⟨hz, hn⟩ := hc
    · cases hs.symm.trans ‹_ = BranchSrc.flags›
    · rfl
    · rw [hz, hn]
  · split
    · exact ⟨rfl, h⟩
    · refine .bind (hR.popAcc h) ?_
      rintro ⟨v, _⟩ ⟨_, _⟩ ⟨rfl, h⟩
      exact ⟨rfl, h⟩

theorem branch {cond : Cond} (hc : s.cfg.branchSrc = .stack ∨ cond = .always ∨ s.z = t.z ∧ s.n = t.n) (d : Disp) :
    SameAnswer (SameEnd R fun _ => false) (branch cond d s) (branch cond d t) := by
  simp only [Machine.branch, hR.nip h]
  refine .bind (hR.evalCond h hc) ?_
  rintro ⟨taken, _⟩ ⟨_, _⟩ ⟨rfl, h⟩
  exact continueAt h _

end

end Congruence

/-! ## Every instruction and every step -/

/-- The condition that an instruction tests; every instruction but a conditional branch goes on whatever the flags. -/
def testedCond : Instr → Cond
  | .beq _ => .eq
  | .bne _ => .ne
  | .blt _ => .lt
  | .bgt _ => .gt
  | .ble _ => .le
  | .bge _ => .ge
  | _ => .always

theorem testedCond_eq_always {i : Instr}
    (h : ∀ d, i ≠ .beq d ∧ i ≠ .bne d ∧ i ≠ .blt d ∧ i ≠ .bgt d ∧ i ≠ .ble d ∧ i ≠ .bge d) :
    testedCond i = .always := by
  cases i with
  | beq d | bne d | blt d | bgt d | ble d | bge d => simpa using h d
  | _ => rfl

section
variable {R : State → State → Prop} {s t : State}

/-- An instruction cannot tell related states apart, but by the flags that its condition tests. -/
theorem exec_same (hR : Congruence R) (h : R s t) {i : Instr}
    (hc : s.cfg.branchSrc = .stack ∨ testedCond i = .always ∨ s.z = t.z ∧ s.n = t.n) :
    SameOutcome (SameEnd R (flagWriter i)) (exec i s) (exec i t) := by
  have hn := hR.nip h
  have hw := hR.width h
  cases i with
  | loadDir ww a16 =>
    simp only [exec, execLoadDir, hn, hw]
    exact (hR.loadFrom h _ _ _).endStep
  | loadXb ww off8 =>
    simp only [exec, execLoadXb, hn, hw]
    refine SameAnswer.endStep (.bind (hR.popAddr h) ?_)
    rintro ⟨base, _⟩ ⟨_, _⟩ ⟨rfl, h⟩
    exact hR.loadFrom h _ _ _
  | loadXw ww =>
    simp only [exec, execLoadXw, hn, hw]
    refine SameAnswer.endStep (.bind (hR.popAddr h) ?_)
    rintro ⟨off, _⟩ ⟨_, _⟩ ⟨rfl, h⟩
    refine .bind (hR.popAddr h) ?_
    rintro ⟨base, _⟩ ⟨_, _⟩ ⟨rfl, h⟩
    exact hR.loadFrom h _ _ _
  | loadImm ww imm =>
    simp only [exec, execLoadImm, hn, hw]
    exact SameAnswer.endStep (.bind (hR.push h _ _) fun _ _ h => Congruence.continueAt h _)
  | storeDir ww a16 =>
    simp only [exec, execStoreDir, hn, hw]
    refine SameAnswer.endStep (.bind (hR.pop h _) ?_)
    rintro ⟨v, _⟩ ⟨_, _⟩ ⟨rfl, h⟩
    exact hR.storeTo h _ _ _ _
  | storeXb ww off8 =>
    simp only [exec, execStoreXb, hn, hw]
    refine SameAnswer.endStep (.bind (hR.pop h _) ?_)
    rintro ⟨v, _⟩ ⟨_, _⟩ ⟨rfl, h⟩
    refine .bind (hR.popAddr h) ?_
    rintro ⟨base, _⟩ ⟨_, _⟩ ⟨rfl, h⟩
    exact hR.storeTo h _ _ _ _
  | storeXw ww =>
    simp only [exec, execStoreXw, hn, hw]
    refine SameAnswer.endStep (.bind (hR.pop h _) ?_)
    rintro ⟨v, _⟩ ⟨_, _⟩ ⟨rfl, h⟩
    refine .bind (hR.popAddr h) ?_
    rintro ⟨off, _⟩ ⟨_, _⟩ ⟨rfl, h⟩
    refine .bind (hR.popAddr h) ?_
    rintro ⟨base, _⟩ ⟨_, _⟩ ⟨rfl, h⟩
    exact hR.storeTo h _ _ _ _
  | pop ww =>
    simp only [exec, execPop, hn, hw]
    exact SameAnswer.endStep (.bind (hR.pop h _) fun _ _ h => Congruence.continueAt h.2 _)
  | dup0 | dup1 | dup2 | dupX => exact (hR.dup h _ _ _).endStep
  | dig0 | dig1 | dig2 | digX => exact (hR.dig h _ _ _).endStep
  | call a16 =>
    simp only [exec, execCall, hn]
    exact SameAnswer.endStep (.bind (hR.pushAddr h _) fun _ _ h => Congruence.continueAt h _)
  | calli =>
    simp only [exec, execCalli, hn]
    refine SameAnswer.endStep (.bind (hR.popAddr h) ?_)
    rintro ⟨target, _⟩ ⟨_, _⟩ ⟨rfl, h⟩
    exact .bind (hR.pushAddr h _) fun _ _ h => Congruence.continueAt h _
  | ret =>
    refine SameAnswer.endStep (.bind (hR.popAddr h) ?_)
    rintro ⟨target, _⟩ ⟨_, _⟩ ⟨rfl, h⟩
    exact Congruence.continueAt h _
  | add | sub | mul | div | mod | and | or | xor => exact (hR.aluBinary h _ _).endStep
  | not ww =>
    simp only [exec, execNot, hR.cfg h]
    exact (hR.aluUnary h _ _).endStep
  | fadd | fsub | fmul | fdiv => exact (hR.fpuBinary h _).endStep
  | convf =>
    simp only [exec, execConvf, hn]
    refine SameAnswer.endStep (.bind (hR.popAcc h) ?_)
    rintro ⟨v, _⟩ ⟨_, _⟩ ⟨rfl, h⟩
    exact .bind (hR.pushAcc h _) fun _ _ h => hR.whenConvSetsFlags h _ _ _
  | convi =>
    simp only [exec, execConvi, hn]
    refine SameAnswer.endStep (.bind (hR.popAcc h) ?_)
    rintro ⟨v, _⟩ ⟨_, _⟩ ⟨rfl, h⟩
    exact .bind (hR.pushAcc h _) fun _ _ h => hR.whenConvSetsFlags h _ _ _
  | bra | beq | bne | blt | bgt | ble | bge | braAlt => exact (hR.branch h hc _).endStep
  | yield =>
    simp only [exec, execYield, hn]
    exact (Congruence.finish h _ _).endStep
  | halt =>
    simp only [exec, execHalt, hR.ip h]
    exact (Congruence.finish h _ _).endStep

theorem fetchInstr_same (hR : Congruence R) (h : R s t) : fetchInstr s = fetchInstr t := by
  unfold fetchInstr
  rw [← hR.memSize h, ← hR.ip h, ← hR.cfg h]
  split
  · rfl
  · have hwindow : fetchWindow s = fetchWindow t := by
      unfold fetchWindow
      rw [← hR.memSize h, ← hR.ip h]
      exact hR.readBytes h (by omega)
    rw [hwindow]

/-- A step cannot tell related states with the same Z and N apart (60_exceptions.md R251). -/
theorem step_same (hR : Congruence R) (h : R s t) (hf : s.z = t.z ∧ s.n = t.n) :
    SameOutcome (SameEnd R fun _ => false) (step s) (step t) := by
  unfold step
  rw [← fetchInstr_same hR h]
  split
  · rfl
  · exact (exec_same hR h (.inr (.inr hf))).imp fun _ _ _ hend => ⟨hend.1, nofun⟩

end

/-! ## The flags and the status -/

/-- The states differ in the flags at most. -/
def SameButFlags (s t : State) : Prop := ∃ f, t = { s with flags := f }

/-- The states differ in the recorded status at most. -/
def SameButStatus (s t : State) : Prop := ∃ k, t = { s with status := k }

theorem SameButFlags.congruence : Congruence SameButFlags := by
  constructor <;> rintro s _ ⟨f, rfl⟩ <;> intros
  case withSp | writeBytes => exact ⟨f, rfl⟩
  case setZN => exact ⟨_, rfl⟩
  all_goals rfl

theorem SameButStatus.congruence : Congruence SameButStatus := by
  constructor <;> rintro s _ ⟨k, rfl⟩ <;> intros
  case withSp | writeBytes | setZN => exact ⟨k, rfl⟩
  all_goals rfl

/-- Settles O55: the changes of the working copy keep "the same but the flags", and a writer's new Z and N come from its
result alone. -/
theorem onlyFlagBranchesReadTheFlags : Obligations.OnlyFlagBranchesReadTheFlags := by
  intro i s f hi
  have hs := exec_same SameButFlags.congruence ⟨f, rfl⟩ (hi.imp_right fun h => .inl (testedCond_eq_always h))
  refine hs.imp ?_
  rintro t _ ht ⟨⟨a, _, ip, k, ⟨g, rfl⟩, rfl, rfl⟩, hflags⟩
  obtain ⟨_, _, hcfg⟩ := (exec_changes ht).sameLaunch
  exact ⟨rfl, fun hw => hflags (hcfg ▸ writesFlags_iff_flagWriter.mp hw)⟩

/-- Settles O56: the changes of the working copy keep "the same but the status", and the end of the step writes the
status, so nothing is left of the difference. -/
theorem noStepReadsTheLastStatus : Obligations.NoStepReadsTheLastStatus := by
  intro s k
  have hs := step_same SameButStatus.congruence (s := s) ⟨k, rfl⟩ ⟨rfl, rfl⟩
  refine (hs.imp ?_).eq.symm
  rintro _ _ _ ⟨⟨a, _, ip, k, ⟨_, rfl⟩, rfl, rfl⟩, _⟩
  rfl

end Sys2Proof.Machine
end

section
/-!
The byte order of memory, bit by bit: what a little-endian write leaves at each address and what each bit of a read value
is, and from it what MemRead, MemWrite and the stack engine do (20_memory.md R62 to R69).
-/

namespace Sys2Proof.Machine

/-! ## The bytes of a value -/

theorem leBytes_getElem? (n : Nat) (v : Value) (i : Nat) :
    (leBytes n v)[i]? = if i < n then some (v.extractLsb' (8 * i) 8) else none := by
  induction n generalizing v i with
  | zero => simp [leBytes]
  | succ n ih =>
    cases i with
    | zero => simp [leBytes, BitVec.setWidth_eq_extractLsb']
    | succ i =>
      have hshift : (v >>> 8).extractLsb' (8 * i) 8 = v.extractLsb' (8 * (i + 1)) 8 := by
        ext j hj
        simp [Nat.mul_add, Nat.add_comm 8, Nat.add_right_comm (8 * i) 8 j]
      simp [leBytes, ih, hshift]

/-! ## The bytes in memory -/

/-- A value written little-endian has its byte `i` at the address `a + i`. -/
theorem read_writeBytes_leBytes (m : Memory) (a n : Nat) (v : Value) {i : Nat} (hi : i < n) :
    (m.writeBytes a (leBytes n v)).read (a + i) = v.extractLsb' (8 * i) 8 := by
  rw [Memory.read_writeBytes, leBytes_length, if_pos ⟨Nat.le_add_right a i, Nat.add_lt_add_left hi a⟩,
    Nat.add_sub_cancel_left, List.getD_eq_getElem?_getD, leBytes_getElem?, if_pos hi, Option.getD_some]

/-- The frame of a little-endian write: no byte outside the `n` written ones changes. -/
theorem sameMemoryOutside_of_write {s t : State} {a n : Nat} {v : Value}
    (h : t.mem = s.mem.writeBytes a (leBytes n v)) : SameMemoryOutside a n s t := by
  intro x hx
  rw [State.readByte_eq, State.readByte_eq, h]
  exact s.mem.read_writeBytes_outside (by rw [leBytes_length]; omega)

/-- The byte at `a + i` is byte `i` of the value read at `a`: splitting that value gives back the bytes it was joined
from. -/
theorem extractLsb'_valueAt (s : State) (a : Nat) (w : Width) {i : Nat} (hi : i < w.bytes) :
    (s.valueAt a w).extractLsb' (8 * i) 8 = s.readByte (a + i) := by
  have hsplit : leBytes w.bytes (s.valueAt a w) = s.mem.readBytes a w.bytes := by
    have := leBytes_ofLE (s.mem.readBytes a w.bytes) (by rw [Memory.readBytes_length]; exact Width.bytes_le w)
    rwa [Memory.readBytes_length] at this
  have hbyte := congrArg (·[i]?) hsplit
  simpa only [leBytes_getElem?, Memory.readBytes_getElem?, if_pos hi, Option.some.injEq,
    State.readByte_eq] using hbyte

theorem valueAt_getLsbD (s : State) (a : Nat) (w : Width) {i j : Nat} (hi : i < w.bytes) (hj : j < 8) :
    (s.valueAt a w).getLsbD (8 * i + j) = (s.readByte (a + i)).getLsbD j := by
  rw [← extractLsb'_valueAt s a w hi, BitVec.getLsbD_extractLsb', decide_eq_true hj, Bool.true_and]

/-! ## MemRead, MemWrite, Push and Pop -/

/-- Settles O4: the value read is the joined bytes, whose bits are those of the bytes. -/
theorem memReadIsLittleEndian : Obligations.MemReadIsLittleEndian := by
  intro a w s
  refine ⟨fun hin => ?_, memRead_of_outOfBounds⟩
  exact ⟨_, memRead_of_inBounds hin, valueAt_lt s _ w, fun _ _ hi hj => valueAt_getLsbD s _ w hi hj⟩

/-- Settles O5: the write replaces the memory by one with the bytes of the value written over it, and no other field. -/
theorem memWriteIsLittleEndian : Obligations.MemWriteIsLittleEndian := by
  intro a w v s
  refine ⟨fun hin => ?_, memWrite_of_outOfBounds⟩
  exact ⟨_, memWrite_of_inBounds hin, fun _ hi => read_writeBytes_leBytes s.mem _ _ v hi,
    sameMemoryOutside_of_write rfl, rfl, rfl, rfl, rfl, rfl, rfl⟩

/-- Settles O6: with room below `sp` the answer is `afterPush`; the upper bound of MemWrite holds since the stack lies in
the buffer. -/
theorem pushDecrementsThenWrites : Obligations.PushDecrementsThenWrites := by
  rintro w v s ⟨hsp, hsp0⟩
  refine ⟨fun hroom => ?_, push_of_no_room⟩
  exact ⟨_, push_of_fits hroom (hsp.trans hsp0), afterPush_sp_toNat hroom,
    fun _ hi => read_writeBytes_leBytes s.mem _ _ v hi, sameMemoryOutside_of_write (afterPush_mem w v s),
    rfl, rfl, rfl, rfl, rfl⟩

/-- Settles O7: with the bytes on the stack the answer is the value at `sp` and `afterPop`, which keeps the memory; the
bound of MemRead holds since the stack lies in the buffer. -/
theorem popReadsThenIncrements : Obligations.PopReadsThenIncrements := by
  rintro w s ⟨_, hsp0⟩
  refine ⟨fun hholds => ?_, pop_of_short⟩
  have hin : s.sp.toNat + w.bytes ≤ s.memSize := hholds.trans hsp0
  exact ⟨_, _, pop_of_holds hholds hin, memRead_of_inBounds hin, afterPop_sp_toNat hholds, fun _ => rfl,
    rfl, rfl, rfl, rfl, rfl⟩

end Sys2Proof.Machine
end

section
/-!
The round trip of the decoder and the encoder (30_encoding.md R92 to R109). One way, each row's encoding is decoded by
the form of its opcode byte; the other way, the form that the decoder gives an opcode byte builds instructions that
encode back to it, shown along the decoder's branches.
-/

namespace Sys2Proof.Machine

/-! ## The operand width -/

theorem resolveWidth_bytes (c : Config) (ww : BitVec 2) :
    (resolveWidth c ww).bytes = operandBytes c.widthMode ww := by
  unfold resolveWidth operandBytes
  cases c.widthMode with
  | perOpcode => revert ww; decide
  | fixed8 | fixed16 | fixed32 => rfl

/-- Settles O59: the width of a state is the width of its configuration. -/
theorem widthIsTheCodesOrTheFixedOne : Obligations.WidthIsTheCodesOrTheFixedOne :=
  ⟨resolveWidth_bytes, fun s ww => resolveWidth_bytes s.cfg ww⟩

/-! ## The fields of an opcode byte -/

theorem widthCode_cases (ww : BitVec 2) : ww = 0 ∨ ww = 1 ∨ ww = 2 ∨ ww = 3 := by
  revert ww; decide

theorem sizeBit_cases (s : BitVec 1) : s = 0 ∨ s = 1 := by
  revert s; decide

theorem field_toNat (op : Byte) (start len : Nat) :
    (op.extractLsb' start len).toNat = op.toNat / 2 ^ start % 2 ^ len := by
  rw [BitVec.extractLsb'_toNat, Nat.shiftRight_eq_div_pow]

theorem ofNat_of_toNat {op : Byte} {n : Nat} (h : op.toNat = n) : BitVec.ofNat 8 n = op := by
  rw [← h, BitVec.ofNat_toNat, BitVec.setWidth_eq]

/-- A byte is its high six bits and its width code (30_encoding.md R92). -/
theorem append_widthCode {op : Byte} {n : Nat} (h : op.toNat / 4 = n) :
    BitVec.ofNat 6 n ++ op.extractLsb' 0 2 = op := by
  have hlow := field_toNat op 0 2
  have hlt := op.isLt
  apply BitVec.eq_of_toNat_eq
  rw [BitVec.toNat_append, ← Nat.shiftLeft_add_eq_or_of_lt (BitVec.isLt _), Nat.shiftLeft_eq, BitVec.toNat_ofNat]
  omega

/-- A branch's opcode byte is `0b1100_ccc_s` (30_encoding.md R103). -/
theorem append_sizeBit {op : Byte} {n : Nat} (h : op.toNat / 16 = 12) (hn : op.toNat / 2 % 8 = n) :
    0b1100#4 ++ BitVec.ofNat 3 n ++ op.extractLsb' 0 1 = op := by
  have hlow := field_toNat op 0 1
  apply BitVec.eq_of_toNat_eq
  rw [BitVec.toNat_append, BitVec.toNat_append, ← Nat.shiftLeft_add_eq_or_of_lt (BitVec.isLt _),
    ← Nat.shiftLeft_add_eq_or_of_lt (BitVec.isLt _), Nat.shiftLeft_eq, Nat.shiftLeft_eq, BitVec.toNat_ofNat,
    BitVec.toNat_ofNat]
  omega

/-! ## The operand bytes -/

theorem ofLE16_encode16 (a : Addr) : ofLE16 (encode16 a) = a := by
  rw [encode16, ofLE16_pair, BitVec.extractLsb'_append_extractLsb'_eq_extractLsb' (by decide)]
  exact BitVec.extractLsb'_eq_self

theorem encode16_ofLE16 (lo hi : Byte) : encode16 (ofLE16 [lo, hi]) = [lo, hi] := by
  rw [ofLE16_pair, encode16, BitVec.extractLsb'_append_eq_right, BitVec.extractLsb'_append_eq_left]

theorem dispForm_operandBytes (d : Disp) (mk : Disp → Instr) :
    (dispForm d.sizeBit mk).operandBytes = d.encode.length := by cases d <;> rfl

theorem dispForm_build (d : Disp) (mk : Disp → Instr) : (dispForm d.sizeBit mk).build d.encode = mk d := by
  cases d with
  | d8 => rfl
  | d16 a => exact congrArg (fun a => mk (.d16 a)) (ofLE16_encode16 a)

theorem encode_length (c : Config) (i : Instr) : (encode c i).length = i.length c := by
  cases i with
  | loadImm ww imm => exact Laws.EncodedLength.loadImm ww imm c
  | bra d | beq d | bne d | blt d | bgt d | ble d | bge d => exact Laws.branch_encode_length _ d
  | _ => rfl

/-! ## Decoding an encoding -/

/-- How every instruction's encoding decodes (30_encoding.md R92 to R109, R115). Once the width code or the size bit is
known, the decoder evaluates at the opcode byte; what is left are the operand bytes. -/
theorem decodesTo_encode {c : Config} {i : Instr} (hfit : i.operandsFit c = true) :
    DecodesTo c (encode c i) i (i.present c) := by
  cases i with
  | loadDir ww a | storeDir ww a =>
    obtain rfl | rfl | rfl | rfl := widthCode_cases ww <;>
      exact decodesTo_of_form rfl rfl (congrArg _ (ofLE16_encode16 a))
  | loadXb ww | storeXb ww | dupX ww | digX ww =>
    obtain rfl | rfl | rfl | rfl := widthCode_cases ww <;> exact decodesTo_of_form rfl rfl rfl
  | loadXw ww | pop ww | dup0 ww | dup1 ww | dup2 ww | dig0 ww | dig1 ww | dig2 ww | add ww | sub ww | mul ww | div ww
  | mod ww | and ww | or ww | xor ww | not ww =>
    obtain rfl | rfl | rfl | rfl := widthCode_cases ww <;> exact decodesTo_of_form rfl rfl rfl
  | loadImm ww imm =>
    have hbuild : Instr.loadImm ww (ofLE (leBytes (resolveWidth c ww).bytes imm)) = .loadImm ww imm := by
      rw [ofLE_leBytes, maskTo_of_lt (of_decide_eq_true hfit)]
    have hlen := (leBytes_length (resolveWidth c ww).bytes imm).symm
    obtain rfl | rfl | rfl | rfl := widthCode_cases ww <;> exact decodesTo_of_form rfl hlen hbuild
  | storeXw ww =>
    obtain rfl | rfl | rfl | rfl := widthCode_cases ww
    · exact decodesTo_of_form rfl rfl rfl
    · exact decodesTo_of_form rfl rfl rfl
    · cases hfit
    · cases hfit
  | call a => exact decodesTo_of_form rfl rfl (congrArg _ (ofLE16_encode16 a))
  | bra d | beq d | bne d | blt d | bgt d | ble d | bge d =>
    refine decodesTo_of_form (f := dispForm d.sizeBit _) ?_ (dispForm_operandBytes d _) (dispForm_build d _)
    generalize d.sizeBit = s
    obtain rfl | rfl := sizeBit_cases s <;> rfl
  | calli | ret | fadd | fsub | fmul | fdiv | convf | convi | braAlt | yield | halt =>
    exact decodesTo_of_form rfl rfl rfl

/-- Settles O8: a well-formed instruction is present, and its operands fit. -/
theorem decodeOfEncode : Obligations.DecodeOfEncode := by
  intro c i rest hwf
  obtain ⟨hpresent, hfit⟩ := Bool.and_eq_true_iff.mp hwf
  obtain ⟨hdecode, _⟩ := decodesTo_encode hfit
  rw [hdecode, hpresent, if_pos rfl]

/-- Settles O10: each of the words is the encoding of its instruction. -/
theorem sampleWordsDecode : Obligations.SampleWordsDecode :=
  ⟨decodeOfEncode .cfg0 (.loadDir 2 0x1234) [] rfl, decodeOfEncode .cfg0 (.storeXw 1) [] rfl,
    decodeOfEncode .cfg0 (.dupX 1 7) [] rfl, decodeOfEncode .cfg0 (.sub 1) [] rfl, decodeOfEncode .cfg0 .fdiv [] rfl,
    decodeOfEncode .cfg0 (.blt (.d16 0xFFFD)) [] rfl, decodeOfEncode .cfg0 (.call 0x0200) [] rfl⟩

/-! ## Encoding what was decoded -/

/-- What holds in both branches of a range test of the decoder. -/
theorem iteInduction_range {α : Type} {motive : α → Prop} {lo hi n : Nat} {x y : α}
    (hx : lo ≤ n → n ≤ hi → motive x) (hy : ¬(lo ≤ n ∧ n ≤ hi) → motive y) :
    motive (if lo ≤ n && n ≤ hi then x else y) := by
  rw [← Bool.decide_and]
  exact iteInduction (fun h => hx (of_decide_eq_true h).1 (of_decide_eq_true h).2) fun h => hy (mt decide_eq_true h)

/-- The form, if there is one, builds from as many operand bytes as it takes a well-formed instruction that encodes to
the opcode byte and these bytes. -/
def EncodesBack (c : Config) (op : Byte) (o : Option Form) : Prop :=
  ∀ f, o = some f → ∀ bs, bs.length = f.operandBytes →
    (f.build bs).wellFormed c = true ∧ encode c (f.build bs) = op :: bs

namespace EncodesBack

section
variable {c : Config} {op b : Byte}

theorem ite {p : Prop} {_ : Decidable p} {x y : Option Form} (hx : p → EncodesBack c op x)
    (hy : ¬p → EncodesBack c op y) : EncodesBack c op (if p then x else y) := iteInduction hx hy

theorem range {lo hi n : Nat} {x y : Option Form} (hx : lo ≤ n → n ≤ hi → EncodesBack c op x)
    (hy : EncodesBack c op y) : EncodesBack c op (if lo ≤ n && n ≤ hi then x else y) :=
  iteInduction_range hx fun _ => hy

theorem none : EncodesBack c op none := nofun

theorem formWhen {p : Bool} {f : Form} (h : p = true → EncodesBack c op (some f)) :
    EncodesBack c op (formWhen p f) := .ite h fun _ => none

theorem bare {i : Instr} (hpresent : i.present c = true) (hfit : i.operandsFit c = true) (henc : encode c i = [b])
    (hb : b = op) : EncodesBack c op (some (bareForm i)) := by
  rintro _ ⟨⟩ bs hbs
  obtain rfl := List.length_eq_zero_iff.mp hbs
  exact ⟨Bool.and_eq_true_iff.mpr ⟨hpresent, hfit⟩, hb ▸ henc⟩

theorem oneByte {mk : Byte → Instr} (hpresent : ∀ x, (mk x).present c = true)
    (hfit : ∀ x, (mk x).operandsFit c = true) (henc : ∀ x, encode c (mk x) = [b, x]) (hb : b = op) :
    EncodesBack c op (some ⟨1, fun bs => mk (firstByte bs)⟩) := by
  rintro _ ⟨⟩ bs hbs
  obtain ⟨x, rfl⟩ := List.length_eq_one_iff.mp hbs
  exact ⟨Bool.and_eq_true_iff.mpr ⟨hpresent x, hfit x⟩, hb ▸ henc x⟩

theorem twoBytes {mk : Addr → Instr} (hpresent : ∀ a, (mk a).present c = true)
    (hfit : ∀ a, (mk a).operandsFit c = true) (henc : ∀ a, encode c (mk a) = b :: encode16 a) (hb : b = op) :
    EncodesBack c op (some ⟨2, fun bs => mk (ofLE16 bs)⟩) := by
  rintro _ ⟨⟩ bs hbs
  obtain ⟨lo, hi, rfl⟩ := List.length_eq_two.mp hbs
  refine ⟨Bool.and_eq_true_iff.mpr ⟨hpresent _, hfit _⟩, (henc _).trans ?_⟩
  rw [hb, encode16_ofLE16]

/-- The operand of LOAD.IMM is as wide as the width in effect (30_encoding.md R100, R109). -/
theorem immediate {ww : BitVec 2} (hpresent : (!c.indexedByte) = true) (hb : 0b0000_11#6 ++ ww = op) :
    EncodesBack c op (some ⟨(resolveWidth c ww).bytes, fun bs => .loadImm ww (ofLE bs)⟩) := by
  rintro _ ⟨⟩ bs (hbs : bs.length = (resolveWidth c ww).bytes)
  have hfit : (ofLE bs).toNat < 2 ^ (8 * (resolveWidth c ww).bytes) := by
    rw [← maskTo_ofLE _ _ hbs, maskTo_toNat]
    exact Nat.mod_lt _ (by positivity)
  have hsplit := leBytes_ofLE bs (hbs.trans_le (Width.bytes_le _))
  refine ⟨Bool.and_eq_true_iff.mpr ⟨hpresent, decide_eq_true hfit⟩, ?_⟩
  rw [encode, hb, ← hbs, hsplit]

theorem disp {mk : Disp → Instr} {ccc : BitVec 3} {s : BitVec 1} (hpresent : ∀ d, (mk d).present c = true)
    (hfit : ∀ d, (mk d).operandsFit c = true) (henc : ∀ d, encode c (mk d) = encodeBranch ccc d)
    (hb : 0b1100#4 ++ ccc ++ s = op) : EncodesBack c op (some (dispForm s mk)) := by
  obtain rfl | rfl := sizeBit_cases s
  · exact .oneByte (mk := fun x => mk (.d8 x)) (fun _ => hpresent _) (fun _ => hfit _) (fun _ => henc _) hb
  · exact .twoBytes (mk := fun a => mk (.d16 a)) (fun _ => hpresent _) (fun _ => hfit _) (fun _ => henc _) hb

end

end EncodesBack

/-- The decoder's branches one by one: in each, the tests passed give the opcode byte's fixed bits, so that it is the
one of the row's layout. -/
theorem encodesBack_decodeByte (c : Config) (op : Byte) : EncodesBack c op (decodeByte c op) := by
  have hmode : (op.extractLsb' 2 2).toNat = op.toNat / 4 % 4 := field_toNat op 2 2
  have hcommand : (op.extractLsb' 2 4).toNat = op.toNat / 4 % 16 := field_toNat op 2 4
  have hcond : (op.extractLsb' 1 3).toNat = op.toNat / 2 % 8 := field_toNat op 1 3
  unfold decodeByte
  refine .ite (fun _ => ?load) fun _ => .ite (fun _ => ?store) fun _ => .range (fun _ _ => ?pop) <|
    .range (fun _ _ => ?dup) <| .range (fun _ _ => ?dig) <| .ite (fun hcall => ?call) fun _ =>
    .ite (fun hcalli => ?calli) fun _ => .ite (fun hret => ?ret) fun _ => .range (fun _ _ => ?alu) <|
    .ite (fun h => ?fadd) fun _ => .ite (fun h => ?fsub) fun _ => .ite (fun h => ?fmul) fun _ =>
    .ite (fun h => ?fdiv) fun _ => .ite (fun h => ?convf) fun _ => .ite (fun h => ?convi) fun _ =>
    .range (fun _ _ => ?branch) <| .ite (fun hbraAlt => ?braAlt) fun _ => .ite (fun hyield => ?yield) fun _ =>
    .ite (fun hhalt => ?halt) fun _ => .none
  case load =>
    split
    · exact .twoBytes (fun _ => rfl) (fun _ => rfl) (fun _ => rfl) (append_widthCode (by omega))
    · exact .formWhen fun hp => .oneByte (fun _ => hp) (fun _ => rfl) (fun _ => rfl) (append_widthCode (by omega))
    · exact .bare rfl rfl rfl (append_widthCode (by omega))
    · exact .formWhen fun hp => .immediate hp (append_widthCode (by grind))
  case store =>
    split
    · exact .twoBytes (fun _ => rfl) (fun _ => rfl) (fun _ => rfl) (append_widthCode (by omega))
    · exact .formWhen fun hp => .oneByte (fun _ => hp) (fun _ => rfl) (fun _ => rfl) (append_widthCode (by omega))
    · have hhigh : op.toNat / 4 = 6 := by grind
      have hww : (op.extractLsb' 0 2).toNat < 2 := by rw [field_toNat]; omega
      exact .bare rfl (decide_eq_true hww) rfl (append_widthCode hhigh)
  case pop => exact .bare rfl rfl rfl (append_widthCode (by omega))
  case dup | dig =>
    split
    case h_1 | h_2 | h_3 => exact .bare rfl rfl rfl (append_widthCode (by omega))
    case h_4 => exact .oneByte (fun _ => rfl) (fun _ => rfl) (fun _ => rfl) (append_widthCode (by grind))
  case alu =>
    split
    case h_1 | h_2 | h_3 | h_4 | h_5 => exact .bare rfl rfl rfl (append_widthCode (by omega))
    case h_6 | h_7 | h_8 | h_9 => exact .formWhen fun hp => .bare hp rfl rfl (append_widthCode (by omega))
    case h_10 => exact .none
  case branch =>
    split
    case h_8 => exact .none
    all_goals exact .disp (fun _ => rfl) (fun _ => rfl) (fun _ => rfl) (append_sizeBit (by omega) (by omega))
  case fadd | fsub | fmul | fdiv | convf | convi =>
    exact .formWhen fun hp => .bare hp rfl rfl (ofNat_of_toNat h)
  case call => exact .twoBytes (fun _ => rfl) (fun _ => rfl) (fun _ => rfl) (ofNat_of_toNat hcall)
  case calli => exact .bare rfl rfl rfl (ofNat_of_toNat hcalli)
  case ret => exact .bare rfl rfl rfl (ofNat_of_toNat hret)
  case braAlt => exact .oneByte (fun _ => rfl) (fun _ => rfl) (fun _ => rfl) (ofNat_of_toNat hbraAlt)
  case yield => exact .bare rfl rfl rfl (ofNat_of_toNat hyield)
  case halt => exact .bare rfl rfl rfl (ofNat_of_toNat hhalt)

/-- Settles O9: what decodes is built by the form of its opcode byte, and that form encodes back; the length is the
encoding's. -/
theorem encodeOfDecode : Obligations.EncodeOfDecode := by
  intro c bytes i h
  cases bytes with
  | nil => cases h
  | cons op rest =>
    obtain ⟨f, hf, hlen, rfl⟩ := decode_eq_ok.mp h
    have htake : (rest.take f.operandBytes).length = f.operandBytes := List.length_take_of_le hlen
    obtain ⟨hwf, henc⟩ := encodesBack_decodeByte c op f hf _ htake
    have hlength : (f.build (rest.take f.operandBytes)).length c = f.operandBytes + 1 := by
      rw [← encode_length, henc, List.length_cons, htake]
    rw [hlength]
    exact ⟨hwf, Nat.succ_le_succ hlen, henc⟩

end Sys2Proof.Machine
end

section
/-!
The unknown opcode bytes (30_encoding.md R106), shown along the decoder's branches: the tests passed put the byte, as a
number, in the list or outside it.
-/

namespace Sys2Proof.Machine

/-- The opcode bytes, as numbers, that are unknown under every configuration (30_encoding.md R106). -/
def UnknownAlways (n : Nat) : Prop :=
  n = 0x1A ∨ n = 0x1B ∨ (0x43 ≤ n ∧ n ≤ 0x7F) ∨ (0xA4 ≤ n ∧ n ≤ 0xAB) ∨ (0xB0 ≤ n ∧ n ≤ 0xBB) ∨
    n = 0xBE ∨ n = 0xBF ∨ n = 0xCE ∨ n = 0xCF ∨ (0xD1 ≤ n ∧ n ≤ 0xFD)

/-- The opcode bytes that are unknown under a configuration (30_encoding.md R106), with its options as the numbers 0 and
1, so that the list is linear arithmetic. -/
def ListedUnknown (c : Config) (n : Nat) : Prop :=
  UnknownAlways n ∨
    (c.indexedByte.toNat = 1 ∧ 0x0C ≤ n ∧ n ≤ 0x0F) ∨
    (c.indexedByte.toNat = 0 ∧ ((0x04 ≤ n ∧ n ≤ 0x07) ∨ (0x14 ≤ n ∧ n ≤ 0x17))) ∨
    (c.bitwise.toNat = 0 ∧ 0x94 ≤ n ∧ n ≤ 0xA3) ∨
    (c.fpu.toNat = 0 ∧ ((0xAC ≤ n ∧ n ≤ 0xAF) ∨ n = 0xBC ∨ n = 0xBD))

/-- There is no form exactly under the condition. -/
def UnknownIff (listed : Prop) (o : Option Form) : Prop := o = none ↔ listed

namespace UnknownIff

section
variable {listed : Prop}

theorem ite {p : Prop} {_ : Decidable p} {x y : Option Form} (hx : p → UnknownIff listed x)
    (hy : ¬p → UnknownIff listed y) : UnknownIff listed (if p then x else y) := iteInduction hx hy

theorem range {lo hi n : Nat} {x y : Option Form} (hx : lo ≤ n → n ≤ hi → UnknownIff listed x)
    (hy : ¬(lo ≤ n ∧ n ≤ hi) → UnknownIff listed y) : UnknownIff listed (if lo ≤ n && n ≤ hi then x else y) :=
  iteInduction_range hx hy

theorem known {f : Form} (h : ¬listed) : UnknownIff listed (some f) := iff_of_false nofun h

theorem unknown (h : listed) : UnknownIff listed none := iff_of_true rfl h

theorem formWhen {p : Bool} {f : Form} (hon : p.toNat = 1 → ¬listed) (hoff : p.toNat = 0 → listed) :
    UnknownIff listed (formWhen p f) := by
  cases p with
  | false => exact .unknown (hoff rfl)
  | true => exact .known (hon rfl)

end

end UnknownIff

/-- The decoder's branches one by one. Where a match ends in its default case, `hlast` says which numbers it is not. -/
theorem unknownIff_decodeByte (c : Config) (op : Byte) :
    UnknownIff (ListedUnknown c op.toNat) (decodeByte c op) := by
  have hmode : (op.extractLsb' 2 2).toNat = op.toNat / 4 % 4 := field_toNat op 2 2
  have hcommand : (op.extractLsb' 2 4).toNat = op.toNat / 4 % 16 := field_toNat op 2 4
  have hcond : (op.extractLsb' 1 3).toNat = op.toNat / 2 % 8 := field_toNat op 1 3
  have hlt := op.isLt
  unfold decodeByte ListedUnknown UnknownAlways
  refine .ite (fun _ => ?load) fun _ => .ite (fun _ => ?store) fun _ => .range (fun _ _ => .known ?pop) fun _ =>
    .range (fun _ _ => ?dup) fun _ => .range (fun _ _ => ?dig) fun _ => .ite (fun _ => .known ?call) fun _ =>
    .ite (fun _ => .known ?calli) fun _ => .ite (fun _ => .known ?ret) fun _ => .range (fun _ _ => ?alu) fun _ =>
    .ite (fun _ => ?fadd) fun _ => .ite (fun _ => ?fsub) fun _ => .ite (fun _ => ?fmul) fun _ =>
    .ite (fun _ => ?fdiv) fun _ => .ite (fun _ => ?convf) fun _ => .ite (fun _ => ?convi) fun _ =>
    .range (fun _ _ => ?branch) fun _ => .ite (fun _ => .known ?braAlt) fun _ =>
    .ite (fun _ => .known ?yield) fun _ => .ite (fun _ => .known ?halt) fun _ => .unknown (.inl ?rest)
  case load =>
    split
    case h_1 | h_3 => exact .known (by omega)
    case h_2 => exact .formWhen (by omega) (by omega)
    case h_4 h0 h1 h2 =>
      have hlast : _ ≠ 0 ∧ _ ≠ 1 ∧ _ ≠ 2 := ⟨h0, h1, h2⟩
      have hnot : (!c.indexedByte).toNat + c.indexedByte.toNat = 1 := by cases c.indexedByte <;> rfl
      exact .formWhen (by omega) (by omega)
  case store =>
    split
    case h_1 => exact .known (by omega)
    case h_2 => exact .formWhen (by omega) (by omega)
    case h_3 h0 h1 =>
      have hlast : _ ≠ 0 ∧ _ ≠ 1 := ⟨h0, h1⟩
      exact .known (by omega)
  case dup | dig => split <;> exact .known (by omega)
  case alu =>
    split
    case h_1 | h_2 | h_3 | h_4 | h_5 => exact .known (by omega)
    case h_6 | h_7 | h_8 | h_9 => exact .formWhen (by omega) (by omega)
    case h_10 h0 h1 h2 h3 h4 h5 h6 h7 h8 =>
      have hlast : _ ≠ 0 ∧ _ ≠ 1 ∧ _ ≠ 2 ∧ _ ≠ 3 ∧ _ ≠ 4 ∧ _ ≠ 5 ∧ _ ≠ 6 ∧ _ ≠ 7 ∧ _ ≠ 8 :=
        ⟨h0, h1, h2, h3, h4, h5, h6, h7, h8⟩
      exact .unknown (.inl (by omega))
  case branch =>
    split
    case h_8 h0 h1 h2 h3 h4 h5 h6 =>
      have hlast : _ ≠ 0 ∧ _ ≠ 1 ∧ _ ≠ 2 ∧ _ ≠ 3 ∧ _ ≠ 4 ∧ _ ≠ 5 ∧ _ ≠ 6 := ⟨h0, h1, h2, h3, h4, h5, h6⟩
      exact .unknown (.inl (by omega))
    all_goals exact .known (by omega)
  case fadd | fsub | fmul | fdiv | convf | convi => exact .formWhen (by omega) (by omega)
  case rest =>
    clear hmode hcommand hcond
    omega
  all_goals omega

/-- Settles O11: the list of bytes is the list of numbers. -/
theorem unknownOpcodesAreTheListedOnes : Obligations.UnknownOpcodesAreTheListedOnes := by
  intro c op
  refine (unknownIff_decodeByte c op).trans ?_
  simp only [ListedUnknown, UnknownAlways, or_assoc, Bool.toNat_eq_one, Bool.toNat_eq_zero, ← BitVec.toNat_inj,
    BitVec.le_def]
  rfl

end Sys2Proof.Machine
end

section
/-!
The faults of a step: an instruction's own are BOUNDS_VIOLATION and, for DIV and MOD, DIVIDE_BY_ZERO (60_exceptions.md
R258), so the other two are the decoder's, and they are raised as the fetch says (30_encoding.md R115).
-/

namespace Sys2Proof.Machine

/-! ## The faults of the instructions -/

/-- The only fault of an operation is BOUNDS_VIOLATION. -/
def OnlyBounds {α : Type} (x : Except Fault α) : Prop := ∀ f, x = .error f → f = .boundsViolation

namespace OnlyBounds

section
variable {α β : Type} {s : State}

theorem ok {a : α} : OnlyBounds (.ok a) := nofun

theorem bind {x : Except Fault α} {f : α → Except Fault β} (hx : OnlyBounds x) (hf : ∀ a, OnlyBounds (f a)) :
    OnlyBounds (x >>= f) := by
  intro e h
  obtain h | ⟨a, _, h⟩ := bind_eq_error.mp h
  · exact hx e h
  · exact hf a e h

theorem endStep {x : Except Fault State} {f : Fault} (hx : OnlyBounds x) (h : endStep x = .fault f) :
    f = .boundsViolation := hx f (endStep_eq_fault.mp h)

theorem pop {w : Width} : OnlyBounds (pop w s) := fun _ => pop_error

theorem popAddr : OnlyBounds (popAddr s) := fun _ => popAddr_error

theorem popAcc : OnlyBounds (popAcc s) := fun _ => popAcc_error

theorem push {w : Width} {v : Value} : OnlyBounds (push w v s) := fun _ => push_error

theorem loadFrom {ea : Addr} {w : Width} {nip : Addr} : OnlyBounds (loadFrom ea w nip s) := fun _ => loadFrom_error

theorem storeTo {ea : Addr} {w : Width} {v : Value} {nip : Addr} : OnlyBounds (storeTo ea w v nip s) :=
  fun _ => storeTo_error

/-- A binary command whose function never faults (42_alu.md R170). -/
theorem aluBinary {f : Acc → Acc → Acc} {ww : BitVec 2} : OnlyBounds (aluBinary (fun a b => .ok (f a b)) ww s) := by
  intro e h
  obtain h | ⟨_, _, h⟩ := aluBinary_error h
  · exact h
  · cases h

end

end OnlyBounds

/-- DIV and MOD fault on their pops, or with DIVIDE_BY_ZERO (42_alu.md R178, R179). -/
theorem divMod_error {g : Acc → Acc → Acc} {ww : BitVec 2} {s : State} {f : Fault}
    (h : aluBinary (fun a b => if b = 0 then .error .divideByZero else .ok (g a b)) ww s = .error f) :
    f = .boundsViolation ∨ f = .divideByZero := by
  obtain h | ⟨_, _, h⟩ := aluBinary_error h
  · exact .inl h
  · split at h
    · cases h; exact .inr rfl
    · cases h

/-- An instruction's own faults (60_exceptions.md R258). -/
theorem exec_eq_fault {i : Instr} {s : State} {f : Fault} (h : exec i s = .fault f) :
    f = .boundsViolation ∨ f = .divideByZero ∧ ∃ ww, i = .div ww ∨ i = .mod ww := by
  cases i with
  | div ww => exact (divMod_error (endStep_eq_fault.mp h)).imp_right fun hf => ⟨hf, ww, .inl rfl⟩
  | mod ww => exact (divMod_error (endStep_eq_fault.mp h)).imp_right fun hf => ⟨hf, ww, .inr rfl⟩
  | loadDir => exact .inl (OnlyBounds.loadFrom.endStep h)
  | loadXb => exact .inl ((OnlyBounds.popAddr.bind fun _ => .loadFrom).endStep h)
  | loadXw => exact .inl ((OnlyBounds.popAddr.bind fun _ => .bind .popAddr fun _ => .loadFrom).endStep h)
  | loadImm => exact .inl ((OnlyBounds.push.bind fun _ => .ok).endStep h)
  | storeDir => exact .inl ((OnlyBounds.pop.bind fun _ => .storeTo).endStep h)
  | storeXb => exact .inl ((OnlyBounds.pop.bind fun _ => .bind .popAddr fun _ => .storeTo).endStep h)
  | storeXw =>
    exact .inl ((OnlyBounds.pop.bind fun _ => .bind .popAddr fun _ => .bind .popAddr fun _ => .storeTo).endStep h)
  | pop => exact .inl ((OnlyBounds.pop.bind fun _ => .ok).endStep h)
  | dup0 | dup1 | dup2 | dupX => exact .inl (dup_error (endStep_eq_fault.mp h))
  | dig0 | dig1 | dig2 | digX => exact .inl (dig_error (endStep_eq_fault.mp h))
  | call => exact .inl ((OnlyBounds.push.bind fun _ => .ok).endStep h)
  | calli => exact .inl ((OnlyBounds.popAddr.bind fun _ => .bind .push fun _ => .ok).endStep h)
  | ret => exact .inl ((OnlyBounds.popAddr.bind fun _ => .ok).endStep h)
  | add | sub | mul | and | or | xor => exact .inl (OnlyBounds.aluBinary.endStep h)
  | not => exact .inl (aluUnary_error (endStep_eq_fault.mp h))
  | fadd | fsub | fmul | fdiv => exact .inl (fpuBinary_error (endStep_eq_fault.mp h))
  | convf | convi => exact .inl ((OnlyBounds.popAcc.bind fun _ => .bind .push fun _ => .ok).endStep h)
  | bra | beq | bne | blt | bgt | ble | bge | braAlt => exact .inl (branch_error (endStep_eq_fault.mp h))
  | yield | halt => cases h

/-! ## The errors of the decoder -/

theorem decode_eq_unknownOpcode {c : Config} {op : Byte} {rest : List Byte} :
    decode c (op :: rest) = .error .unknownOpcode ↔ decodeByte c op = none := by
  cases h : decodeByte c op with
  | none => simp [decode_of_unknown h]
  | some f =>
    rw [decode_of_form h]
    split <;> simp

theorem decode_eq_truncated {c : Config} {op : Byte} {rest : List Byte} :
    decode c (op :: rest) = .error .truncated ↔ ∃ f, decodeByte c op = some f ∧ rest.length < f.operandBytes := by
  cases h : decodeByte c op with
  | none => simp [decode_of_unknown h]
  | some f =>
    rw [decode_of_form h]
    by_cases hl : f.operandBytes ≤ rest.length
    · simp [hl]
    · simp [hl, Nat.lt_of_not_le hl]

/-! ## The faults of the fetch -/

/-- Inside the buffer the window is the opcode byte and up to eight bytes after it (30_encoding.md R108, R115). -/
theorem fetchWindow_eq_cons {s : State} (hip : s.ip.toNat < s.memSize) :
    fetchWindow s =
      s.readByte s.ip.toNat :: s.mem.readBytes (s.ip.toNat + 1) (min 8 (s.memSize - s.ip.toNat - 1)) := by
  have hsize : min maxLength (s.memSize - s.ip.toNat) = min 8 (s.memSize - s.ip.toNat - 1) + 1 := by
    rw [maxLength]; omega
  rw [fetchWindow, hsize, Memory.readBytes, State.readByte_eq]

theorem step_of_ip_outside {s : State} (hip : s.memSize ≤ s.ip.toNat) : step s = .fault .boundsViolation := by
  rw [step, fetchInstr, if_pos hip]

/-- No instruction raises a fault of the decoder, so a step raises one exactly when decoding fails (60_exceptions.md
R254, R257). -/
theorem step_eq_decodeFault {s : State} {e : DecodeError} :
    step s = .fault (decodeFault e) ↔ s.ip.toNat < s.memSize ∧ decode s.cfg (fetchWindow s) = .error e := by
  by_cases hip : s.memSize ≤ s.ip.toNat
  · rw [step_of_ip_outside hip]
    cases e <;> simp [decodeFault, Nat.not_lt.mpr hip]
  · rw [step, fetchInstr, if_neg hip]
    cases decode s.cfg (fetchWindow s) with
    | error e' => cases e <;> cases e' <;> simp [decodeFault, Nat.lt_of_not_le hip]
    | ok i =>
      have hexec : exec i s ≠ .fault (decodeFault e) := by
        intro h
        cases e <;> simpa [decodeFault] using exec_eq_fault h
      simpa using hexec

/-- Settles O14: the window starts with the opcode byte, and as an instruction has at most eight operand bytes, the
window is short of them exactly when the buffer is. -/
theorem fetchFaultsInOrder : Obligations.FetchFaultsInOrder := by
  intro s
  refine ⟨step_of_ip_outside, ?_, ?_⟩
  · refine (step_eq_decodeFault (e := .unknownOpcode)).trans (and_congr_right fun hip => ?_)
    rw [fetchWindow_eq_cons hip, decode_eq_unknownOpcode]
  · refine (step_eq_decodeFault (e := .truncated)).trans (and_congr_right fun hip => ?_)
    rw [fetchWindow_eq_cons hip, decode_eq_truncated, Memory.readBytes_length]
    refine exists_congr fun f => and_congr_right fun hf => ?_
    have hlen := operandBytes_le hf
    omega

end Sys2Proof.Machine
end

section
/-!
LOAD, STORE and POP (40_load_store.md R134 to R142). Each operation either passes its bounds checks, and then ends as
its postcondition says, or raises BOUNDS_VIOLATION; the instructions are sequences of such operations.
-/

namespace Sys2Proof.Machine

/-! ## Operations guarded by their bounds checks -/

/-- The operation answers with a result as in `Q` where `p` holds, and raises BOUNDS_VIOLATION where it does not. -/
def Guarded {α : Type} (p : Prop) (Q : α → Prop) (x : Except Fault α) : Prop :=
  (p → ∃ a, x = .ok a ∧ Q a) ∧ (¬p → x = .error .boundsViolation)

/-- The instruction completes in a state as in `Q` where `p` holds, and raises BOUNDS_VIOLATION where it does not. -/
def Completes (p : Prop) (Q : State → Prop) (r : Result) : Prop :=
  (p → ∃ t, r = .next t ∧ Q t) ∧ (¬p → r = .fault .boundsViolation)

namespace Guarded

section
variable {α β : Type} {p q : Prop}

theorem bind {P : α → Prop} {Q : β → Prop} {x : Except Fault α} {f : α → Except Fault β} (hx : Guarded p P x)
    (hf : ∀ a, P a → Guarded q Q (f a)) : Guarded (p ∧ q) Q (x >>= f) := by
  obtain ⟨hok, herror⟩ := hx
  by_cases hp : p
  · obtain ⟨a, rfl, ha⟩ := hok hp
    obtain ⟨hok, herror⟩ := hf a ha
    exact ⟨fun h => hok h.2, fun h => herror fun hq => h ⟨hp, hq⟩⟩
  · rw [herror hp]
    exact ⟨fun h => absurd h.1 hp, fun _ => rfl⟩

/-- What follows an operation and cannot fault leaves the check as it is. -/
theorem map {P : α → Prop} {Q : β → Prop} {x : Except Fault α} {f : α → β} (hx : Guarded p P x)
    (hf : ∀ a, P a → Q (f a)) : Guarded p Q (x >>= fun a => .ok (f a)) := by
  obtain ⟨hok, herror⟩ := hx
  refine ⟨fun hp => ?_, fun hp => by rw [herror hp, bind_error]⟩
  obtain ⟨a, rfl, ha⟩ := hok hp
  exact ⟨f a, rfl, hf a ha⟩

theorem endStep {Q : State → Prop} {x : Except Fault State} (hx : Guarded p Q x) :
    Completes p Q (endStep x) := by
  obtain ⟨hok, herror⟩ := hx
  refine ⟨fun hp => ?_, fun hp => endStep_eq_fault.mpr (herror hp)⟩
  obtain ⟨t, ht, hQ⟩ := hok hp
  exact ⟨t, endStep_eq_next.mpr ht, hQ⟩

end

end Guarded

/-! ## The working copy after pops, and the end of an instruction that writes -/

/-- Pops have moved the working copy's `sp` to `top`; its memory, flags and constants are those of `s`, whose stack
reaches up to `top` at least and lies in the buffer. -/
structure Popped (s : State) (top : Nat) (t : State) : Prop where
  mem : t.mem = s.mem
  flags : t.flags = s.flags
  sameLaunch : SameLaunch s t
  sp : t.sp.toNat = top
  inStack : top ≤ s.sp0.toNat
  inBuffer : s.sp0.toNat ≤ s.memSize

/-- The instruction ends at `ip` with `sp`, and of the memory it has written the `n` bytes from `a` upwards alone, byte
`i` of them being `byte i`. -/
def Wrote (s : State) (ip : Addr) (sp a n : Nat) (byte : Nat → Byte) (t : State) : Prop :=
  t.ip = ip ∧ t.sp.toNat = sp ∧ t.flags = s.flags ∧ t.status = .continuing ∧ SameLaunch s t ∧
    (∀ i < n, t.readByte (a + i) = byte i) ∧ SameMemoryOutside a n s t

theorem Popped.refl {s : State} (h : s.stackOk) : Popped s s.sp.toNat s :=
  ⟨rfl, rfl, ⟨rfl, rfl, rfl⟩, rfl, h.1, h.2⟩

namespace Popped

section
variable {s t : State} {top : Nat} (h : Popped s top t)

include h

theorem valueAt (a : Nat) (w : Width) : t.valueAt a w = s.valueAt a w := valueAt_congr h.mem a w

theorem afterPop {w : Width} (hw : top + w.bytes ≤ s.sp0.toNat) : Popped s (top + w.bytes) (afterPop w t) := by
  obtain ⟨_, hsp0, _⟩ := h.sameLaunch
  have hsp : (Machine.afterPop w t).sp.toNat = top + w.bytes := by
    rw [afterPop_sp_toNat (by rwa [h.sp, hsp0]), h.sp]
  exact ⟨h.mem, h.flags, h.sameLaunch, hsp, hw, h.inBuffer⟩

/-- Pop, from what is left of the stack (20_memory.md R69). -/
theorem pop (w : Width) :
    Guarded (top + w.bytes ≤ s.sp0.toNat) (fun r => r.1 = s.valueAt top w ∧ Popped s (top + w.bytes) r.2)
      (pop w t) := by
  obtain ⟨hsize, hsp0, _⟩ := h.sameLaunch
  constructor
  · intro hw
    refine ⟨_, pop_of_holds (by rwa [h.sp, hsp0]) ?_, ?_, h.afterPop hw⟩
    · rw [h.sp, hsize]; exact hw.trans h.inBuffer
    · rw [h.sp]; exact h.valueAt top w
  · intro hw
    exact pop_of_short (by rw [h.sp, hsp0]; exact Nat.lt_of_not_le hw)

/-- Popping an address (20_memory.md R71). -/
theorem popAddr :
    Guarded (top + 2 ≤ s.sp0.toNat) (fun r => r.1 = s.addrAt top ∧ Popped s (top + 2) r.2) (popAddr t) :=
  (h.pop .w2).map fun _ ⟨hv, ht⟩ => ⟨congrArg (BitVec.setWidth 16) hv, ht⟩

/-- What follows a pop goes on with the element that lay at `top`, from what is left of the stack above it. -/
theorem popThen {q : Prop} {Q : State → Prop} {w : Width} {f : Value × State → Except Fault State}
    (hf : ∀ u, Popped s (top + w.bytes) u → Guarded q Q (f (s.valueAt top w, u))) :
    Guarded (top + w.bytes ≤ s.sp0.toNat ∧ q) Q (Machine.pop w t >>= f) := by
  refine (h.pop w).bind ?_
  rintro ⟨_, u⟩ ⟨rfl, hu⟩
  exact hf u hu

theorem popAddrThen {q : Prop} {Q : State → Prop} {f : Addr × State → Except Fault State}
    (hf : ∀ u, Popped s (top + 2) u → Guarded q Q (f (s.addrAt top, u))) :
    Guarded (top + 2 ≤ s.sp0.toNat ∧ q) Q (Machine.popAddr t >>= f) := by
  refine h.popAddr.bind ?_
  rintro ⟨_, u⟩ ⟨rfl, hu⟩
  exact hf u hu

/-! ### The ends of the instructions -/

/-- A memory with a value written over it, and nothing else but the end of the step. -/
theorem wrote {u : State} {ip : Addr} {sp a : Nat} {w : Width} {v : Value} {byte : Nat → Byte}
    (hmem : u.mem = t.mem.writeBytes a (leBytes w.bytes v)) (hsp : u.sp.toNat = sp) (hflags : u.flags = t.flags)
    (hlaunch : SameLaunch t u) (hv : ∀ i < w.bytes, v.extractLsb' (8 * i) 8 = byte i) :
    Wrote s ip sp a w.bytes byte (u.continueAt ip) := by
  rw [h.mem] at hmem
  obtain ⟨hsize, hsp0, hcfg⟩ := h.sameLaunch
  obtain ⟨hsize', hsp0', hcfg'⟩ := hlaunch
  refine ⟨rfl, hsp, hflags.trans h.flags, rfl, ⟨hsize'.trans hsize, hsp0'.trans hsp0, hcfg'.trans hcfg⟩, ?_,
    sameMemoryOutside_of_write hmem⟩
  intro i hi
  rw [State.readByte_eq, State.continueAt_mem, hmem, read_writeBytes_leBytes _ _ _ _ hi, hv i hi]

/-- Push, with the bytes of the value (20_memory.md R68). -/
theorem pushThenContinue {w : Width} {v : Value} {byte : Nat → Byte} (ip : Addr)
    (hv : ∀ i < w.bytes, v.extractLsb' (8 * i) 8 = byte i) :
    Guarded (w.bytes ≤ top) (Wrote s ip (top - w.bytes) (top - w.bytes) w.bytes byte)
      (push w v t >>= fun u => .ok (u.continueAt ip)) := by
  obtain ⟨hsize, _, _⟩ := h.sameLaunch
  have hbuffer : t.sp.toNat ≤ t.memSize := by rw [h.sp, hsize]; exact h.inStack.trans h.inBuffer
  constructor
  · intro hw
    have hw : w.bytes ≤ t.sp.toNat := by rwa [h.sp]
    rw [push_of_fits hw hbuffer, ← h.sp]
    exact ⟨_, rfl, h.wrote rfl (afterPush_sp_toNat hw) rfl ⟨rfl, rfl, rfl⟩ hv⟩
  · intro hw
    rw [push_of_no_room (by rw [h.sp]; exact Nat.lt_of_not_le hw), bind_error]

/-- The bytes at the effective address are read before the push writes (40_load_store.md R134 to R136). -/
theorem loadFrom (ea : Addr) (w : Width) (ip : Addr) :
    Guarded (ea.toNat + w.bytes ≤ s.memSize ∧ w.bytes ≤ top)
      (Wrote s ip (top - w.bytes) (top - w.bytes) w.bytes fun i => s.readByte (ea.toNat + i))
      (loadFrom ea w ip t) := by
  obtain ⟨hsize, _, _⟩ := h.sameLaunch
  have hread : Guarded (ea.toNat + w.bytes ≤ s.memSize) (· = s.valueAt ea.toNat w) (memRead ea w t) := by
    rw [← hsize, ← h.valueAt]
    exact ⟨fun hb => ⟨_, memRead_of_inBounds hb, rfl⟩, fun hb => memRead_of_outOfBounds (Nat.lt_of_not_le hb)⟩
  refine hread.bind ?_
  rintro _ rfl
  exact h.pushThenContinue ip fun _ hi => extractLsb'_valueAt s _ w hi

/-- The popped bytes, which lay at `a` on the stack, are written at the effective address (40_load_store.md R138 to
R140). -/
theorem storeTo (ea : Addr) (w : Width) (a : Nat) (ip : Addr) :
    Guarded (ea.toNat + w.bytes ≤ s.memSize) (Wrote s ip top ea.toNat w.bytes fun i => s.readByte (a + i))
      (storeTo ea w (s.valueAt a w) ip t) := by
  obtain ⟨hsize, _, _⟩ := h.sameLaunch
  rw [← hsize]
  constructor
  · intro hb
    refine ⟨_, storeTo_eq_ok.mpr ⟨hb, rfl⟩, ?_⟩
    exact h.wrote rfl h.sp rfl ⟨rfl, rfl, rfl⟩ fun _ hi => extractLsb'_valueAt s a w hi
  · intro hb
    rw [Machine.storeTo, memWrite_of_outOfBounds (Nat.lt_of_not_le hb), bind_error]

end

end Popped

/-! ## The operands -/

/-- The offset of the indexed-byte mode is unsigned (40_load_store.md R130, R131). -/
theorem eaIndexedByte_toNat (base : Addr) (off8 : Byte) :
    (eaIndexedByte base off8).toNat = (base.toNat + off8.toNat) % 65536 := by
  rw [eaIndexedByte, BitVec.toNat_add, BitVec.toNat_setWidth_of_le (by decide)]

/-- The offset of the indexed-word mode is signed (40_load_store.md R130, R131). -/
theorem eaIndexedWord_toNat (base off : Addr) :
    ((eaIndexedWord base off).toNat : Int) = ((base.toNat : Int) + off.toInt) % 65536 := by
  rw [eaIndexedWord, BitVec.toNat_add, BitVec.toInt_eq_toNat_cond]
  split <;> omega

theorem encode16_append (lo hi : Byte) : encode16 (hi ++ lo) = [lo, hi] := by
  rw [← ofLE16_pair, encode16_ofLE16]

/-- The value joined from bytes has them for its bytes. -/
theorem extractLsb'_ofLE {bs : List Byte} (h : bs.length ≤ 8) {i : Nat} (hi : i < bs.length) :
    (ofLE bs).extractLsb' (8 * i) 8 = bs.getD i 0 := by
  have hbyte := leBytes_getElem? bs.length (ofLE bs) i
  rw [leBytes_ofLE bs h, if_pos hi] at hbyte
  rw [List.getD_eq_getElem?_getD, hbyte, Option.getD_some]

/-- The immediate of LOAD.IMM is as many bytes as the width in effect (30_encoding.md R100, R109). -/
theorem decodesTo_loadImm {c : Config} {ww : BitVec 2} {bs : List Byte}
    (h : bs.length = (resolveWidth c ww).bytes) :
    DecodesTo c ((0b0000_11#6 ++ ww) :: bs) (.loadImm ww (ofLE bs)) (!c.indexedByte) := by
  obtain rfl | rfl | rfl | rfl := widthCode_cases ww <;> exact decodesTo_of_form rfl h.symm rfl

/-! ## The instructions -/

section
variable {s : State} (hs : s.stackOk) (ww : BitVec 2)

include hs

/-- LOAD.DIR (40_load_store.md R134). -/
theorem exec_loadDir (a : Addr) :
    Completes (a.toNat + (s.width ww).bytes ≤ s.memSize ∧ (s.width ww).bytes ≤ s.sp.toNat)
      (Wrote s (s.nip 3) (s.sp.toNat - (s.width ww).bytes) (s.sp.toNat - (s.width ww).bytes) (s.width ww).bytes
        fun i => s.readByte (a.toNat + i))
      (exec (.loadDir ww a) s) :=
  ((Popped.refl hs).loadFrom a _ _).endStep

/-- LOAD.XB: the base is the top element (40_load_store.md R135). -/
theorem exec_loadXb (off8 : Byte) {ea : Nat} (hea : ea = ((s.addrAt s.sp.toNat).toNat + off8.toNat) % 65536) :
    Completes
      (s.sp.toNat + 2 ≤ s.sp0.toNat ∧ ea + (s.width ww).bytes ≤ s.memSize ∧ (s.width ww).bytes ≤ s.sp.toNat + 2)
      (Wrote s (s.nip 2) (s.sp.toNat + 2 - (s.width ww).bytes) (s.sp.toNat + 2 - (s.width ww).bytes)
        (s.width ww).bytes fun i => s.readByte (ea + i))
      (exec (.loadXb ww off8) s) := by
  rw [← eaIndexedByte_toNat] at hea
  subst hea
  exact Guarded.endStep <| (Popped.refl hs).popAddrThen fun _ ht => ht.loadFrom _ _ _

/-- LOAD.XW: the offset is the top element, the base lies below it (40_load_store.md R136). -/
theorem exec_loadXw {ea : Nat}
    (hea : (ea : Int) = (((s.addrAt (s.sp.toNat + 2)).toNat : Int) + (s.addrAt s.sp.toNat).toInt) % 65536) :
    Completes
      (s.sp.toNat + 2 ≤ s.sp0.toNat ∧ s.sp.toNat + 4 ≤ s.sp0.toNat ∧ ea + (s.width ww).bytes ≤ s.memSize ∧
        (s.width ww).bytes ≤ s.sp.toNat + 4)
      (Wrote s (s.nip 1) (s.sp.toNat + 4 - (s.width ww).bytes) (s.sp.toNat + 4 - (s.width ww).bytes)
        (s.width ww).bytes fun i => s.readByte (ea + i))
      (exec (.loadXw ww) s) := by
  rw [← eaIndexedWord_toNat, Int.natCast_inj] at hea
  subst hea
  exact Guarded.endStep <| (Popped.refl hs).popAddrThen fun _ ht => ht.popAddrThen fun _ ht => ht.loadFrom _ _ _

/-- LOAD.IMM (40_load_store.md R137). -/
theorem exec_loadImm {bs : List Byte} (hlen : bs.length = (s.width ww).bytes) :
    Completes (bs.length ≤ s.sp.toNat)
      (Wrote s (s.nip (1 + bs.length)) (s.sp.toNat - bs.length) (s.sp.toNat - bs.length) bs.length fun i => bs.getD i 0)
      (exec (.loadImm ww (ofLE bs)) s) := by
  have hle : bs.length ≤ 8 := hlen.trans_le (Width.bytes_le _)
  have hpush := (Popped.refl hs).pushThenContinue (w := s.width ww) (s.nip (1 + (s.width ww).bytes))
    fun _ hi => extractLsb'_ofLE hle (hi.trans_eq hlen.symm)
  rw [hlen]
  exact hpush.endStep

/-- STORE.DIR (40_load_store.md R138). -/
theorem exec_storeDir (a : Addr) :
    Completes (s.sp.toNat + (s.width ww).bytes ≤ s.sp0.toNat ∧ a.toNat + (s.width ww).bytes ≤ s.memSize)
      (Wrote s (s.nip 3) (s.sp.toNat + (s.width ww).bytes) a.toNat (s.width ww).bytes
        fun i => s.readByte (s.sp.toNat + i))
      (exec (.storeDir ww a) s) :=
  Guarded.endStep <| (Popped.refl hs).popThen fun _ ht => ht.storeTo _ _ _ _

/-- STORE.XB: the base lies below the value (40_load_store.md R139). -/
theorem exec_storeXb (off8 : Byte) {ea : Nat}
    (hea : ea = ((s.addrAt (s.sp.toNat + (s.width ww).bytes)).toNat + off8.toNat) % 65536) :
    Completes
      (s.sp.toNat + (s.width ww).bytes ≤ s.sp0.toNat ∧ s.sp.toNat + (s.width ww).bytes + 2 ≤ s.sp0.toNat ∧
        ea + (s.width ww).bytes ≤ s.memSize)
      (Wrote s (s.nip 2) (s.sp.toNat + (s.width ww).bytes + 2) ea (s.width ww).bytes
        fun i => s.readByte (s.sp.toNat + i))
      (exec (.storeXb ww off8) s) := by
  rw [← eaIndexedByte_toNat] at hea
  subst hea
  exact Guarded.endStep <| (Popped.refl hs).popThen fun _ ht => ht.popAddrThen fun _ ht => ht.storeTo _ _ _ _

/-- STORE.XW: the offset lies below the value, the base below the offset (40_load_store.md R140). -/
theorem exec_storeXw {ea : Nat}
    (hea : (ea : Int) = (((s.addrAt (s.sp.toNat + (s.width ww).bytes + 2)).toNat : Int) +
      (s.addrAt (s.sp.toNat + (s.width ww).bytes)).toInt) % 65536) :
    Completes
      (s.sp.toNat + (s.width ww).bytes ≤ s.sp0.toNat ∧ s.sp.toNat + (s.width ww).bytes + 2 ≤ s.sp0.toNat ∧
        s.sp.toNat + (s.width ww).bytes + 4 ≤ s.sp0.toNat ∧ ea + (s.width ww).bytes ≤ s.memSize)
      (Wrote s (s.nip 1) (s.sp.toNat + (s.width ww).bytes + 4) ea (s.width ww).bytes
        fun i => s.readByte (s.sp.toNat + i))
      (exec (.storeXw ww) s) := by
  rw [← eaIndexedWord_toNat, Int.natCast_inj] at hea
  subst hea
  exact Guarded.endStep <| (Popped.refl hs).popThen fun _ ht => ht.popAddrThen fun _ ht =>
    ht.popAddrThen fun _ ht => ht.storeTo _ _ _ _

/-- POP (40_load_store.md R141). -/
theorem exec_pop :
    Completes (s.sp.toNat + (s.width ww).bytes ≤ s.sp0.toNat)
      (fun t => ∃ u, Popped s (s.sp.toNat + (s.width ww).bytes) u ∧ t = u.continueAt (s.nip 1))
      (exec (.pop ww) s) :=
  (((Popped.refl hs).pop _).map fun r hr => ⟨r.2, hr.2, rfl⟩).endStep

end

/-! ## The obligations -/

/-- Settles O15: the read's bounds and the push's are the only checks. -/
theorem loadDirectPushesTheBytesAtTheAddress : Obligations.LoadDirectPushesTheBytesAtTheAddress := by
  intro ww lo hi s hs
  obtain ⟨hnext, hfault⟩ := exec_loadDir hs ww (hi ++ lo)
  refine ⟨fun c => ?_, fun hread hpush => hnext ⟨hread, hpush⟩, fun h => hfault (by omega)⟩
  exact encode16_append lo hi ▸ decodesTo_encode (i := .loadDir ww (hi ++ lo)) rfl

/-- Settles O16: the base's pop, the read and the push. -/
theorem loadIndexedBytePushesTheBytesAtBasePlusOffset :
    Obligations.LoadIndexedBytePushesTheBytesAtBasePlusOffset := by
  intro ww off8 s hs
  refine ⟨fun c => decodesTo_encode (i := .loadXb ww off8) rfl, fun ea hea => ?_⟩
  obtain ⟨hnext, hfault⟩ := exec_loadXb hs ww off8 hea
  exact ⟨fun hbase hread hpush => hnext ⟨hbase, hread, hpush⟩, fun h => hfault (by omega)⟩

/-- Settles O17: with room for both pops there is room for the first. -/
theorem loadIndexedWordPushesTheBytesAtBasePlusOffset :
    Obligations.LoadIndexedWordPushesTheBytesAtBasePlusOffset := by
  intro ww s hs
  refine ⟨fun c => decodesTo_encode (i := .loadXw ww) rfl, fun ea hea => ?_⟩
  obtain ⟨hnext, hfault⟩ := exec_loadXw hs ww hea
  exact ⟨fun hpops hread hpush => hnext ⟨by omega, hpops, hread, hpush⟩, fun h => hfault (by omega)⟩

/-- Settles O18: the tabulated width is the machine's (O59), for the decoder and for the push. -/
theorem loadImmediatePushesTheInlineBytes : Obligations.LoadImmediatePushesTheInlineBytes := by
  intro ww bs s hs hlen
  have hlen : bs.length = (s.width ww).bytes := hlen.trans (resolveWidth_bytes s.cfg ww).symm
  obtain ⟨hnext, hfault⟩ := exec_loadImm hs ww hlen
  have hnip : s.nip (1 + bs.length) = s.ip + 1#16 + BitVec.ofNat 16 bs.length := by
    rw [State.nip, BitVec.ofNat_add, BitVec.add_assoc]
  rw [hnip] at hnext
  exact ⟨decodesTo_loadImm hlen, hnext, fun h => hfault (Nat.not_le_of_lt h)⟩

/-- Settles O19: the pop's bounds and the write's are the only checks. -/
theorem storeDirectWritesThePoppedBytes : Obligations.StoreDirectWritesThePoppedBytes := by
  intro ww lo hi s hs
  obtain ⟨hnext, hfault⟩ := exec_storeDir hs ww (hi ++ lo)
  refine ⟨fun c => ?_, fun hpop hwrite => hnext ⟨hpop, hwrite⟩, fun h => hfault (by omega)⟩
  exact encode16_append lo hi ▸ decodesTo_encode (i := .storeDir ww (hi ++ lo)) rfl

/-- Settles O20: with room for both pops there is room for the first. -/
theorem storeIndexedByteWritesAtBasePlusOffset : Obligations.StoreIndexedByteWritesAtBasePlusOffset := by
  intro ww off8 s hs
  refine ⟨fun c => decodesTo_encode (i := .storeXb ww off8) rfl, fun ea hea => ?_⟩
  obtain ⟨hnext, hfault⟩ := exec_storeXb hs ww off8 hea
  exact ⟨fun hpops hwrite => hnext ⟨by omega, hpops, hwrite⟩, fun h => hfault (by omega)⟩

/-- Settles O21: width codes 0 and 1 fit the encoding, and at 2 and 3 the decoder has no row; with room for all three
pops there is room for the first two. -/
theorem storeIndexedWordWritesAtBasePlusOffset : Obligations.StoreIndexedWordWritesAtBasePlusOffset := by
  intro ww s hs
  refine ⟨fun c => ?_, fun ea hea => ?_⟩
  · split
    · exact decodesTo_encode (i := .storeXw ww) (decide_eq_true ‹_›)
    · obtain rfl | rfl | rfl | rfl := widthCode_cases ww
      case inl | inr.inl => contradiction
      case inr.inr.inl | inr.inr.inr => rfl
  · obtain ⟨hnext, hfault⟩ := exec_storeXw hs ww hea
    exact ⟨fun hpops hwrite => hnext ⟨by omega, by omega, hpops, hwrite⟩, fun h => hfault (by omega)⟩

/-- Settles O22: a pop moves `sp` alone. -/
theorem popDiscardsTheTopElement : Obligations.PopDiscardsTheTopElement := by
  intro ww s hs
  obtain ⟨hnext, hfault⟩ := exec_pop hs ww
  refine ⟨fun c => decodesTo_encode (i := .pop ww) rfl, fun hholds => ?_, fun h => hfault (Nat.not_le_of_lt h)⟩
  obtain ⟨_, hexec, u, hu, rfl⟩ := hnext hholds
  exact ⟨_, hexec, rfl, hu.sp, hu.flags, rfl, hu.sameLaunch, fun a => congrArg (·.read a) hu.mem⟩

/-- Settles O23: after the STORE the bytes lie at the address, and there is room below `sp` for the LOAD, which pushes
what it read there. -/
theorem storeThenLoadGivesTheValueBack : Obligations.StoreThenLoadGivesTheValueBack := by
  intro ww a s hs hin hholds
  obtain ⟨hstore, _⟩ := exec_storeDir hs ww a
  obtain ⟨t, ht, _, htsp, _, _, ⟨hsize, hsp0, hcfg⟩, htbytes, _⟩ := hstore ⟨hholds, hin⟩
  have hwidth : t.width ww = s.width ww := congrArg (resolveWidth · ww) hcfg
  have htop : s.sp.toNat + (s.width ww).bytes - (s.width ww).bytes = s.sp.toNat := Nat.add_sub_cancel _ _
  obtain ⟨hload, _⟩ := exec_loadDir (s := t) ⟨by rwa [htsp, hsp0], by rw [hsp0, hsize]; exact hs.2⟩ ww a
  rw [hwidth, htsp, htop, hsize] at hload
  obtain ⟨u, hu, _, husp, _, _, _, hubytes, _⟩ := hload ⟨hin, Nat.le_add_left _ _⟩
  exact ⟨t, u, ht, hu, BitVec.eq_of_toNat_eq husp, fun i hi => (hubytes i hi).trans (htbytes i hi)⟩

end Sys2Proof.Machine
end

section
/-!
DUP and DIG (41_dup_dig.md R160 to R163). Both test the window, move `sp` down by the width and write a list of bytes
from the new top upwards; they differ in the list alone. POP after either is derived from what they and POP do.
-/

namespace Sys2Proof.Machine

/-! ## Tests, then one write from the new top -/

/-- An operation that answers with one state exactly where `p` holds, and has no other fault, is guarded by `p`. -/
theorem Guarded.of_eq_ok {α : Type} {p : Prop} {x : Except Fault α} {b : α} (hok : ∀ a, x = .ok a ↔ p ∧ a = b)
    (herror : OnlyBounds x) : Guarded p (· = b) x := by
  refine ⟨fun hp => ⟨b, (hok b).mpr ⟨hp, rfl⟩, rfl⟩, fun hp => ?_⟩
  cases x with
  | ok a => exact absurd ((hok a).mp rfl).1 hp
  | error f => rw [herror f rfl]

/-- The state after `sp` went down by `w` bytes and the bytes `bs` were written from the new top upwards. -/
def afterPushBytes (w : Width) (len : Nat) (bs : List Byte) (s : State) : State :=
  ((s.withSp (s.sp - BitVec.ofNat 16 w.bytes)).withMem
    (s.mem.writeBytes (s.sp.toNat - w.bytes) bs)).continueAt (s.nip len)

theorem wrote_afterPushBytes {w : Width} {bs : List Byte} {n : Nat} {byte : Nat → Byte} {s : State} (len : Nat)
    (hw : w.bytes ≤ s.sp.toNat) (hlen : bs.length = n) (hbyte : ∀ i < n, bs.getD i 0 = byte i) :
    Wrote s (s.nip len) (s.sp.toNat - w.bytes) (s.sp.toNat - w.bytes) n byte (afterPushBytes w len bs s) := by
  subst hlen
  refine ⟨rfl, toNat_sub_bytes hw, rfl, rfl, ⟨rfl, rfl, rfl⟩, fun i hi => ?_, fun x hx => ?_⟩
  · refine (Memory.read_writeBytes _ _ _ _).trans ?_
    rw [if_pos (by omega), Nat.add_sub_cancel_left, hbyte i hi]
  · exact s.mem.read_writeBytes_outside (by omega)

/-- What DUP and DIG have in common: in a stack that lies in the buffer, the tests of R160 are the only ones. -/
theorem completes_of_window {w : Width} {k len n : Nat} {bs : List Byte} {byte : Nat → Byte} {s : State}
    {x : Except Fault State} (hs : s.stackOk)
    (hok : ∀ t, x = .ok t ↔ s.sp.toNat + w.bytes + k ≤ s.sp0.toNat ∧ w.bytes ≤ s.sp.toNat ∧
      s.sp.toNat + w.bytes + k ≤ s.memSize ∧ t = afterPushBytes w len bs s)
    (herror : OnlyBounds x) (hlen : bs.length = n) (hbyte : ∀ i < n, bs.getD i 0 = byte i) :
    Completes (s.sp.toNat + w.bytes + k ≤ s.sp0.toNat ∧ w.bytes ≤ s.sp.toNat)
      (Wrote s (s.nip len) (s.sp.toNat - w.bytes) (s.sp.toNat - w.bytes) n byte) (endStep x) := by
  have hguarded := Guarded.of_eq_ok (p := s.sp.toNat + w.bytes + k ≤ s.sp0.toNat ∧ w.bytes ≤ s.sp.toNat)
    (fun t => (hok t).trans ⟨fun ⟨hk, hw, _, ht⟩ => ⟨⟨hk, hw⟩, ht⟩,
      fun ⟨⟨hk, hw⟩, ht⟩ => ⟨hk, hw, hk.trans hs.2, ht⟩⟩) herror
  obtain ⟨hnext, hfault⟩ := hguarded.endStep
  refine ⟨fun hp => ?_, hfault⟩
  obtain ⟨t, ht, rfl⟩ := hnext hp
  exact ⟨_, ht, wrote_afterPushBytes len hp.2 hlen hbyte⟩

/-! ## The bytes written -/

/-- Byte `i` of what DUP writes: the window, `T` and then `K`, and after it `T` again (41_dup_dig.md R161). -/
def windowThenTop (s : State) (w : Width) (k i : Nat) : Byte :=
  if i < w.bytes + k then s.readByte (s.sp.toNat + i) else s.readByte (s.sp.toNat + (i - (w.bytes + k)))

theorem windowThenTop_window {s : State} {w : Width} {k i : Nat} (hi : i < w.bytes + k) :
    windowThenTop s w k i = s.readByte (s.sp.toNat + i) := if_pos hi

theorem windowThenTop_copy (s : State) (w : Width) (k j : Nat) :
    windowThenTop s w k (w.bytes + k + j) = s.readByte (s.sp.toNat + j) := by
  rw [windowThenTop, if_neg (by omega), Nat.add_sub_cancel_left]

theorem getD_window_append_top {s : State} {w : Width} {k i : Nat} (hi : i < 2 * w.bytes + k) :
    (s.mem.readBytes s.sp.toNat (w.bytes + k) ++ s.mem.readBytes s.sp.toNat w.bytes).getD i 0 =
      windowThenTop s w k i := by
  have hlen := s.mem.readBytes_length s.sp.toNat (w.bytes + k)
  obtain hwindow | ⟨j, rfl⟩ := Nat.lt_or_ge i (w.bytes + k) |>.imp_right Nat.exists_eq_add_of_le
  · rw [List.getD_append _ _ _ _ (hwindow.trans_eq hlen.symm), Memory.readBytes_getD _ _ _ _ hwindow,
      windowThenTop_window hwindow, State.readByte_eq]
  · rw [List.getD_append_right _ _ _ _ (by omega), hlen, Nat.add_sub_cancel_left,
      Memory.readBytes_getD _ _ _ _ (by omega), windowThenTop_copy, State.readByte_eq]

/-! ## The instructions -/

section
variable {s : State} (hs : s.stackOk) (ww : BitVec 2) (k len : Nat)

include hs

/-- DUP, whatever holds its depth (41_dup_dig.md R161). -/
theorem completes_dup :
    Completes (s.sp.toNat + (s.width ww).bytes + k ≤ s.sp0.toNat ∧ (s.width ww).bytes ≤ s.sp.toNat)
      (Wrote s (s.nip len) (s.sp.toNat - (s.width ww).bytes) (s.sp.toNat - (s.width ww).bytes)
        (2 * (s.width ww).bytes + k) (windowThenTop s (s.width ww) k))
      (endStep (dup ww k len s)) := by
  refine completes_of_window hs (fun _ => dup_eq_ok) (fun _ => dup_error) ?_ fun _ => getD_window_append_top
  rw [List.length_append, Memory.readBytes_length, Memory.readBytes_length]
  omega

/-- DIG, whatever holds its depth (41_dup_dig.md R162). -/
theorem completes_dig :
    Completes (s.sp.toNat + (s.width ww).bytes + k ≤ s.sp0.toNat ∧ (s.width ww).bytes ≤ s.sp.toNat)
      (Wrote s (s.nip len) (s.sp.toNat - (s.width ww).bytes) (s.sp.toNat - (s.width ww).bytes) (s.width ww).bytes
        fun i => s.readByte (s.sp.toNat + k + i))
      (endStep (dig ww k len s)) :=
  completes_of_window hs (fun _ => dig_eq_ok) (fun _ => dig_error) (Memory.readBytes_length _ _ _)
    fun i hi => Memory.readBytes_getD _ _ _ i hi 0

end

/-! ## The depth forms -/

/-- The forms of DUP, each with its depth and its encoding (30_encoding.md R97). -/
def dupForms (ww : BitVec 2) (k8 : Byte) : List (Instr × Nat × List Byte) :=
  [(.dup0 ww, 0, [0b0010_00#6 ++ ww]), (.dup1 ww, 1, [0b0010_01#6 ++ ww]), (.dup2 ww, 2, [0b0010_10#6 ++ ww]),
    (.dupX ww k8, k8.toNat, [0b0010_11#6 ++ ww, k8])]

/-- The forms of DIG, each with its depth and its encoding (30_encoding.md R97). -/
def digForms (ww : BitVec 2) (k8 : Byte) : List (Instr × Nat × List Byte) :=
  [(.dig0 ww, 0, [0b0011_00#6 ++ ww]), (.dig1 ww, 1, [0b0011_01#6 ++ ww]), (.dig2 ww, 2, [0b0011_10#6 ++ ww]),
    (.digX ww k8, k8.toNat, [0b0011_11#6 ++ ww, k8])]

section
variable {ww : BitVec 2} {k8 : Byte} {i : Instr} {k : Nat} {bytes : List Byte}

theorem decodesTo_and_exec_dup (h : (i, k, bytes) ∈ dupForms ww k8) :
    (∀ c, DecodesTo c bytes i true) ∧ ∀ s, exec i s = endStep (dup ww k bytes.length s) := by
  simp only [dupForms, List.mem_cons, List.not_mem_nil, or_false, Prod.mk.injEq] at h
  obtain ⟨rfl, rfl, rfl⟩ | ⟨rfl, rfl, rfl⟩ | ⟨rfl, rfl, rfl⟩ | ⟨rfl, rfl, rfl⟩ := h
  · exact ⟨fun _ => decodesTo_encode (i := .dup0 ww) rfl, fun _ => rfl⟩
  · exact ⟨fun _ => decodesTo_encode (i := .dup1 ww) rfl, fun _ => rfl⟩
  · exact ⟨fun _ => decodesTo_encode (i := .dup2 ww) rfl, fun _ => rfl⟩
  · exact ⟨fun _ => decodesTo_encode (i := .dupX ww k8) rfl, fun _ => rfl⟩

theorem decodesTo_and_exec_dig (h : (i, k, bytes) ∈ digForms ww k8) :
    (∀ c, DecodesTo c bytes i true) ∧ ∀ s, exec i s = endStep (dig ww k bytes.length s) := by
  simp only [digForms, List.mem_cons, List.not_mem_nil, or_false, Prod.mk.injEq] at h
  obtain ⟨rfl, rfl, rfl⟩ | ⟨rfl, rfl, rfl⟩ | ⟨rfl, rfl, rfl⟩ | ⟨rfl, rfl, rfl⟩ := h
  · exact ⟨fun _ => decodesTo_encode (i := .dig0 ww) rfl, fun _ => rfl⟩
  · exact ⟨fun _ => decodesTo_encode (i := .dig1 ww) rfl, fun _ => rfl⟩
  · exact ⟨fun _ => decodesTo_encode (i := .dig2 ww) rfl, fun _ => rfl⟩
  · exact ⟨fun _ => decodesTo_encode (i := .digX ww k8) rfl, fun _ => rfl⟩

/-- A DUP and a DIG of equal depth form are forms of their tables, with the same depth. -/
theorem mem_dupForms_and_digForms {j : Instr}
    (h : (i, j, k) ∈ [(Instr.dup0 ww, Instr.dig0 ww, 0), (Instr.dup1 ww, Instr.dig1 ww, 1),
      (Instr.dup2 ww, Instr.dig2 ww, 2), (Instr.dupX ww k8, Instr.digX ww k8, k8.toNat)]) :
    (∃ bytes, (i, k, bytes) ∈ dupForms ww k8) ∧ ∃ bytes, (j, k, bytes) ∈ digForms ww k8 := by
  simp only [List.mem_cons, List.not_mem_nil, or_false, Prod.mk.injEq] at h
  obtain ⟨rfl, rfl, rfl⟩ | ⟨rfl, rfl, rfl⟩ | ⟨rfl, rfl, rfl⟩ | ⟨rfl, rfl, rfl⟩ := h
  · exact ⟨⟨_, .head _⟩, _, .head _⟩
  · exact ⟨⟨_, .tail _ (.head _)⟩, _, .tail _ (.head _)⟩
  · exact ⟨⟨_, .tail _ (.tail _ (.head _))⟩, _, .tail _ (.tail _ (.head _))⟩
  · exact ⟨⟨_, .tail _ (.tail _ (.tail _ (.head _)))⟩, _, .tail _ (.tail _ (.tail _ (.head _)))⟩

end

/-! ## The obligations -/

/-- Settles O24: of the bytes written, the first `w` are `T`, the next `k` are `K`, and the last `w` are `T` again. -/
theorem dupCopiesTheTopBelowTheGap : Obligations.DupCopiesTheTopBelowTheGap := by
  intro ww k8 s hs i k bytes hform
  obtain ⟨hdecodes, hexec⟩ := decodesTo_and_exec_dup hform
  obtain ⟨hnext, hfault⟩ := completes_dup hs ww k bytes.length
  rw [hexec]
  refine ⟨hdecodes, fun hk hw => ?_, fun h => hfault (by omega)⟩
  obtain ⟨t, ht, hip, hsp, hflags, hstatus, hlaunch, hbytes, hframe⟩ := hnext ⟨hk, hw⟩
  refine ⟨t, ht, hip, hsp, hflags, hstatus, hlaunch, fun j hj => ?_, fun j hj => ?_, fun j hj => ?_, hframe⟩
  · rw [hbytes j (by omega), windowThenTop_window (by omega)]
  · have haddr : s.sp.toNat + j = s.sp.toNat - (s.width ww).bytes + ((s.width ww).bytes + j) := by omega
    rw [haddr, hbytes _ (by omega), windowThenTop_window (by omega), Nat.add_assoc]
  · have haddr : s.sp.toNat + k + j = s.sp.toNat - (s.width ww).bytes + ((s.width ww).bytes + k + j) := by omega
    rw [haddr, hbytes _ (by omega), windowThenTop_copy]

/-- Settles O25: the tests of the window are the only ones, and the bytes written are those at the depth. -/
theorem digPushesTheBytesAtTheDepth : Obligations.DigPushesTheBytesAtTheDepth := by
  intro ww k8 s hs i k bytes hform
  obtain ⟨hdecodes, hexec⟩ := decodesTo_and_exec_dig hform
  obtain ⟨hnext, hfault⟩ := completes_dig hs ww k bytes.length
  rw [hexec]
  exact ⟨hdecodes, fun hk hw => hnext ⟨hk, hw⟩, fun h => hfault (by omega)⟩

/-- A POP where an instruction has moved `sp` down by the same width puts `sp` back and keeps the memory, by O22. -/
theorem exec_pop_restores_sp {ww : BitVec 2} {s t : State} (hs : s.stackOk) (hw : (s.width ww).bytes ≤ s.sp.toNat)
    (hsp : t.sp.toNat = s.sp.toNat - (s.width ww).bytes) (hlaunch : SameLaunch s t) :
    ∃ u, exec (.pop ww) t = .next u ∧ u.sp = s.sp ∧ SameMemory t u := by
  obtain ⟨hsize, hsp0, hcfg⟩ := hlaunch
  have hwidth : t.width ww = s.width ww := congrArg (resolveWidth · ww) hcfg
  have hstack : t.stackOk := by
    obtain ⟨hsp0', hsize'⟩ := hs
    rw [State.stackOk, hsp, hsp0, hsize]
    omega
  obtain ⟨_, hpop, _⟩ := popDiscardsTheTopElement ww t hstack
  rw [hwidth, hsp, hsp0, Nat.sub_add_cancel hw] at hpop
  obtain ⟨u, hu, _, husp, _, _, _, hmem⟩ := hpop hs.1
  exact ⟨u, hu, BitVec.eq_of_toNat_eq husp, hmem⟩

/-- Settles O26: POP discards the top of `T, K, T` after DUP (O24) and the copy after DIG (O25). For depth 0 the
`T` that is left stands where `T` stood. -/
theorem popAfterDupAndDig : Obligations.PopAfterDupAndDig := by
  intro ww k8 s hs i j k hforms hk hw
  obtain ⟨⟨_, hdup⟩, _, hdig⟩ := mem_dupForms_and_digForms hforms
  constructor
  · obtain ⟨_, hnext, _⟩ := dupCopiesTheTopBelowTheGap ww k8 s hs i k _ hdup
    obtain ⟨t, ht, _, hsp, _, _, hlaunch, _, hgap, hcopy, hframe⟩ := hnext hk hw
    obtain ⟨u, hu, husp, hmem⟩ := exec_pop_restores_sp hs hw hsp hlaunch
    have habove : ∀ a, s.sp.toNat + (s.width ww).bytes + k ≤ a → u.readByte a = s.readByte a := fun a ha =>
      (hmem a).trans (hframe a (.inr (by omega)))
    refine ⟨t, u, ht, hu, husp, fun x hx => (hmem _).trans (hgap x hx), fun x hx => (hmem _).trans (hcopy x hx),
      habove, ?_⟩
    rintro rfl a ha
    obtain ⟨x, rfl⟩ := Nat.exists_eq_add_of_le ha
    obtain hx | hx := Nat.lt_or_ge x (s.width ww).bytes
    · exact (hmem _).trans (hcopy x hx)
    · exact habove _ (Nat.add_le_add_left hx _)
  · obtain ⟨_, hnext, _⟩ := digPushesTheBytesAtTheDepth ww k8 s hs j k _ hdig
    obtain ⟨t, ht, _, hsp, _, _, hlaunch, _, hframe⟩ := hnext hk hw
    obtain ⟨u, hu, husp, hmem⟩ := exec_pop_restores_sp hs hw hsp hlaunch
    exact ⟨t, u, ht, hu, husp, fun a ha => (hmem a).trans (hframe a (.inr (by omega)))⟩

end Sys2Proof.Machine
end

section
/-!
The integer commands (42_alu.md R170 to R185). A command that completes has popped its operands, pushed the masked
result and written Z and N from it: that is `AluEffect`, proved once for whatever was popped, and each statement then
says what the 32-bit result is.
-/

namespace Sys2Proof.Machine

/-! ## The operands and the result -/

/-- The top element as the accumulator holds it: `b` of a binary command, the operand of NOT (42_alu.md R170, R171). -/
def topOperand (ww : BitVec 2) (s : State) : Acc := (s.valueAt s.sp.toNat (s.width ww)).setWidth 32

/-- The element below the top as the accumulator holds it: `a` of a binary command (42_alu.md R170). -/
def deeperOperand (ww : BitVec 2) (s : State) : Acc :=
  (s.valueAt (s.sp.toNat + (s.width ww).bytes) (s.width ww)).setWidth 32

theorem toNat_eq_zero_iff {n : Nat} (v : BitVec n) : v.toNat = 0 ↔ v = 0 := by
  rw [← BitVec.toNat_inj, BitVec.ofNat_eq_ofNat, BitVec.toNat_zero]

/-- Masking to the width, also at width 8, where the result is zero-extended (42_alu.md R170, R174). -/
theorem aluResult_toNat (w : Width) (r : Acc) : (aluResult w r).toNat = r.toNat % 2 ^ (8 * w.bytes) := by
  rw [aluResult, maskTo_toNat, BitVec.toNat_setWidth_of_le (by decide)]

theorem aluResult_eq_zero (w : Width) (r : Acc) : aluResult w r = 0 ↔ r.toNat % 2 ^ (8 * w.bytes) = 0 := by
  rw [← aluResult_toNat, toNat_eq_zero_iff]

/-! ## The effect of a command that completes -/

/-- The end of every integer command, after pops that changed `sp` alone (42_alu.md R170 to R172). -/
theorem aluEffect_of_popped {ww : BitVec 2} {popped : Nat} {s u : State} (r : Acc) (hmem : u.mem = s.mem)
    (hflags : u.flags = s.flags) (hlaunch : SameLaunch s u) (hsp : u.sp.toNat = s.sp.toNat + popped)
    (hpopped : (s.width ww).bytes ≤ popped) :
    AluEffect ww popped r s (((afterPush (s.width ww) (aluResult (s.width ww) r) u).setIntFlags (s.width ww)
      (aluResult (s.width ww) r)).continueAt (s.nip 1)) := by
  have hroom : (s.width ww).bytes ≤ u.sp.toNat := by omega
  have htop : s.sp.toNat + popped - (s.width ww).bytes = u.sp.toNat - (s.width ww).bytes := by rw [hsp]
  have hvalue := (valueAt_afterPush (v := aluResult (s.width ww) r) hroom).trans (maskTo_maskTo _ _)
  refine ⟨rfl, ?_, ?_, ?_, ?_, ?_, rfl, hlaunch, ?_⟩
  · exact (toNat_sub_bytes hroom).trans htop.symm
  · exact (congrArg BitVec.toNat hvalue).trans (aluResult_toNat _ r)
  · exact (State.setIntFlags_z _ _ _).trans (decide_eq_decide.mpr (aluResult_eq_zero _ r))
  · exact (State.setIntFlags_n _ _ _).trans (congrArg (Nat.testBit · _) (aluResult_toNat _ r))
  · exact (State.setZN_reserved _ _ _).trans (congrArg (BitVec.extractLsb' 2 6) hflags)
  · rw [htop]
    exact sameMemoryOutside_of_write (congrArg (Memory.writeBytes · _ _) hmem)

section
variable {ww : BitVec 2} {s t : State}

theorem aluEffect_afterBinary (r : Acc) (hholds : s.sp.toNat + 2 * (s.width ww).bytes ≤ s.sp0.toNat) :
    AluEffect ww (2 * (s.width ww).bytes) r s (afterBinary (s.width ww) r s) := by
  have hfirst := afterPop_sp_toNat (s := s) (w := s.width ww) (by omega)
  have hsecond := afterPop_sp_toNat (s := afterPop (s.width ww) s) (w := s.width ww)
    (by rw [hfirst, afterPop_sp0]; omega)
  exact aluEffect_of_popped r rfl rfl ⟨rfl, rfl, rfl⟩ (by omega) (by omega)

theorem aluEffect_afterUnary (r : Acc) (hholds : s.sp.toNat + (s.width ww).bytes ≤ s.sp0.toNat) :
    AluEffect ww (s.width ww).bytes r s (afterUnary (s.width ww) r s) :=
  aluEffect_of_popped r rfl rfl ⟨rfl, rfl, rfl⟩ (afterPop_sp_toNat hholds) le_rfl

/-- Everything a binary command can have done when it completed. -/
theorem aluEffect_of_binary {g : Acc → Acc → Except Fault Acc} (h : endStep (aluBinary g ww s) = .next t) :
    ∃ r, g (deeperOperand ww s) (topOperand ww s) = .ok r ∧ AluEffect ww (2 * (s.width ww).bytes) r s t := by
  obtain ⟨hholds, _, r, hr, rfl⟩ := aluBinary_eq_ok.mp (endStep_eq_next.mp h)
  exact ⟨r, hr, aluEffect_afterBinary r hholds⟩

/-- Everything the unary command can have done when it completed. -/
theorem aluEffect_of_unary {f : Acc → Acc} (h : endStep (aluUnary f ww s) = .next t) :
    AluEffect ww (s.width ww).bytes (f (topOperand ww s)) s t := by
  obtain ⟨hholds, _, rfl⟩ := aluUnary_eq_ok.mp (endStep_eq_next.mp h)
  exact aluEffect_afterUnary _ hholds

/-! ## When a command completes and when it faults -/

theorem aluBinary_of_short {g : Acc → Acc → Except Fault Acc}
    (h : s.sp0.toNat < s.sp.toNat + 2 * (s.width ww).bytes) :
    endStep (aluBinary g ww s) = .fault .boundsViolation := by
  cases he : aluBinary g ww s with
  | ok t =>
    obtain ⟨hholds, _⟩ := aluBinary_eq_ok.mp he
    omega
  | error e =>
    obtain rfl | ⟨hholds, _⟩ := aluBinary_error he
    · rfl
    · omega

/-- NOT has no check but the pop's. -/
theorem completes_unary (hs : s.stackOk) (f : Acc → Acc) :
    Completes (s.sp.toNat + (s.width ww).bytes ≤ s.sp0.toNat)
      (AluEffect ww (s.width ww).bytes (f (topOperand ww s)) s) (endStep (aluUnary f ww s)) := by
  refine ⟨fun hholds => ?_, fun hshort => ?_⟩
  · exact ⟨_, endStep_eq_next.mpr (aluUnary_eq_ok.mpr ⟨hholds, hholds.trans hs.2, rfl⟩),
      aluEffect_afterUnary _ hholds⟩
  · rw [aluUnary, pop_of_short (Nat.lt_of_not_le hshort), bind_error, endStep_error]

section
variable {g : Acc → Acc → Except Fault Acc} (hs : s.stackOk)
  (hholds : s.sp.toNat + 2 * (s.width ww).bytes ≤ s.sp0.toNat)

include hs hholds

theorem aluBinary_of_result {r : Acc} (hr : g (deeperOperand ww s) (topOperand ww s) = .ok r) :
    ∃ t, endStep (aluBinary g ww s) = .next t ∧ AluEffect ww (2 * (s.width ww).bytes) r s t :=
  ⟨_, endStep_eq_next.mpr (aluBinary_eq_ok.mpr ⟨hholds, hholds.trans hs.2, r, hr, rfl⟩),
    aluEffect_afterBinary r hholds⟩

/-- A fault of the function comes after both pops (42_alu.md R178). -/
theorem aluBinary_of_fault {f : Fault} (hf : g (deeperOperand ww s) (topOperand ww s) = .error f) :
    endStep (aluBinary g ww s) = .fault f := by
  obtain ⟨_, hsize⟩ := hs
  have hsp := afterPop_sp_toNat (s := s) (w := s.width ww) (by omega)
  have hfirst : pop (s.width ww) s = .ok (s.valueAt s.sp.toNat (s.width ww), afterPop (s.width ww) s) :=
    pop_of_holds (by omega) (by omega)
  have hsecond := pop_of_holds (s := afterPop (s.width ww) s) (w := s.width ww)
    (by rw [hsp, afterPop_sp0]; omega) (by rw [hsp, afterPop_memSize]; omega)
  rw [hsp] at hsecond
  exact endStep_eq_fault.mpr (bind_eq_error.mpr (.inr ⟨_, hfirst, bind_eq_error.mpr (.inr ⟨_, hsecond,
    bind_eq_error.mpr (.inl hf)⟩)⟩))

end

end

/-! ## Division -/

/-- A function of the operands read as unsigned numbers, guarded by the test of the 32-bit divisor. -/
def checkedDivision (f : Nat → Nat → Nat) (a b : Acc) : Except Fault Acc :=
  if b.toNat = 0 then .error .divideByZero else .ok (BitVec.ofNat 32 (f a.toNat b.toNat))

theorem accDiv_eq_checkedDivision : accDiv = checkedDivision (· / ·) := by
  funext a b
  simp only [accDiv, checkedDivision, toNat_eq_zero_iff, ← BitVec.toNat_udiv, BitVec.ofNat_toNat, BitVec.setWidth_eq]

theorem accMod_eq_checkedDivision : accMod = checkedDivision (· % ·) := by
  funext a b
  simp only [accMod, checkedDivision, toNat_eq_zero_iff, ← BitVec.toNat_umod, BitVec.ofNat_toNat, BitVec.setWidth_eq]

theorem checkedDivision_eq_ok {f : Nat → Nat → Nat} {a b r : Acc} :
    checkedDivision f a b = .ok r ↔ b.toNat ≠ 0 ∧ BitVec.ofNat 32 (f a.toNat b.toNat) = r := by
  unfold checkedDivision
  split <;> simp_all

/-! ## The commands of the statements -/

/-- The binary commands that never fault on their operands, each with its function, opcode field and group
(42_alu.md R175 to R177, R180 to R182). -/
def binaryForms (ww : BitVec 2) : List (Instr × (Acc → Acc → Acc) × BitVec 6 × (Config → Bool)) :=
  [(.add ww, (· + ·), 0b10_0000#6, fun _ => true), (.sub ww, (· - ·), 0b10_0001#6, fun _ => true),
    (.mul ww, (· * ·), 0b10_0010#6, fun _ => true), (.and ww, (· &&& ·), 0b10_0101#6, Config.bitwise),
    (.or ww, (· ||| ·), 0b10_0110#6, Config.bitwise), (.xor ww, (· ^^^ ·), 0b10_0111#6, Config.bitwise)]

theorem decodesTo_and_exec_binary {ww : BitVec 2} {i : Instr} {f : Acc → Acc → Acc} {op : BitVec 6}
    {group : Config → Bool} (h : (i, f, op, group) ∈ binaryForms ww) :
    (∀ c, DecodesTo c [op ++ ww] i (group c)) ∧ ∀ s, exec i s = endStep (aluBinary (fun a b => .ok (f a b)) ww s) := by
  simp only [binaryForms, List.mem_cons, List.not_mem_nil, or_false, Prod.mk.injEq] at h
  obtain ⟨rfl, rfl, rfl, rfl⟩ | ⟨rfl, rfl, rfl, rfl⟩ | ⟨rfl, rfl, rfl, rfl⟩ | ⟨rfl, rfl, rfl, rfl⟩ |
    ⟨rfl, rfl, rfl, rfl⟩ | ⟨rfl, rfl, rfl, rfl⟩ := h
  · exact ⟨fun _ => decodesTo_encode (i := .add ww) rfl, fun _ => rfl⟩
  · exact ⟨fun _ => decodesTo_encode (i := .sub ww) rfl, fun _ => rfl⟩
  · exact ⟨fun _ => decodesTo_encode (i := .mul ww) rfl, fun _ => rfl⟩
  · exact ⟨fun _ => decodesTo_encode (i := .and ww) rfl, fun _ => rfl⟩
  · exact ⟨fun _ => decodesTo_encode (i := .or ww) rfl, fun _ => rfl⟩
  · exact ⟨fun _ => decodesTo_encode (i := .xor ww) rfl, fun _ => rfl⟩

/-- DIV and MOD, each with its function of unsigned numbers and its opcode field (42_alu.md R178, R179). -/
def divisionForms (ww : BitVec 2) : List (Instr × (Nat → Nat → Nat) × BitVec 6) :=
  [(.div ww, (· / ·), 0b10_0011#6), (.mod ww, (· % ·), 0b10_0100#6)]

section
variable (ww : BitVec 2) (s : State)

theorem exec_div : exec (.div ww) s = endStep (aluBinary (checkedDivision (· / ·)) ww s) :=
  accDiv_eq_checkedDivision ▸ rfl

theorem exec_mod : exec (.mod ww) s = endStep (aluBinary (checkedDivision (· % ·)) ww s) :=
  accMod_eq_checkedDivision ▸ rfl

end

theorem decodesTo_and_exec_division {ww : BitVec 2} {i : Instr} {f : Nat → Nat → Nat} {op : BitVec 6}
    (h : (i, f, op) ∈ divisionForms ww) :
    (∀ c, DecodesTo c [op ++ ww] i true) ∧ ∀ s, exec i s = endStep (aluBinary (checkedDivision f) ww s) := by
  simp only [divisionForms, List.mem_cons, List.not_mem_nil, or_false, Prod.mk.injEq] at h
  obtain ⟨rfl, rfl, rfl⟩ | ⟨rfl, rfl, rfl⟩ := h
  · exact ⟨fun _ => decodesTo_encode (i := .div ww) rfl, exec_div ww⟩
  · exact ⟨fun _ => decodesTo_encode (i := .mod ww) rfl, exec_mod ww⟩

/-- An integer command is a binary one or NOT. -/
theorem aluCommand_cases {ww : BitVec 2} {i : Instr} (h : IsAluCommand ww i) :
    (∃ g, ∀ s, exec i s = endStep (aluBinary g ww s)) ∨ i = .not ww := by
  simp only [IsAluCommand, List.mem_cons, List.not_mem_nil, or_false] at h
  obtain rfl | rfl | rfl | rfl | rfl | rfl | rfl | rfl | rfl := h
  iterate 8 exact .inl ⟨_, fun _ => rfl⟩
  exact .inr rfl

theorem aluEffect_of_aluCommand {ww : BitVec 2} {i : Instr} {s t : State} (hi : IsAluCommand ww i)
    (h : exec i s = .next t) : ∃ popped r, AluEffect ww popped r s t := by
  obtain ⟨g, hexec⟩ | rfl := aluCommand_cases hi
  · obtain ⟨r, _, heffect⟩ := aluEffect_of_binary ((hexec s).symm.trans h)
    exact ⟨_, r, heffect⟩
  · exact ⟨_, _, aluEffect_of_unary h⟩

/-! ## Arithmetic at widths up to 4 -/

section
variable {ww : BitVec 2} {s t : State} {w : Width}

theorem accOperand_toNat (hw : w.bytes ≤ 4) (a : Nat) :
    ((s.valueAt a w).setWidth 32 : Acc).toNat = (s.valueAt a w).toNat := by
  have hlt : (s.valueAt a w).toNat < 2 ^ 32 := (valueAt_lt s a w).trans_le (Nat.pow_le_pow_right two_pos (by omega))
  rw [BitVec.toNat_setWidth, Nat.mod_eq_of_lt hlt]

theorem width_modulus_dvd (hw : w.bytes ≤ 4) : 2 ^ (8 * w.bytes) ∣ 2 ^ 32 := pow_dvd_pow 2 (by omega)

/-- The value a binary command leaves on top. -/
theorem valueAt_of_binary {g : Acc → Acc → Except Fault Acc} (h : endStep (aluBinary g ww s) = .next t) :
    ∃ r, g (deeperOperand ww s) (topOperand ww s) = .ok r ∧
      (t.valueAt t.sp.toNat (s.width ww)).toNat = r.toNat % 2 ^ (8 * (s.width ww).bytes) := by
  obtain ⟨r, hr, _, _, hvalue, _⟩ := aluEffect_of_binary h
  exact ⟨r, hr, hvalue⟩

/-- A result below the modulus, as quotients and remainders are, is left as it is. -/
theorem valueAt_of_division {f : Nat → Nat → Nat} (hw : (s.width ww).bytes ≤ 4) (hle : ∀ a b, f a b ≤ a)
    (h : endStep (aluBinary (checkedDivision f) ww s) = .next t) :
    (t.valueAt t.sp.toNat (s.width ww)).toNat =
      f (s.valueAt (s.sp.toNat + (s.width ww).bytes) (s.width ww)).toNat
        (s.valueAt s.sp.toNat (s.width ww)).toNat := by
  obtain ⟨r, hr, hvalue⟩ := valueAt_of_binary h
  obtain ⟨_, rfl⟩ := checkedDivision_eq_ok.mp hr
  rw [hvalue, BitVec.toNat_ofNat, Nat.mod_mod_of_dvd _ (width_modulus_dvd hw), deeperOperand, topOperand,
    accOperand_toNat hw, accOperand_toNat hw]
  exact Nat.mod_eq_of_lt ((hle _ _).trans_lt (valueAt_lt _ _ _))

/-- A 32-bit difference is one modulo every divisor of `2 ^ 32`. -/
theorem sub_toNat_mod {m : Nat} (hm : m ∣ 2 ^ 32) (a b : Acc) :
    (((a - b).toNat % m : Nat) : Int) = ((a.toNat : Int) - b.toNat) % m := by
  have hm : (m : Int) ∣ ((2 ^ 32 : Nat) : Int) := Int.natCast_dvd_natCast.mpr hm
  have hcongr : ((a - b).toNat : Int) = ((a.toNat : Int) - b.toNat) % ((2 ^ 32 : Nat) : Int) := by
    rw [BitVec.toNat_sub]; omega
  rw [Int.natCast_emod, hcongr, Int.emod_emod_of_dvd _ hm]

end

/-! ## The obligations -/

/-- Settles O27: the function of these commands never faults, so both pops' bounds are the only checks. -/
theorem binaryCommandsPushTheMaskedResult : Obligations.BinaryCommandsPushTheMaskedResult := by
  intro ww s hs i f op group hform
  obtain ⟨hdecodes, hexec⟩ := decodesTo_and_exec_binary hform
  rw [hexec]
  exact ⟨hdecodes, fun hholds => aluBinary_of_result hs hholds rfl, aluBinary_of_short⟩

/-- Settles O28: the divisor is tested after both pops. -/
theorem divAndModAreUnsignedAndFaultOnZero : Obligations.DivAndModAreUnsignedAndFaultOnZero := by
  rintro ww s hs i f op hform _ _ rfl rfl
  obtain ⟨hdecodes, hexec⟩ := decodesTo_and_exec_division hform
  rw [hexec]
  exact ⟨hdecodes, fun hholds hne => aluBinary_of_result hs hholds (if_neg hne),
    fun hholds hzero => aluBinary_of_fault hs hholds (if_pos hzero), aluBinary_of_short⟩

/-- Settles O29: the two kinds of NOT differ in the 32-bit result alone. -/
theorem notIsLogicalOrBitwise : Obligations.NotIsLogicalOrBitwise := by
  intro ww s hs
  obtain ⟨hnext, hfault⟩ := completes_unary (ww := ww) hs (accNot s.cfg.notKind)
  have htop : (topOperand ww s).toNat = (s.valueAt s.sp.toNat (s.width ww)).toNat % 2 ^ 32 := BitVec.toNat_setWidth _ _
  refine ⟨fun _ => decodesTo_encode (i := .not ww) rfl, fun hholds => ⟨fun hkind => ?_, fun hkind => ?_⟩,
    fun hshort => hfault (Nat.not_le_of_lt hshort)⟩
  · have hresult : accNot s.cfg.notKind (topOperand ww s) = if (topOperand ww s).toNat = 0 then 1#32 else 0#32 := by
      simp only [hkind, accNot, toNat_eq_zero_iff]; rfl
    rw [← htop, ← hresult]
    exact hnext hholds
  · have hresult : accNot s.cfg.notKind (topOperand ww s) =
        BitVec.ofNat 32 (2 ^ 32 - 1 - (topOperand ww s).toNat) := by
      rw [hkind, accNot, ← BitVec.toNat_not, BitVec.ofNat_toNat, BitVec.setWidth_eq]
    rw [← htop, ← hresult]
    exact hnext hholds

/-- Settles O30: the modulus of the width divides the accumulator's, and the operands fit the accumulator. -/
theorem arithmeticIsModularAtItsWidth : Obligations.ArithmeticIsModularAtItsWidth := by
  rintro ww s t hw _ _ _ rfl rfl rfl
  have hdvd := width_modulus_dvd hw
  have hdeeper : (deeperOperand ww s).toNat = _ := accOperand_toNat hw _
  have htop : (topOperand ww s).toNat = _ := accOperand_toNat hw _
  rw [← hdeeper, ← htop]
  refine ⟨fun h => ?add, fun h => ?sub, fun h => ?mul, fun h => ?div, fun h => ?mod⟩
  case add =>
    obtain ⟨_, ⟨⟩, hvalue⟩ := valueAt_of_binary h
    rw [hvalue, BitVec.toNat_add, Nat.mod_mod_of_dvd _ hdvd]
  case sub =>
    obtain ⟨_, ⟨⟩, hvalue⟩ := valueAt_of_binary h
    rw [hvalue, sub_toNat_mod hdvd]
  case mul =>
    obtain ⟨_, ⟨⟩, hvalue⟩ := valueAt_of_binary h
    rw [hvalue, BitVec.toNat_mul, Nat.mod_mod_of_dvd _ hdvd]
  case div =>
    rw [hdeeper, htop]
    exact valueAt_of_division hw Nat.div_le_self ((exec_div ww s).symm.trans h)
  case mod =>
    rw [hdeeper, htop]
    exact valueAt_of_division hw Nat.mod_le ((exec_mod ww s).symm.trans h)

/-- Settles O31: `AluEffect` says the flags of the result masked to the width, which is the value on top. -/
theorem integerFlagsDescribeThePushedValue : Obligations.IntegerFlagsDescribeThePushedValue := by
  intro ww i s t hi h
  obtain ⟨_, r, _, _, hvalue, hz, hn, _⟩ := aluEffect_of_aluCommand hi h
  rw [← hvalue] at hz hn
  rw [hz, hn, decide_eq_true_iff, toNat_eq_zero_iff]
  exact ⟨Iff.rfl, Iff.rfl⟩

end Sys2Proof.Machine
end

section
/-!
The IEEE 754 results of the float operations (43_fpu.md R202 to R206). A float is a NaN, an infinity or finite; each
operation's result is given once for each class of operands, and the statements on NaNs and on infinities are read off.
-/

namespace Sys2Proof.Machine

/-! ## The classes of floats -/

section
variable {x : Acc}

theorem f32_class (x : Acc) : f32IsNaN x = true ∨ f32IsInf x = true ∨ f32IsFinite x = true := by
  simp only [f32IsNaN, f32IsInf, f32IsFinite, Bool.and_eq_true, decide_eq_true_eq]
  omega

theorem f32IsNaN_of_isInf (h : f32IsInf x = true) : f32IsNaN x = false := by
  simp_all [f32IsInf, f32IsNaN]

theorem f32IsFinite_of_isInf (h : f32IsInf x = true) : f32IsFinite x = false := by
  simp_all [f32IsInf, f32IsFinite]

theorem f32IsZero_of_isInf (h : f32IsInf x = true) : f32IsZero x = false := by
  simp_all [f32IsInf, f32IsZero]

theorem f32IsZero_of_isNaN (h : f32IsNaN x = true) : f32IsZero x = false := by
  simp_all [f32IsNaN, f32IsZero]

theorem f32IsNaN_of_isFinite (h : f32IsFinite x = true) : f32IsNaN x = false := by
  simp_all [f32IsFinite, f32IsNaN]

theorem f32IsInf_of_isFinite (h : f32IsFinite x = true) : f32IsInf x = false := by
  simp_all [f32IsFinite, f32IsInf]

end

/-! ## The negated float -/

section
variable (x : Acc)

@[simp] theorem f32Exp_f32Neg : f32Exp (f32Neg x) = f32Exp x := by
  simp [f32Exp, f32Neg, BitVec.extractLsb'_xor]

@[simp] theorem f32Frac_f32Neg : f32Frac (f32Neg x) = f32Frac x := by
  simp [f32Frac, f32Neg, BitVec.extractLsb'_xor]

@[simp] theorem f32Sign_f32Neg : f32Sign (f32Neg x) = !f32Sign x := by
  simp [f32Sign, f32Neg]

@[simp] theorem f32Neg_f32Neg : f32Neg (f32Neg x) = x := by
  simp [f32Neg]

@[simp] theorem f32IsNaN_f32Neg : f32IsNaN (f32Neg x) = f32IsNaN x := by simp [f32IsNaN]

@[simp] theorem f32IsInf_f32Neg : f32IsInf (f32Neg x) = f32IsInf x := by simp [f32IsInf]

@[simp] theorem f32IsFinite_f32Neg : f32IsFinite (f32Neg x) = f32IsFinite x := by simp [f32IsFinite]

@[simp] theorem f32Mag_f32Neg : f32Mag (f32Neg x) = f32Mag x := by simp [f32Mag, f32Mant, f32Scale]

theorem f32Int_eq : f32Int x = (if f32Sign x then -1 else 1) * (f32Mag x : Int) := by
  unfold f32Int; split <;> simp

@[simp] theorem f32Int_f32Neg : f32Int (f32Neg x) = -f32Int x := by
  cases h : f32Sign x <;> simp [f32Int_eq, h]

end
/-! ## Rounding an exact result -/

theorem f32Round_lt (m k : Nat) : f32Round m k < 2 ^ 31 :=
  (Nat.min_le_right _ _).trans_lt (by decide)

/-- An exact integer, rounded and packed with its own sign. -/
theorem isRounded_of_int (m : Int) : IsRounded (f32Pack (decide (m < 0)) (f32Round m.natAbs 0)) m 1 := by
  have hsigned : (if decide (m < 0) = true then -1 else 1) * (m.natAbs : Int) = m := by
    simp only [decide_eq_true_eq]
    split <;> omega
  have hround := f32Round_isRounded (decide (m < 0)) m.natAbs 0
  rwa [hsigned] at hround

/-- `m` units stand for `x / y` of them: exactly, or `m` is odd and the next numbers below and above are even and lie
beyond `x / y`. Rounding away two bits or more then does not tell the two apart. -/
def StandsFor (m x y : Nat) : Prop :=
  m * y = x ∨ m % 2 = 1 ∧ (m - 1) * y < x ∧ x < (m + 1) * y

theorem StandsFor.mul_le_of_even {m x y n : Nat} (h : StandsFor m x y) (hn : n % 2 = 0) (hnm : n ≤ m) : n * y ≤ x := by
  obtain rfl | ⟨hodd, hlo, _⟩ := h
  · exact Nat.mul_le_mul_right y hnm
  · exact (Nat.mul_le_mul_right y (by omega)).trans hlo.le

/-- The nearest multiple of a number's stand-in is the nearest one of the number itself. -/
theorem roundShift_nearest_of_standsFor {m x y sh : Nat} (hy : 0 < y) (hsh : 2 ≤ sh) (h : StandsFor m x y) :
    |2 * ((roundShift m sh : Int) * (2 ^ sh * y)) - 2 * x| ≤ 2 ^ sh * y ∧
      (|2 * ((roundShift m sh : Int) * (2 ^ sh * y)) - 2 * x| = 2 ^ sh * y → roundShift m sh % 2 = 0) := by
  obtain ⟨hle, heven⟩ := roundShift_nearest m sh
  have hy : (0 : Int) < y := by exact_mod_cast hy
  obtain rfl | ⟨hodd, hlo, hhi⟩ := h
  case inl =>
    have hscale : 2 * ((roundShift m sh : Int) * (2 ^ sh * y)) - 2 * ((m * y : Nat) : Int) =
        (2 * ((roundShift m sh : Int) * 2 ^ sh) - 2 * m) * y := by push_cast; ring
    rw [hscale, abs_mul, abs_of_pos hy]
    exact ⟨mul_le_mul_of_nonneg_right hle hy.le, fun h => heven (mul_right_cancel₀ hy.ne' h)⟩
  case inr =>
    obtain ⟨p, hp⟩ : (4 : Int) ∣ 2 ^ sh := pow_dvd_pow 2 hsh
    rw [hp] at hle ⊢
    generalize roundShift m sh = n at hle ⊢
    obtain ⟨hl, hu⟩ := abs_le.mp hle
    have hmul : (n : Int) * (4 * p) = 4 * (n * p) := by ring
    rw [hmul] at hl hu
    have hl : (2 - 4 * p) * y ≤ (2 * (4 * (n * p)) - 2 * m) * y := mul_le_mul_of_nonneg_right (by omega) hy.le
    have hu : (2 * (4 * (n * p)) - 2 * m) * y ≤ (4 * p - 2) * y := mul_le_mul_of_nonneg_right (by omega) hy.le
    have hlo : ((m : Int) - 1) * y < x := by
      have hm : ((m - 1 : Nat) : Int) = m - 1 := by omega
      rw [← hm]; exact_mod_cast hlo
    have hhi : (x : Int) < (m + 1) * y := by exact_mod_cast hhi
    have hlt : |2 * ((n : Int) * (4 * p * y)) - 2 * x| < 4 * p * y := abs_lt.mpr ⟨by linarith, by linarith⟩
    exact ⟨hlt.le, fun h => absurd h hlt.ne⟩

/-- `f32Round` of a stand-in, packed with a sign, is the number it stands for, rounded as IEEE 754 rounds it. -/
theorem isRounded_of_standsFor (sg : Bool) {m k num den : Nat} (hden : 0 < den) (hk : 2 ≤ k)
    (h : StandsFor m (2 ^ k * num) den) :
    IsRounded (f32Pack sg (f32Round m k)) ((if sg then -1 else 1) * (num : Int)) den := by
  unfold f32Round
  dsimp only
  generalize hsh : max (bitLength m - 24) k = sh
  have hksh : k ≤ sh := by omega
  obtain ⟨hle, heven⟩ := roundShift_nearest_of_standsFor hden (hk.trans hksh) h
  have hpos : (0 : Int) < 2 ^ k := by positivity
  have hpow : (2 : Int) ^ sh = 2 ^ k * 2 ^ (sh - k) := by rw [← pow_add, Nat.add_sub_cancel' hksh]
  have hscale : 2 * ((roundShift m sh : Int) * (2 ^ sh * den)) - 2 * ((2 ^ k * num : Nat) : Int) =
      2 ^ k * (2 * ((roundShift m sh : Int) * (2 ^ (sh - k) * den)) - 2 * num) := by
    rw [hpow]; push_cast; ring
  rw [hscale, hpow, mul_assoc, abs_mul, abs_of_pos hpos] at hle heven
  refine isRounded_of_nearest sg num den (sh - k) _ hden (le_of_mul_le_mul_left hle hpos)
    (fun htie => heven (congrArg _ htie)) (roundShift_le m sh (by omega)) ?_
  by_cases hscaled : sh - k = 0
  · exact .inl hscaled
  · right
    have hfull : 2 ^ k * (2 ^ 23 * 2 ^ (sh - k)) ≤ m := by
      refine le_trans (le_of_eq ?_) (bitLength_le m (by omega))
      rw [← pow_add, ← pow_add]
      congr 1; omega
    have hlower := h.mul_le_of_even (Nat.even_iff.mp ((Nat.even_pow.mpr ⟨even_two, by omega⟩).mul_right _)) hfull
    rw [mul_assoc] at hlower
    exact le_of_mul_le_mul_left hlower (Nat.two_pow_pos k)

theorem f32Mag_pos {x : Acc} (h : f32IsZero x = false) : 0 < f32Mag x := by
  refine Nat.mul_pos ?_ (Nat.two_pow_pos _)
  unfold f32Mant
  split
  · simp_all [f32IsZero, Nat.pos_iff_ne_zero]
  · exact Nat.add_pos_left (by decide) _

/-! ## The results of the operations -/

section
variable {a b : Acc}

theorem f32Add_of_nan (h : f32IsNaN a = true ∨ f32IsNaN b = true) : f32Add a b = none := by
  simp [f32Add, h]

theorem f32Add_of_inf_left (ha : f32IsInf a = true) (hb : f32IsNaN b = false) :
    f32Add a b = if f32IsInf b = true ∧ f32Sign a ≠ f32Sign b then none else some a := by
  simp [f32Add, ha, hb, f32IsNaN_of_isInf ha]

theorem f32Add_of_inf_right (ha : f32IsFinite a = true) (hb : f32IsInf b = true) : f32Add a b = some b := by
  simp [f32Add, hb, f32IsNaN_of_isFinite ha, f32IsInf_of_isFinite ha, f32IsNaN_of_isInf hb]

theorem f32Add_of_finite (ha : f32IsFinite a = true) (hb : f32IsFinite b = true) :
    ∃ r, f32Add a b = some r ∧ IsRounded r (f32Int a + f32Int b) 1 ∧
      (f32Int a + f32Int b = 0 → r = f32Pack (f32Sign a && f32Sign b) 0) := by
  simp only [f32Add, f32IsNaN_of_isFinite ha, f32IsNaN_of_isFinite hb, f32IsInf_of_isFinite ha,
    f32IsInf_of_isFinite hb]
  by_cases hzero : f32Int a + f32Int b = 0
  · have hround : IsRounded _ ((if f32Sign a && f32Sign b then -1 else 1) * ((0 : Nat) : Int)) _ :=
      f32Round_isRounded (f32Sign a && f32Sign b) 0 0
    rw [Nat.cast_zero, mul_zero] at hround
    rw [hzero]
    exact ⟨_, rfl, hround, fun _ => rfl⟩
  · exact ⟨_, by simp [hzero], isRounded_of_int _, fun h => absurd h hzero⟩

theorem f32Mul_of_nan (h : f32IsNaN a = true ∨ f32IsNaN b = true) : f32Mul a b = none := by
  simp [f32Mul, h]

theorem f32Mul_of_inf_left (ha : f32IsInf a = true) (hb : f32IsNaN b = false) :
    f32Mul a b = if f32IsZero b = true then none else some (f32Pack (f32Sign a != f32Sign b) f32InfMag) := by
  simp [f32Mul, ha, hb, f32IsNaN_of_isInf ha]

theorem f32Mul_of_inf_right (ha : f32IsFinite a = true) (hb : f32IsInf b = true) :
    f32Mul a b = if f32IsZero a = true then none else some (f32Pack (f32Sign a != f32Sign b) f32InfMag) := by
  simp [f32Mul, hb, f32IsNaN_of_isFinite ha, f32IsInf_of_isFinite ha, f32IsNaN_of_isInf hb]

theorem f32Mul_of_finite (ha : f32IsFinite a = true) (hb : f32IsFinite b = true) :
    f32Mul a b = some (f32Pack (f32Sign a != f32Sign b) (f32Round (f32Mag a * f32Mag b) 149)) := by
  simp [f32Mul, f32IsNaN_of_isFinite ha, f32IsNaN_of_isFinite hb, f32IsInf_of_isFinite ha, f32IsInf_of_isFinite hb]

theorem f32Div_of_nan (h : f32IsNaN a = true ∨ f32IsNaN b = true) : f32Div a b = none := by
  simp [f32Div, h]

theorem f32Div_of_inf_left (ha : f32IsInf a = true) (hb : f32IsNaN b = false) :
    f32Div a b = if f32IsInf b = true then none else some (f32Pack (f32Sign a != f32Sign b) f32InfMag) := by
  simp [f32Div, ha, hb, f32IsNaN_of_isInf ha]

theorem f32Div_of_inf_right (ha : f32IsFinite a = true) (hb : f32IsInf b = true) :
    f32Div a b = some (f32Pack (f32Sign a != f32Sign b) 0) := by
  simp [f32Div, hb, f32IsNaN_of_isFinite ha, f32IsInf_of_isFinite ha, f32IsNaN_of_isInf hb]

theorem f32Div_of_zero (ha : f32IsFinite a = true) (hb : f32IsFinite b = true) (hzero : f32IsZero b = true) :
    f32Div a b = if f32IsZero a = true then none else some (f32Pack (f32Sign a != f32Sign b) f32InfMag) := by
  simp [f32Div, f32IsNaN_of_isFinite ha, f32IsNaN_of_isFinite hb, f32IsInf_of_isFinite ha, f32IsInf_of_isFinite hb,
    hzero]

/-- The quotient in eighths of the unit 2^-149, with the lowest bit set where the division left a remainder
(43_fpu.md R206). -/
def quotientEighths (x y : Nat) : Nat :=
  2 * (2 ^ 151 * x / y) + if 2 ^ 151 * x % y = 0 then 0 else 1

theorem f32Div_of_nonzero (ha : f32IsFinite a = true) (hb : f32IsFinite b = true) (hzero : f32IsZero b = false) :
    f32Div a b =
      some (f32Pack (f32Sign a != f32Sign b) (f32Round (quotientEighths (f32Mag a) (f32Mag b)) 3)) := by
  simp only [f32Div, quotientEighths, f32IsNaN_of_isFinite ha, f32IsNaN_of_isFinite hb, f32IsInf_of_isFinite ha,
    f32IsInf_of_isFinite hb, hzero]
  rfl

theorem standsFor_quotientEighths (x : Nat) {y : Nat} (hy : 0 < y) :
    StandsFor (quotientEighths x y) (2 ^ 3 * (x * 2 ^ 149)) y := by
  have hnum : 2 ^ 3 * (x * 2 ^ 149) = 2 * (2 ^ 151 * x) := by ring
  rw [hnum, quotientEighths]
  have hdiv := Nat.div_add_mod (2 ^ 151 * x) y
  have hlt := Nat.mod_lt (2 ^ 151 * x) hy
  generalize 2 ^ 151 * x = n at hdiv hlt ⊢
  generalize n / y = q at hdiv ⊢
  generalize n % y = r at hdiv hlt ⊢
  subst hdiv
  split
  case isTrue hr =>
    left; rw [hr]; ring
  case isFalse hr =>
    right
    refine ⟨by omega, ?_, ?_⟩
    · rw [Nat.add_sub_cancel]; nlinarith [Nat.pos_of_ne_zero hr]
    · nlinarith

end
/-! ## NaN results -/

section
variable {a b : Acc}

theorem f32Add_eq_none_iff :
    f32Add a b = none ↔ f32IsNaN a = true ∨ f32IsNaN b = true ∨
      (f32IsInf a = true ∧ f32IsInf b = true ∧ f32Sign a ≠ f32Sign b) := by
  obtain hna | hia | hfa := f32_class a
  · simp [f32Add_of_nan (.inl hna), hna]
  · cases hnb : f32IsNaN b
    · simp [f32Add_of_inf_left hia hnb, f32IsNaN_of_isInf hia, hia]
    · simp [f32Add_of_nan (.inr hnb)]
  · rw [f32IsNaN_of_isFinite hfa, f32IsInf_of_isFinite hfa]
    obtain hnb | hib | hfb := f32_class b
    · simp [f32Add_of_nan (.inr hnb), hnb]
    · simp [f32Add_of_inf_right hfa hib, f32IsNaN_of_isInf hib]
    · obtain ⟨r, hr, _⟩ := f32Add_of_finite hfa hfb
      simp [hr, f32IsNaN_of_isFinite hfb]

/-- A difference is the sum with the negated subtrahend (43_fpu.md R204). -/
theorem f32Sub_eq_none_iff :
    f32Sub a b = none ↔ f32IsNaN a = true ∨ f32IsNaN b = true ∨
      (f32IsInf a = true ∧ f32IsInf b = true ∧ f32Sign a = f32Sign b) := by
  rw [f32Sub, f32Add_eq_none_iff]
  simp

theorem f32Mul_eq_none_iff :
    f32Mul a b = none ↔ f32IsNaN a = true ∨ f32IsNaN b = true ∨
      (f32IsInf a = true ∧ f32IsZero b = true) ∨ (f32IsZero a = true ∧ f32IsInf b = true) := by
  obtain hna | hia | hfa := f32_class a
  · simp [f32Mul_of_nan (.inl hna), hna]
  · cases hnb : f32IsNaN b
    · simp [f32Mul_of_inf_left hia hnb, f32IsNaN_of_isInf hia, f32IsZero_of_isInf hia, hia]
    · simp [f32Mul_of_nan (.inr hnb)]
  · rw [f32IsNaN_of_isFinite hfa, f32IsInf_of_isFinite hfa]
    obtain hnb | hib | hfb := f32_class b
    · simp [f32Mul_of_nan (.inr hnb), hnb]
    · simp [f32Mul_of_inf_right hfa hib, f32IsNaN_of_isInf hib, hib]
    · simp [f32Mul_of_finite hfa hfb, f32IsNaN_of_isFinite hfb, f32IsInf_of_isFinite hfb]

theorem f32Div_eq_none_iff :
    f32Div a b = none ↔ f32IsNaN a = true ∨ f32IsNaN b = true ∨
      (f32IsInf a = true ∧ f32IsInf b = true) ∨ (f32IsZero a = true ∧ f32IsZero b = true) := by
  obtain hna | hia | hfa := f32_class a
  · simp [f32Div_of_nan (.inl hna), hna]
  · cases hnb : f32IsNaN b
    · simp [f32Div_of_inf_left hia hnb, f32IsNaN_of_isInf hia, f32IsZero_of_isInf hia, hia]
    · simp [f32Div_of_nan (.inr hnb)]
  · rw [f32IsNaN_of_isFinite hfa, f32IsInf_of_isFinite hfa]
    obtain hnb | hib | hfb := f32_class b
    · simp [f32Div_of_nan (.inr hnb), hnb]
    · simp [f32Div_of_inf_right hfa hib, f32IsNaN_of_isInf hib, f32IsZero_of_isInf hib]
    · rw [f32IsNaN_of_isFinite hfb]
      cases hzb : f32IsZero b
      · simp [f32Div_of_nonzero hfa hfb hzb]
      · simp [f32Div_of_zero hfa hfb hzb]

end

/-- Settles O34: each operation's NaN results, class of operands by class. -/
theorem invalidFloatOperationsAreTheIeeeOnes : Obligations.InvalidFloatOperationsAreTheIeeeOnes :=
  fun _ _ => ⟨f32Add_eq_none_iff, f32Sub_eq_none_iff, f32Mul_eq_none_iff, f32Div_eq_none_iff⟩

/-! ## Infinite operands -/

/-- The sign bit of a product or a quotient. -/
theorem f32Pack_zero (x y : Bool) : f32Pack (x != y) 0 = if x = y then 0x00000000#32 else 0x80000000#32 := by
  revert x y; decide

theorem f32Pack_inf (x y : Bool) :
    f32Pack (x != y) f32InfMag = (if x = y then 0x00000000#32 else 0x80000000#32) ||| 0x7F800000#32 := by
  revert x y; decide

section
variable {a b : Acc}

theorem f32Add_of_inf (ha : f32IsInf a = true) (hb : f32IsFinite b = true ∨ b = a) : f32Add a b = some a := by
  obtain hb | rfl := hb
  · simp [f32Add_of_inf_left ha (f32IsNaN_of_isFinite hb), f32IsInf_of_isFinite hb]
  · simp [f32Add_of_inf_left ha (f32IsNaN_of_isInf ha)]

theorem f32Mul_of_nonzero_of_inf (hna : f32IsNaN a = false) (hza : f32IsZero a = false) (hb : f32IsInf b = true) :
    f32Mul a b = some (f32Pack (f32Sign a != f32Sign b) f32InfMag) := by
  obtain h | hia | hfa := f32_class a
  · simp [hna] at h
  · simp [f32Mul_of_inf_left hia (f32IsNaN_of_isInf hb), f32IsZero_of_isInf hb]
  · simp [f32Mul_of_inf_right hfa hb, hza]

end

/-- Settles O35: the results for infinite operands, with the sign of the product or quotient written as bits. -/
theorem infiniteOperandsGiveTheIeeeResults : Obligations.InfiniteOperandsGiveTheIeeeResults := by
  rintro a b _ rfl
  rw [← f32Pack_inf, ← f32Pack_zero]
  refine ⟨f32Add_of_inf, f32Add_of_inf_right, fun ha hb => ?subInfLeft, fun ha hb => ?subInfRight,
    fun ha hnb hzb => ?mulInfLeft, f32Mul_of_nonzero_of_inf, fun ha hb => ?divInfLeft, f32Div_of_inf_right⟩
  case subInfLeft =>
    refine f32Add_of_inf ha (hb.imp (fun hb => ?_) fun hb => ?_)
    · rw [f32IsFinite_f32Neg, hb]
    · rw [hb, f32Neg_f32Neg]
  case subInfRight => exact f32Add_of_inf_right ha ((f32IsInf_f32Neg b).trans hb)
  case mulInfLeft => simp [f32Mul_of_inf_left ha hnb, hzb]
  case divInfLeft => simp [f32Div_of_inf_left ha (f32IsNaN_of_isFinite hb), f32IsInf_of_isFinite hb]

/-! ## Finite operands -/

/-- The sign of a product or a quotient. -/
theorem sign_mul_sign (x y : Bool) :
    (if x then -1 else 1) * (if y then -1 else 1) = if (x != y) = true then (-1 : Int) else 1 := by
  revert x y; decide

theorem f32Pack_and (x y : Bool) :
    f32Pack (x && y) 0 = if x = true ∧ y = true then 0x80000000#32 else 0x00000000#32 := by
  revert x y; decide

/-- Settles O36: the sum is one exact integer, rounded once; the difference is a sum. -/
theorem floatSumAndDifferenceAreCorrectlyRounded : Obligations.FloatSumAndDifferenceAreCorrectlyRounded := by
  intro a b ha hb
  refine ⟨?sum, ?difference⟩
  case sum =>
    simp only [← f32Pack_and]
    exact f32Add_of_finite ha hb
  case difference =>
    have h := f32Add_of_finite ha ((f32IsFinite_f32Neg b).trans hb)
    simpa [f32Sub, f32Pack_and, ← sub_eq_add_neg] using h

/-- Settles O37: the product of the magnitudes is in units of 2^-298, 149 bits below the unit. -/
theorem floatProductIsCorrectlyRounded : Obligations.FloatProductIsCorrectlyRounded := by
  intro a b ha hb
  refine ⟨_, f32Mul_of_finite ha hb, ?_, f32Pack_sign _ _ (f32Round_lt _ _)⟩
  have hexact : f32Int a * f32Int b =
      (if (f32Sign a != f32Sign b) = true then -1 else 1) * ((f32Mag a * f32Mag b : Nat) : Int) := by
    rw [← sign_mul_sign, f32Int_eq, f32Int_eq]
    push_cast; ring
  rw [hexact]
  exact f32Round_isRounded _ _ 149

/-- Settles O38: the quotient in eighths of the unit, with its sticky bit, stands for the exact one. -/
theorem floatQuotientIsCorrectlyRounded : Obligations.FloatQuotientIsCorrectlyRounded := by
  intro a b ha hb hzero
  refine ⟨_, f32Div_of_nonzero ha hb hzero, ?_, f32Pack_sign _ _ (f32Round_lt _ _)⟩
  have hexact : f32Int a * 2 ^ 149 * (if f32Sign b = true then -1 else 1) =
      (if (f32Sign a != f32Sign b) = true then -1 else 1) * ((f32Mag a * 2 ^ 149 : Nat) : Int) := by
    rw [← sign_mul_sign, f32Int_eq]
    push_cast; ring
  have hpos := f32Mag_pos hzero
  rw [hexact]
  exact isRounded_of_standsFor _ hpos (by decide) (standsFor_quotientEighths _ hpos)

/-- Settles O39: an integer is a multiple of 2^149 units. -/
theorem intToFloatIsCorrectlyRounded : Obligations.IntToFloatIsCorrectlyRounded := by
  intro v
  refine ⟨?_, fun h => by subst h; decide⟩
  have hneg : decide (v.toInt * 2 ^ 149 < 0) = decide (v.toInt < 0) :=
    decide_eq_decide.mpr (by omega)
  have habs : (v.toInt * 2 ^ 149).natAbs = 2 ^ 149 * v.toInt.natAbs := by rw [Int.natAbs_mul, mul_comm]; rfl
  have hround := isRounded_of_int (v.toInt * 2 ^ 149)
  rwa [hneg, habs] at hround

end Sys2Proof.Machine
end

section
/-!
The float commands and the conversions (43_fpu.md R200 to R209). Each pops its operands, pushes 4 bytes over the last of
them and writes the flag register or leaves it: that is `Replaced`, proved once for whatever was popped.
-/

namespace Sys2Proof.Machine

/-! ## Four bytes in the place of the popped ones -/

/-- The one-byte instruction ends with `r` on top at `a` and with the flag register `flags`; of the memory it has written
the 4 bytes at `a` alone. -/
structure Replaced (r : Acc) (a : Nat) (flags : BitVec 8) (s t : State) : Prop where
  ip : t.ip = s.ip + 1#16
  sp : t.sp.toNat = a
  top : t.accAt a = r
  flags : t.flags = flags
  status : t.status = .continuing
  sameLaunch : SameLaunch s t
  frame : SameMemoryOutside a 4 s t

theorem Popped.replaced {s u : State} {a : Nat} (h : Popped s (a + 4) u) (r : Acc) (flags : BitVec 8) :
    Replaced r a flags s (((afterPush .w4 (r.setWidth 64) u).withFlags flags).continueAt (s.nip 1)) := by
  have hroom : 4 ≤ u.sp.toNat := h.sp ▸ Nat.le_add_left 4 a
  have hsp : (afterPush .w4 (r.setWidth 64) u).sp.toNat = a := by
    rw [afterPush_sp_toNat (w := .w4) hroom, h.sp, Width.bytes, Nat.add_sub_cancel]
  have htop := accAt_afterPush (v := r) hroom
  rw [hsp] at htop
  refine ⟨rfl, hsp, htop, rfl, rfl, h.sameLaunch, ?_⟩
  refine sameMemoryOutside_of_write (v := r.setWidth 64) ?_
  show u.mem.writeBytes (u.sp.toNat - 4) _ = _
  rw [h.mem, h.sp, Nat.add_sub_cancel]; rfl

theorem floatFlags_iff {r : Acc} {t : State} : FloatFlags r t ↔ t.z = f32IsZero r ∧ t.n = f32IsNegative r := by
  rw [FloatFlags, f32IsZero_iff, f32IsNegative_iff]

namespace Replaced

section
variable {r : Acc} {a : Nat} {flags : BitVec 8} {s t : State} {z n : Bool}

theorem z_eq (h : Replaced r a (s.setZN z n).flags s t) : t.z = z := by
  rw [State.z, h.flags]; exact s.setZN_z z n

theorem n_eq (h : Replaced r a (s.setZN z n).flags s t) : t.n = n := by
  rw [State.n, h.flags]; exact s.setZN_n z n

theorem floatEffect (h : Replaced r (s.sp.toNat + 4) (s.setFloatFlags r).flags s t) : FloatEffect r s t :=
  ⟨h.ip, h.sp, h.top, floatFlags_iff.mpr ⟨z_eq h, n_eq h⟩, h.flags ▸ s.setZN_reserved _ _, h.status, h.sameLaunch,
    h.frame⟩

theorem convertEffect (h : Replaced r s.sp.toNat flags s t)
    (hreserved : flags.extractLsb' 2 6 = s.flags.extractLsb' 2 6) : ConvertEffect r s t :=
  ⟨h.ip, BitVec.eq_of_toNat_eq h.sp, h.top, h.flags ▸ hreserved, h.status, h.sameLaunch, h.frame⟩

end

end Replaced

/-! ## FADD, FSUB, FMUL and FDIV -/

/-- Both pops' bounds are the only checks of a float command (43_fpu.md R203). -/
theorem completes_fpuBinary {s : State} (hs : s.stackOk) (f : Acc → Acc → Acc) :
    Completes (s.sp.toNat + 8 ≤ s.sp0.toNat)
      (FloatEffect (f (s.accAt (s.sp.toNat + 4)) (s.accAt s.sp.toNat)) s) (endStep (fpuBinary f s)) := by
  have hguarded := Guarded.of_eq_ok (x := fpuBinary f s) (p := s.sp.toNat + 8 ≤ s.sp0.toNat)
    (fun t => fpuBinary_eq_ok.trans ⟨fun ⟨hsp, _, ht⟩ => ⟨hsp, ht⟩, fun ⟨hsp, ht⟩ => ⟨hsp, hsp.trans hs.2, ht⟩⟩)
    fun _ => fpuBinary_error
  obtain ⟨hnext, hfault⟩ := hguarded.endStep
  refine ⟨fun hholds => ?_, hfault⟩
  obtain ⟨_, ht, rfl⟩ := hnext hholds
  have hpopped := ((Popped.refl hs).afterPop (w := .w4) (by simp only [Width.bytes]; omega)).afterPop (w := .w4)
    (by simp only [Width.bytes]; omega)
  exact ⟨_, ht, (hpopped.replaced _ _).floatEffect⟩

/-- The float commands, each with its result and its opcode byte (43_fpu.md R203 to R206). -/
def floatForms : List (Instr × (Acc → Acc → Acc) × Byte) :=
  [(.fadd, fun a b => f32Result .fadd a b (f32Add a b), 0xAC#8),
    (.fsub, fun a b => f32Result .fsub a b (f32Sub a b), 0xAD#8),
    (.fmul, fun a b => f32Result .fmul a b (f32Mul a b), 0xAE#8),
    (.fdiv, fun a b => if b = 0x00000000#32 ∨ b = 0x80000000#32 then 0x00000000#32
      else f32Result .fdiv a b (f32Div a b), 0xAF#8)]

theorem fdivResult_eq (a b : Acc) :
    fdivResult a b = if b = 0x00000000#32 ∨ b = 0x80000000#32 then 0x00000000#32
      else f32Result .fdiv a b (f32Div a b) := by
  simp only [fdivResult, f32IsZero_iff, decide_eq_true_eq]
  rfl

theorem decodesTo_and_exec_float {i : Instr} {f : Acc → Acc → Acc} {op : Byte} (h : (i, f, op) ∈ floatForms) :
    (∀ c, DecodesTo c [op] i c.fpu) ∧ ∀ s, exec i s = endStep (fpuBinary f s) := by
  simp only [floatForms, List.mem_cons, List.not_mem_nil, or_false, Prod.mk.injEq] at h
  obtain ⟨rfl, rfl, rfl⟩ | ⟨rfl, rfl, rfl⟩ | ⟨rfl, rfl, rfl⟩ | ⟨rfl, rfl, rfl⟩ := h
  · exact ⟨fun _ => decodesTo_encode (i := .fadd) rfl, fun _ => rfl⟩
  · exact ⟨fun _ => decodesTo_encode (i := .fsub) rfl, fun _ => rfl⟩
  · exact ⟨fun _ => decodesTo_encode (i := .fmul) rfl, fun _ => rfl⟩
  · refine ⟨fun _ => decodesTo_encode (i := .fdiv) rfl, fun s => ?_⟩
    simp only [← fdivResult_eq]
    rfl

/-- Settles O32: both pops' bounds are the only checks, and the test of FDIV's divisor is the model's. -/
theorem floatCommandsPushTheFloatResult : Obligations.FloatCommandsPushTheFloatResult := by
  intro s hs i f op hform
  obtain ⟨hdecodes, hexec⟩ := decodesTo_and_exec_float hform
  obtain ⟨hnext, hfault⟩ := completes_fpuBinary hs f
  rw [hexec]
  exact ⟨hdecodes, hnext, fun h => hfault (Nat.not_le_of_lt h)⟩

/-- Where the IEEE result is a NaN, a float command pushes the `FNAN` of its operation (43_fpu.md R202). -/
theorem exec_of_nan {s : State} {i : Instr} {f : Acc → Acc → Option Acc}
    (h : (i, f) ∈ [(Instr.fadd, f32Add), (Instr.fsub, f32Sub), (Instr.fmul, f32Mul),
      (Instr.fdiv, fun a b => if f32IsZero b = true then some 0 else f32Div a b)]) :
    ∃ op g, exec i s = endStep (fpuBinary g s) ∧ ∀ a b, f a b = none → g a b = fnan op a b := by
  simp only [List.mem_cons, List.not_mem_nil, or_false, Prod.mk.injEq] at h
  obtain ⟨rfl, rfl⟩ | ⟨rfl, rfl⟩ | ⟨rfl, rfl⟩ | ⟨rfl, rfl⟩ := h
  · exact ⟨.fadd, _, rfl, fun _ _ h => congrArg (f32Result .fadd _ _) h⟩
  · exact ⟨.fsub, _, rfl, fun _ _ h => congrArg (f32Result .fsub _ _) h⟩
  · exact ⟨.fmul, _, rfl, fun _ _ h => congrArg (f32Result .fmul _ _) h⟩
  · refine ⟨.fdiv, _, rfl, fun a b h => ?_⟩
    obtain ⟨hzero, hdiv⟩ := ite_eq_iff.mp h |>.resolve_left fun h => nomatch h.2
    rw [fdivResult, if_neg hzero, hdiv, f32Result]

theorem flags_clear_of_isNaN {r : Acc} {t : State} (h : FloatFlags r t) (hr : f32IsNaN r = true) :
    t.z = false ∧ t.n = false := by
  obtain ⟨hz, hn⟩ := floatFlags_iff.mp h
  refine ⟨hz.trans (f32IsZero_of_isNaN hr), hn.trans ?_⟩
  rw [f32IsNegative, hr, Bool.not_true, Bool.and_false]

/-- Settles O33: `FNAN` is a NaN, and the float flags of a NaN are clear. -/
theorem naNResultsAreNaNsAndClearTheFlags : Obligations.NaNResultsAreNaNsAndClearTheFlags := by
  intro s hs hholds i f hform hnone
  obtain ⟨op, g, hexec, hg⟩ := exec_of_nan (s := s) hform
  obtain ⟨hnext, _⟩ := completes_fpuBinary hs g
  obtain ⟨t, ht, _, hsp, htop, hflags, _⟩ := hnext hholds
  rw [hg _ _ hnone] at htop hflags
  have hnan := fnan_isNaN op (s.accAt (s.sp.toNat + 4)) (s.accAt s.sp.toNat)
  exact ⟨t, hexec.trans ht, by rw [hsp, htop, hnan], flags_clear_of_isNaN hflags hnan⟩

/-! ## CONVF and CONVI -/

/-- The common form of the conversions: the result `f v` of the popped `v` is pushed, and its flags are written when the
option is on (43_fpu.md R207). -/
def convertInPlace (f : Acc → Acc) (z n : Acc → Bool) (s : State) : Except Fault State := do
  let (v, t) ← popAcc s
  let t ← pushAcc (f v) t
  .ok ((t.whenConvSetsFlags (t.setZN (z (f v)) (n (f v)))).continueAt (s.nip 1))

theorem exec_convf (s : State) :
    exec .convf s = endStep (convertInPlace (fun v => f32FromInt v.toInt) f32IsZero f32IsNegative s) := rfl

theorem exec_convi (s : State) :
    exec .convi s = endStep (convertInPlace conviResult (fun r => decide (r.setWidth 64 = (0 : Value)))
      (fun r => signBit .w4 (r.setWidth 64)) s) := rfl

/-- The flag register after a conversion (43_fpu.md R208, R209). -/
def convertFlags (z n : Bool) (s : State) : BitVec 8 :=
  if s.cfg.convSetsFlags = true then (s.setZN z n).flags else s.flags

theorem convertFlags_reserved (z n : Bool) (s : State) :
    (convertFlags z n s).extractLsb' 2 6 = s.flags.extractLsb' 2 6 := by
  unfold convertFlags
  split
  · exact s.setZN_reserved z n
  · rfl

/-- Flags written under the option are one write of the flag register. -/
theorem whenConvSetsFlags_setZN (z n : Bool) (s : State) :
    s.whenConvSetsFlags (s.setZN z n) = s.withFlags (convertFlags z n s) := by
  unfold State.whenConvSetsFlags convertFlags
  split <;> rfl

/-- What a conversion does: its flags are written with both bits under the option, and kept without it. -/
theorem Replaced.convert {r : Acc} {z n : Bool} {s t : State}
    (h : Replaced r s.sp.toNat (convertFlags z n s) s t) :
    ConvertEffect r s t ∧ (s.cfg.convSetsFlags = true → t.z = z ∧ t.n = n) ∧
      (s.cfg.convSetsFlags = false → t.flags = s.flags) := by
  refine ⟨h.convertEffect (convertFlags_reserved z n s), fun hon => ?_, fun hoff => ?_⟩
  · rw [convertFlags, if_pos hon] at h
    exact ⟨h.z_eq, h.n_eq⟩
  · rw [h.flags, convertFlags, hoff]
    rfl

/-- The pop's bounds are the only check of a conversion: there is room to push what was popped. -/
theorem completes_convert {s : State} (hs : s.stackOk) (f : Acc → Acc) (z n : Acc → Bool) {r : Acc}
    (hr : r = f (s.accAt s.sp.toNat)) :
    Completes (s.sp.toNat + 4 ≤ s.sp0.toNat) (Replaced r s.sp.toNat (convertFlags (z r) (n r) s) s)
      (endStep (convertInPlace f z n s)) := by
  subst hr
  refine ⟨fun hholds => ?_, fun hshort => ?_⟩
  · have hpopped := (Popped.refl hs).afterPop (w := .w4) hholds
    have hpop := popAcc_eq_ok.mpr ⟨hholds, hholds.trans hs.2, rfl⟩
    have hpush := pushAcc_eq_ok (v := f (s.accAt s.sp.toNat)) (s := afterPop .w4 s) |>.mpr
      ⟨by rw [hpopped.sp]; exact Nat.le_add_left 4 _, by rw [hpopped.sp]; exact hholds.trans hs.2, rfl⟩
    refine ⟨_, ?_, hpopped.replaced _ _⟩
    rw [convertInPlace, hpop, bind_ok]
    dsimp only
    rw [hpush, bind_ok, whenConvSetsFlags_setZN]
    rfl
  · have hpop : popAcc s = .error .boundsViolation := by
      rw [popAcc, pop_of_short (Nat.lt_of_not_le hshort), bind_error]
    rw [convertInPlace, hpop, bind_error, endStep_error]

/-- Settles O40: the result is the float of the signed value, and its flags are the float ones. -/
theorem convfConvertsInPlace : Obligations.ConvfConvertsInPlace := by
  intro s hs
  obtain ⟨hnext, hfault⟩ := completes_convert hs (fun v => f32FromInt v.toInt) f32IsZero f32IsNegative rfl
  rw [exec_convf]
  refine ⟨fun _ => decodesTo_encode (i := .convf) rfl, fun hholds => ?_, fun h => hfault (Nat.not_le_of_lt h)⟩
  obtain ⟨t, ht, hreplaced⟩ := hnext hholds
  obtain ⟨heffect, hwritten, hkept⟩ := hreplaced.convert
  exact ⟨t, ht, heffect, fun hon => floatFlags_iff.mpr (hwritten hon), hkept⟩

/-- Truncation rounds toward zero (43_fpu.md R209). -/
theorem f32Trunc_eq_tdiv (x : Acc) : f32Trunc x = (f32Int x).tdiv (2 ^ 149) := by
  have hmag : (f32Mag x : Int).tdiv (2 ^ 149) = ((f32Mag x / 2 ^ 149 : Nat) : Int) := (Int.ofNat_tdiv _ _).symm
  unfold f32Trunc f32Int
  split
  · rw [Int.neg_tdiv, hmag]
  · exact hmag.symm

/-- The result of CONVI: the truncated float in range, and the free value otherwise (43_fpu.md R209). -/
theorem conviResult_spec (v : Acc) :
    if f32IsFinite v = true ∧ -(2 ^ 31) ≤ f32Trunc v ∧ f32Trunc v ≤ 2 ^ 31 - 1
      then (conviResult v).toInt = f32Trunc v else conviResult v = Config.conviOor v := by
  simp only [conviResult, Bool.and_eq_true, decide_eq_true_eq, and_assoc]
  split
  case isTrue hin =>
    obtain ⟨_, hlo, hhi⟩ := hin
    rw [BitVec.toInt_ofInt]
    exact Int.bmod_eq_of_le (by omega) (by omega)
  case isFalse => rfl

/-- The integer flags of 4 bytes, on the 32 bits themselves (42_alu.md R172). -/
theorem intFlags_of_acc (r : Acc) :
    decide (r.setWidth 64 = (0 : Value)) = decide (r = 0#32) ∧ signBit .w4 (r.setWidth 64) = r.getLsbD 31 := by
  refine ⟨decide_eq_decide.mpr ?_, ?_⟩
  · rw [← toNat_eq_zero_iff, BitVec.toNat_setWidth_of_le (by decide), toNat_eq_zero_iff]; rfl
  · simp [signBit, Width.bytes]

/-- Settles O41: the result is the truncated value or the free one, and its flags are the integer ones. -/
theorem conviTruncatesInPlace : Obligations.ConviTruncatesInPlace := by
  intro s hs
  obtain ⟨hz, hn⟩ := intFlags_of_acc (conviResult (s.accAt s.sp.toNat))
  obtain ⟨hnext, hfault⟩ := completes_convert hs conviResult (fun r => decide (r.setWidth 64 = (0 : Value)))
    (fun r => signBit .w4 (r.setWidth 64)) rfl
  rw [exec_convi]
  refine ⟨fun _ => decodesTo_encode (i := .convi) rfl, fun hholds => ?_, fun h => hfault (Nat.not_le_of_lt h)⟩
  obtain ⟨t, ht, hreplaced⟩ := hnext hholds
  obtain ⟨heffect, hwritten, hkept⟩ := hreplaced.convert
  rw [hz, hn] at hwritten
  refine ⟨t, _, ht, heffect, ?_, hwritten, hkept⟩
  rintro _ rfl
  exact f32Trunc_eq_tdiv _ ▸ conviResult_spec _

end Sys2Proof.Machine
end

section
/-!
Control transfer (44_control.md R220 to R243). A branch is its condition's evaluation and then `branchIp`; CALL, CALLI
and RET are sequences of the stack engine's operations; and every end of an instruction but those of YIELD and HALT
answers CONTINUE.
-/

namespace Sys2Proof.Machine

/-! ## The branches -/

/-- The branch instruction of a condition (44_control.md R224 to R230). -/
def Cond.branchInstr : Cond → Disp → Instr
  | .always => .bra
  | .eq => .beq
  | .ne => .bne
  | .lt => .blt
  | .gt => .bgt
  | .le => .ble
  | .ge => .bge

/-- The condition code of a condition (30_encoding.md R104). -/
def Cond.code : Cond → BitVec 3
  | .always => 0#3
  | .eq => 1#3
  | .ne => 2#3
  | .lt => 3#3
  | .gt => 4#3
  | .le => 5#3
  | .ge => 6#3

theorem encode_branchInstr (cond : Cond) (d : Disp) (c : Config) :
    encode c (cond.branchInstr d) = branchBytes cond.code d := by
  have hbytes : ∀ ccc, encodeBranch ccc d = branchBytes ccc d := fun ccc => by cases d <;> rfl
  cases cond <;> exact hbytes _

theorem decodesTo_branchInstr (cond : Cond) (d : Disp) (c : Config) :
    DecodesTo c (branchBytes cond.code d) (cond.branchInstr d) true := by
  rw [← encode_branchInstr cond d c]
  cases cond <;> exact decodesTo_encode rfl

theorem exec_branchInstr (cond : Cond) (d : Disp) (s : State) :
    exec (cond.branchInstr d) s = endStep (branch cond d s) := by
  cases cond <;> rfl

/-- The address after the branch, or its target (44_control.md R220). -/
theorem branchTarget_eq_branchIp (s : State) (taken : Bool) (d : Disp) :
    (if taken then branchTarget (s.nip (1 + d.length)) d else s.nip (1 + d.length)) = branchIp s.ip taken d := by
  cases d <;> rfl

/-- A branch evaluates its condition and goes where `branchIp` says (44_control.md R221). -/
theorem branch_eq_bind (cond : Cond) (d : Disp) (s : State) :
    branch cond d s = evalCond cond s >>= fun r => .ok (r.2.continueAt (branchIp s.ip r.1 d)) := by
  simp only [← branchTarget_eq_branchIp]
  rfl

theorem evalCond_of_flags {s : State} (hsrc : s.cfg.branchSrc = .flags) (cond : Cond) :
    evalCond cond s = .ok (cond.onFlags s.z s.n, s) := by
  rw [evalCond, hsrc]

/-- An unconditional branch is taken under either strategy and pops nothing (44_control.md R222, R223). -/
theorem evalCond_always (s : State) : evalCond .always s = .ok (true, s) := by
  cases hsrc : s.cfg.branchSrc with
  | flags => exact evalCond_of_flags hsrc .always
  | stack => rw [evalCond, hsrc]; rfl

theorem evalCond_of_stack {s : State} (hsrc : s.cfg.branchSrc = .stack) {cond : Cond} (hcond : cond ≠ .always) :
    evalCond cond s = popAcc s >>= fun r => .ok (cond.onValue r.1.toInt, r.2) := by
  rw [evalCond, hsrc]
  exact if_neg hcond

theorem branch_always (d : Disp) (s : State) : branch .always d s = .ok (s.continueAt (branchIp s.ip true d)) := by
  rw [branch_eq_bind, evalCond_always, bind_ok]

/-- The unconditional branches, the second encoding of BRA.S among them (44_control.md R224, R231). -/
theorem exec_bra (d : Disp) (s : State) : exec (.bra d) s = .next (s.continueAt (branchIp s.ip true d)) :=
  congrArg endStep (branch_always d s)

theorem exec_braAlt (d8 : BitVec 8) (s : State) :
    exec (.braAlt d8) s = .next (s.continueAt (branchIp s.ip true (.d8 d8))) := exec_bra (.d8 d8) s

/-- Popping 4 bytes (20_memory.md R71). -/
theorem Popped.popAcc {s t : State} {top : Nat} (h : Popped s top t) :
    Guarded (top + 4 ≤ s.sp0.toNat) (fun r => r.1 = s.accAt top ∧ Popped s (top + 4) r.2) (popAcc t) :=
  (h.pop .w4).map fun _ ⟨hv, ht⟩ => ⟨congrArg (BitVec.setWidth 32) hv, ht⟩

/-- A conditional branch under the STACK strategy pops its value and goes on, taken or not (44_control.md R223). -/
theorem completes_branch_of_stack {s : State} (hs : s.stackOk) (hsrc : s.cfg.branchSrc = .stack) {cond : Cond}
    (hcond : cond ≠ .always) (d : Disp) :
    Completes (s.sp.toNat + 4 ≤ s.sp0.toNat)
      (fun t => ∃ u, Popped s (s.sp.toNat + 4) u ∧
        t = u.continueAt (branchIp s.ip (cond.onValue (s.accAt s.sp.toNat).toInt) d))
      (exec (cond.branchInstr d) s) := by
  rw [exec_branchInstr, branch_eq_bind, evalCond_of_stack hsrc hcond]
  refine Guarded.endStep (Guarded.map (P := fun r => r.1 = cond.onValue (s.accAt s.sp.toNat).toInt ∧
    Popped s (s.sp.toNat + 4) r.2) ((Popped.refl hs).popAcc.map ?_) ?_)
  · rintro r ⟨hv, hu⟩
    exact ⟨congrArg (fun v : Acc => cond.onValue v.toInt) hv, hu⟩
  · rintro r ⟨htaken, hu⟩
    exact ⟨r.2, hu, by rw [htaken]⟩

/-! ## Return addresses -/

/-- Byte `i` of an address in memory, the least significant first (20_memory.md R65). -/
def addrByte (a : Addr) (i : Nat) : Byte := a.extractLsb' (8 * i) 8

theorem addrByte_append (a : Addr) : addrByte a 1 ++ addrByte a 0 = a := by
  rw [← ofLE16_pair]
  exact ofLE16_encode16 a

theorem extractLsb'_setWidth_addr (a : Addr) {i : Nat} (hi : i < 2) :
    (a.setWidth 64).extractLsb' (8 * i) 8 = addrByte a i := by
  ext j hj
  have hlt : 8 * i + j < 64 := by omega
  simp [addrByte, hlt]

theorem addrAt_eq_append (s : State) (a : Nat) : s.addrAt a = s.readByte (a + 1) ++ s.readByte a :=
  ofLE16_pair _ _

/-- Pushing a return address and going on at `ip` (44_control.md R233, R234). -/
theorem Popped.pushAddrThenContinue {s t : State} {top : Nat} (h : Popped s top t) (a ip : Addr) :
    Guarded (2 ≤ top) (Wrote s ip (top - 2) (top - 2) 2 (addrByte a))
      (pushAddr a t >>= fun u => .ok (u.continueAt ip)) :=
  h.pushThenContinue (w := .w2) ip fun _ hi => extractLsb'_setWidth_addr a hi

section
variable {s : State} (hs : s.stackOk)

include hs

/-- CALL (44_control.md R233). -/
theorem exec_call (a16 : Addr) :
    Completes (2 ≤ s.sp.toNat) (Wrote s a16 (s.sp.toNat - 2) (s.sp.toNat - 2) 2 (addrByte (s.ip + 3#16)))
      (exec (.call a16) s) :=
  ((Popped.refl hs).pushAddrThenContinue (s.nip 3) a16).endStep

/-- CALLI: the pop of the target leaves room for the push (44_control.md R234). -/
theorem exec_calli :
    Completes (s.sp.toNat + 2 ≤ s.sp0.toNat)
      (Wrote s (s.addrAt s.sp.toNat) s.sp.toNat s.sp.toNat 2 (addrByte (s.ip + 1#16))) (exec .calli s) := by
  have hcalli : Completes (s.sp.toNat + 2 ≤ s.sp0.toNat ∧ 2 ≤ s.sp.toNat + 2)
      (Wrote s (s.addrAt s.sp.toNat) (s.sp.toNat + 2 - 2) (s.sp.toNat + 2 - 2) 2 (addrByte (s.ip + 1#16)))
      (exec .calli s) := Guarded.endStep <| (Popped.refl hs).popAddrThen fun _ ht =>
    ht.pushAddrThenContinue (s.nip 1) (s.addrAt s.sp.toNat)
  rwa [Nat.add_sub_cancel, and_iff_left (Nat.le_add_left _ _)] at hcalli

/-- RET (44_control.md R235). -/
theorem exec_ret :
    Completes (s.sp.toNat + 2 ≤ s.sp0.toNat)
      (fun t => ∃ u, Popped s (s.sp.toNat + 2) u ∧ t = u.continueAt (s.addrAt s.sp.toNat)) (exec .ret s) :=
  ((Popped.refl hs).popAddr.map fun r ⟨htarget, hu⟩ => ⟨r.2, hu, by rw [htarget]⟩).endStep

end

/-- What is known of an instruction that did complete. -/
theorem Completes.of_next {p : Prop} {Q : State → Prop} {r : Result} {t : State} (h : Completes p Q r)
    (hr : r = .next t) : p ∧ Q t := by
  obtain ⟨hnext, hfault⟩ := h
  subst hr
  by_cases hp : p
  · obtain ⟨t', ht, hQ⟩ := hnext hp
    cases ht
    exact ⟨hp, hQ⟩
  · cases hfault hp

/-- RET where a call has left its return address on top: it takes a state with the launch constants, the stack pointer
and the two top bytes of the state after the call (44_control.md R236). -/
theorem exec_ret_of_wrote {s t u : State} {ip a : Addr} {sp : Nat} (hs : s.stackOk) (hsp : sp + 2 ≤ s.sp0.toNat)
    (ht : Wrote s ip sp sp 2 (addrByte a) t) (hlaunch : SameLaunch t u) (husp : u.sp = t.sp)
    (hlow : u.readByte t.sp.toNat = t.readByte t.sp.toNat)
    (hhigh : u.readByte (t.sp.toNat + 1) = t.readByte (t.sp.toNat + 1)) :
    ∃ v, exec .ret u = .next v ∧ v.ip = a ∧ v.sp.toNat = sp + 2 := by
  obtain ⟨_, htsp, _, _, ⟨hsize, hsp0, _⟩, hbytes, _⟩ := ht
  obtain ⟨hsize', hsp0', _⟩ := hlaunch
  rw [htsp] at hlow hhigh
  have husp : u.sp.toNat = sp := (congrArg BitVec.toNat husp).trans htsp
  have husp0 : u.sp0 = s.sp0 := hsp0'.trans hsp0
  have hstack : u.stackOk := by
    obtain ⟨_, hbuffer⟩ := hs
    rw [State.stackOk, husp, husp0, hsize', hsize]
    omega
  have htarget : u.addrAt sp = a := by
    rw [addrAt_eq_append, hhigh, hlow, hbytes 1 (by decide), ← Nat.add_zero sp, hbytes 0 (by decide),
      addrByte_append]
  obtain ⟨hnext, _⟩ := exec_ret hstack
  rw [husp, husp0, htarget] at hnext
  obtain ⟨_, hexec, w, hw, rfl⟩ := hnext hsp
  exact ⟨_, hexec, rfl, hw.sp⟩

/-! ## The status -/

/-- The operation answers CONTINUE when it answers (44_control.md R242). -/
def Continues (x : Except Fault State) : Prop := ∀ t, x = .ok t → t.status = .continuing

namespace Continues

section
variable {s : State} {ip : Addr}

theorem continueAt : Continues (.ok (s.continueAt ip)) := by
  rintro _ ⟨⟩
  rfl

theorem bind {α : Type} {x : Except Fault α} {f : α → Except Fault State} (hf : ∀ a, Continues (f a)) :
    Continues (x >>= f) := by
  intro t h
  obtain ⟨a, _, h⟩ := bind_eq_ok.mp h
  exact hf a t h

theorem endStep {x : Except Fault State} {t : State} (hx : Continues x) (h : endStep x = .next t) :
    t.status = .continuing := hx t (endStep_eq_next.mp h)

theorem loadFrom {ea : Addr} {w : Width} : Continues (loadFrom ea w ip s) :=
  .bind fun _ => .bind fun _ => .continueAt

theorem storeTo {ea : Addr} {w : Width} {v : Value} : Continues (storeTo ea w v ip s) := .bind fun _ => .continueAt

theorem dup {ww : BitVec 2} {k len : Nat} : Continues (dup ww k len s) :=
  .bind fun _ => .bind fun _ => .bind fun _ => .continueAt

theorem dig {ww : BitVec 2} {k len : Nat} : Continues (dig ww k len s) :=
  .bind fun _ => .bind fun _ => .bind fun _ => .continueAt

theorem aluFinish {w : Width} {r : Acc} : Continues (aluFinish w r ip s) := .bind fun _ => .continueAt

theorem aluBinary {f : Acc → Acc → Except Fault Acc} {ww : BitVec 2} : Continues (aluBinary f ww s) :=
  .bind fun _ => .bind fun _ => .bind fun _ => .aluFinish

theorem aluUnary {f : Acc → Acc} {ww : BitVec 2} : Continues (aluUnary f ww s) := .bind fun _ => .aluFinish

theorem fpuBinary {f : Acc → Acc → Acc} : Continues (fpuBinary f s) :=
  .bind fun _ => .bind fun _ => .bind fun _ => .continueAt

theorem branch {cond : Cond} {d : Disp} : Continues (branch cond d s) := .bind fun _ => .continueAt

end

end Continues

/-- Every instruction but YIELD and HALT ends with CONTINUE (44_control.md R242). -/
theorem exec_status {i : Instr} {s t : State} (h : exec i s = .next t) (hyield : i ≠ .yield) (hhalt : i ≠ .halt) :
    t.status = .continuing := by
  cases i with
  | loadDir => exact Continues.loadFrom.endStep h
  | loadXb => exact (Continues.bind fun _ => .loadFrom).endStep h
  | loadXw => exact (Continues.bind fun _ => .bind fun _ => .loadFrom).endStep h
  | storeDir => exact (Continues.bind fun _ => .storeTo).endStep h
  | storeXb => exact (Continues.bind fun _ => .bind fun _ => .storeTo).endStep h
  | storeXw => exact (Continues.bind fun _ => .bind fun _ => .bind fun _ => .storeTo).endStep h
  | loadImm | pop | call | ret => exact (Continues.bind fun _ => .continueAt).endStep h
  | calli | convf | convi => exact (Continues.bind fun _ => .bind fun _ => .continueAt).endStep h
  | dup0 | dup1 | dup2 | dupX => exact Continues.dup.endStep h
  | dig0 | dig1 | dig2 | digX => exact Continues.dig.endStep h
  | add | sub | mul | div | mod | and | or | xor => exact Continues.aluBinary.endStep h
  | not => exact Continues.aluUnary.endStep h
  | fadd | fsub | fmul | fdiv => exact Continues.fpuBinary.endStep h
  | bra | beq | bne | blt | bgt | ble | bge | braAlt => exact Continues.branch.endStep h
  | yield => contradiction
  | halt => contradiction

/-! ## The opcode byte of a step -/

/-- Everything the fetch can do when it answers (30_encoding.md R115). -/
theorem fetchInstr_eq_ok {s : State} {i : Instr} :
    fetchInstr s = .ok i ↔ s.ip.toNat < s.memSize ∧ decode s.cfg (fetchWindow s) = .ok i := by
  rw [fetchInstr]
  by_cases hip : s.memSize ≤ s.ip.toNat
  · simp [hip]
  · rw [if_neg hip, ← Nat.not_le, and_iff_right hip]
    cases decode s.cfg (fetchWindow s) <;> simp

/-- An instruction of one byte was fetched from its own opcode byte. -/
theorem readByte_of_fetchInstr {s : State} {i : Instr} {op : Byte} (h : fetchInstr s = .ok i)
    (hencode : encode s.cfg i = [op]) : s.readByte s.ip.toNat = op := by
  obtain ⟨hip, hdecode⟩ := fetchInstr_eq_ok.mp h
  obtain ⟨_, _, hbytes⟩ := encodeOfDecode _ _ _ hdecode
  rw [← encode_length, hencode, fetchWindow_eq_cons hip] at hbytes
  exact (List.head_eq_of_cons_eq hbytes).symm

/-- A step at a HALT byte executes HALT. -/
theorem step_of_halt {s : State} (hip : s.ip.toNat < s.memSize) (hop : s.readByte s.ip.toNat = 0xFF#8) :
    step s = .next { s with status := .halted } := by
  refine step_eq_next.mpr ⟨.halt, fetchInstr_eq_ok.mpr ⟨hip, ?_⟩, rfl⟩
  rw [fetchWindow_eq_cons hip, hop]
  exact decodeOfEncode s.cfg .halt _ rfl

/-! ## The obligations -/

/-- Settles O42: a row of the table is a condition with its code, its branch and its test of the flags. -/
theorem branchesTestTheFlags : Obligations.BranchesTestTheFlags := by
  intro d d8 s hsrc
  refine ⟨fun ccc mk taken hrow => ?_, fun _ => decodesTo_encode (i := .braAlt d8) rfl, exec_braAlt d8 s⟩
  obtain ⟨cond, rfl, rfl, rfl⟩ :
      ∃ cond : Cond, ccc = cond.code ∧ mk = cond.branchInstr ∧ taken = cond.onFlags s.z s.n := by
    simp only [List.mem_cons, List.not_mem_nil, or_false, Prod.mk.injEq] at hrow
    obtain h | h | h | h | h | h | h := hrow
    exacts [⟨.always, h⟩, ⟨.eq, h⟩, ⟨.ne, h⟩, ⟨.lt, h⟩, ⟨.gt, h⟩, ⟨.le, h⟩, ⟨.ge, h⟩]
  refine ⟨decodesTo_branchInstr cond d, ?_⟩
  rw [exec_branchInstr, branch_eq_bind, evalCond_of_flags hsrc]
  rfl

/-- Settles O43: a row of the table is a condition other than the constant one, with its branch and its test of the
popped value. -/
theorem branchesTestThePoppedValue : Obligations.BranchesTestThePoppedValue := by
  intro d d8 s hs hsrc
  refine ⟨?_, exec_bra d s, exec_braAlt d8 s⟩
  rintro x rfl mk taken hrow
  obtain ⟨cond, hcond, rfl, rfl⟩ : ∃ cond : Cond, cond ≠ .always ∧ mk = cond.branchInstr ∧
      taken = (cond.onValue (s.accAt s.sp.toNat).toInt = true) := by
    simp only [List.mem_cons, List.not_mem_nil, or_false, Prod.mk.injEq] at hrow
    obtain ⟨rfl, rfl⟩ | ⟨rfl, rfl⟩ | ⟨rfl, rfl⟩ | ⟨rfl, rfl⟩ | ⟨rfl, rfl⟩ | ⟨rfl, rfl⟩ := hrow
    · exact ⟨.eq, nofun, rfl, decide_eq_true_eq.symm⟩
    · exact ⟨.ne, nofun, rfl, decide_eq_true_eq.symm⟩
    · exact ⟨.lt, nofun, rfl, decide_eq_true_eq.symm⟩
    · exact ⟨.gt, nofun, rfl, decide_eq_true_eq.symm⟩
    · exact ⟨.le, nofun, rfl, decide_eq_true_eq.symm⟩
    · exact ⟨.ge, nofun, rfl, decide_eq_true_eq.symm⟩
  obtain ⟨hnext, hfault⟩ := completes_branch_of_stack hs hsrc hcond d
  refine ⟨fun hholds => ?_, fun h => hfault (Nat.not_le_of_lt h)⟩
  obtain ⟨_, hexec, u, hu, rfl⟩ := hnext hholds
  refine ⟨_, hexec, fun htaken => ?_, fun hnot => ?_, hu.sp, hu.flags, rfl, hu.sameLaunch,
    fun a => congrArg (·.read a) hu.mem⟩
  · rw [State.continueAt_ip, htaken]
  · rw [State.continueAt_ip, Bool.eq_false_of_not_eq_true hnot]

/-- Settles O44: the push's room is the only check, and the target is checked by the next fetch. -/
theorem callPushesTheReturnAddress : Obligations.CallPushesTheReturnAddress := by
  intro lo hi s hs
  obtain ⟨hnext, hfault⟩ := exec_call hs (hi ++ lo)
  refine ⟨fun c => ?_, fun hroom => ?_, fun h => hfault (Nat.not_le_of_lt h)⟩
  · exact encode16_append lo hi ▸ decodesTo_encode (i := .call (hi ++ lo)) rfl
  · obtain ⟨t, ht, hip, hsp, hflags, hstatus, hlaunch, hbytes, hframe⟩ := hnext hroom
    have hhigh : s.sp.toNat - 1 = s.sp.toNat - 2 + 1 := by omega
    refine ⟨t, ht, hip, hsp, hbytes 0 (by decide), hhigh ▸ hbytes 1 (by decide), hflags, hstatus, hlaunch, hframe,
      fun hout => step_of_ip_outside ?_⟩
    rwa [hip, hlaunch.1]

/-- Settles O45: the pop's bounds are the only check. -/
theorem calliReplacesTheTargetByTheReturnAddress : Obligations.CalliReplacesTheTargetByTheReturnAddress := by
  intro s hs
  obtain ⟨hnext, hfault⟩ := exec_calli hs
  refine ⟨fun _ => decodesTo_encode (i := .calli) rfl, fun hholds => ?_, fun h => hfault (Nat.not_le_of_lt h)⟩
  obtain ⟨t, ht, hip, hsp, hflags, hstatus, hlaunch, hbytes, hframe⟩ := hnext hholds
  exact ⟨t, ht, hip.trans (addrAt_eq_append s _), BitVec.eq_of_toNat_eq hsp, hbytes 0 (by decide),
    hbytes 1 (by decide), hflags, hstatus, hlaunch, hframe⟩

/-- Settles O46: a pop moves `sp` alone. -/
theorem retPopsTheReturnAddress : Obligations.RetPopsTheReturnAddress := by
  intro s hs
  obtain ⟨hnext, hfault⟩ := exec_ret hs
  refine ⟨fun _ => decodesTo_encode (i := .ret) rfl, fun hholds => ?_, fun h => hfault (Nat.not_le_of_lt h)⟩
  obtain ⟨_, hexec, u, hu, rfl⟩ := hnext hholds
  exact ⟨_, hexec, addrAt_eq_append s _, hu.sp, hu.flags, rfl, hu.sameLaunch, fun a => congrArg (·.read a) hu.mem⟩

/-- Settles O47: either call has left its return address at the new top, two bytes below the old one for CALL and in the
target's place for CALLI. -/
theorem returnGoesBackToTheCaller : Obligations.ReturnGoesBackToTheCaller := by
  intro s t u hs hlaunch husp hlow hhigh
  refine ⟨fun a16 hcall => ?_, fun hcalli => ?_⟩
  · obtain ⟨hroom, ht⟩ := (exec_call hs a16).of_next hcall
    have htop : s.sp.toNat - 2 + 2 = s.sp.toNat := Nat.sub_add_cancel hroom
    obtain ⟨v, hret, hip, hsp⟩ := exec_ret_of_wrote hs (htop.trans_le hs.1) ht hlaunch husp hlow hhigh
    exact ⟨v, hret, hip, BitVec.eq_of_toNat_eq (hsp.trans htop)⟩
  · obtain ⟨hholds, ht⟩ := (exec_calli hs).of_next hcalli
    exact exec_ret_of_wrote hs hholds ht hlaunch husp hlow hhigh

/-- Settles O48: YIELD is the end of a step and nothing else. -/
theorem yieldSuspends : Obligations.YieldSuspends :=
  ⟨fun _ => decodesTo_encode (i := .yield) rfl, rfl, fun _ => rfl⟩

/-- Settles O49: the state that HALT gives has the same HALT byte at `ip`. -/
theorem haltStops : Obligations.HaltStops :=
  ⟨fun _ => decodesTo_encode (i := .halt) rfl, rfl, fun _ => rfl,
    fun s hip hop => ⟨step_of_halt hip hop, step_of_halt (s := { s with status := .halted }) hip hop⟩⟩

/-- Settles O50: a step that completes ran an instruction, which was YIELD or HALT only at their opcode bytes. -/
theorem onlyYieldAndHaltSignal : Obligations.OnlyYieldAndHaltSignal := by
  refine ⟨rfl, fun _ _ _ => exec_status, fun s t h hyield hhalt => ?_⟩
  obtain ⟨i, hfetch, hexec⟩ := step_eq_next.mp h
  refine exec_status hexec ?_ ?_
  · rintro rfl
    exact hyield (readByte_of_fetchInstr hfetch rfl)
  · rintro rfl
    exact hhalt (readByte_of_fetchInstr hfetch rfl)

end Sys2Proof.Machine
end

section
/-!
The step and its faults (60_exceptions.md). A step executes what the fetch decodes, and the fetch decodes an encoding
that ends inside the buffer (R251); the faults of an instruction are BOUNDS_VIOLATION and, for DIV and MOD with a zero
divisor that could be popped, DIVIDE_BY_ZERO (R255, R258).
-/

namespace Sys2Proof.Machine

/-! ## Executing what was fetched -/

theorem step_of_fetchInstr {s : State} {i : Instr} (h : fetchInstr s = .ok i) : step s = exec i s := by
  rw [step, h]

/-- Every instruction takes one to nine bytes (30_encoding.md R90, R108). -/
theorem instr_length_range (c : Config) (i : Instr) : 1 ≤ i.length c ∧ i.length c ≤ maxLength := by
  cases i with
  | loadDir | storeDir | call => exact Laws.three_bytes
  | loadXb | storeXb | dupX | digX | braAlt => exact Laws.two_bytes
  | loadImm ww imm => exact Laws.LengthInRange.loadImm ww imm c
  | bra d | beq d | bne d | blt d | bgt d | ble d | bge d => exact Laws.LengthInRange.bra d c
  | _ => exact Laws.one_byte

/-- Bytes inside the buffer, as many as an instruction can take, are the first bytes of the window. -/
theorem fetchWindow_eq_append {s : State} {n : Nat} (hmax : n ≤ maxLength) (hin : s.ip.toNat + n ≤ s.memSize) :
    ∃ rest, fetchWindow s = s.mem.readBytes s.ip.toNat n ++ rest := by
  obtain ⟨k, hk⟩ : ∃ k, min maxLength (s.memSize - s.ip.toNat) = n + k := Nat.exists_eq_add_of_le (by omega)
  exact ⟨s.mem.readBytes (s.ip.toNat + n) k, by rw [fetchWindow, hk, Memory.readBytes_append]⟩

/-- The fetch gives the well-formed instruction whose encoding lies at `ip` (30_encoding.md R115). -/
theorem fetchInstr_of_encode {s : State} {i : Instr} (hwf : i.wellFormed s.cfg = true)
    (hin : s.ip.toNat + i.length s.cfg ≤ s.memSize)
    (hbytes : s.mem.readBytes s.ip.toNat (i.length s.cfg) = encode s.cfg i) : fetchInstr s = .ok i := by
  obtain ⟨hpos, hmax⟩ := instr_length_range s.cfg i
  obtain ⟨rest, hwindow⟩ := fetchWindow_eq_append hmax hin
  refine fetchInstr_eq_ok.mpr ⟨by omega, ?_⟩
  rw [hwindow, hbytes, decodeOfEncode s.cfg i rest hwf]

/-! ## DIVIDE_BY_ZERO -/

section
variable {ww : BitVec 2} {s : State}

/-- A binary command raises a fault other than BOUNDS_VIOLATION exactly when both operands can be popped and its
function raises it (42_alu.md R170). The stack need not lie in the buffer, so both bounds are asked for. -/
theorem aluBinary_eq_fault {g : Acc → Acc → Except Fault Acc} {f : Fault} (hf : f ≠ .boundsViolation) :
    endStep (aluBinary g ww s) = .fault f ↔
      s.sp.toNat + 2 * (s.width ww).bytes ≤ s.sp0.toNat ∧ s.sp.toNat + 2 * (s.width ww).bytes ≤ s.memSize ∧
        g (deeperOperand ww s) (topOperand ww s) = .error f := by
  rw [endStep_eq_fault]
  refine ⟨fun h => (aluBinary_error h).resolve_left hf, fun ⟨hholds, hin, hg⟩ => ?_⟩
  have hsp := afterPop_sp_toNat (s := s) (w := s.width ww) (by omega)
  have hfirst := pop_of_holds (s := s) (w := s.width ww) (by omega) (by omega)
  have hsecond := pop_of_holds (s := afterPop (s.width ww) s) (w := s.width ww)
    (by rw [hsp, afterPop_sp0]; omega) (by rw [hsp, afterPop_memSize]; omega)
  rw [hsp] at hsecond
  refine bind_eq_error.mpr (.inr ⟨_, hfirst, ?_⟩)
  refine bind_eq_error.mpr (.inr ⟨_, hsecond, ?_⟩)
  exact bind_eq_error.mpr (.inl hg)

theorem checkedDivision_eq_divideByZero {f : Nat → Nat → Nat} {a b : Acc} :
    checkedDivision f a b = .error .divideByZero ↔ b.toNat = 0 := by
  unfold checkedDivision
  split <;> simp_all

/-- When DIV and MOD raise DIVIDE_BY_ZERO (42_alu.md R178, R179). -/
theorem division_eq_divideByZero {f : Nat → Nat → Nat} :
    endStep (aluBinary (checkedDivision f) ww s) = .fault .divideByZero ↔
      s.sp.toNat + 2 * (s.width ww).bytes ≤ s.sp0.toNat ∧ s.sp.toNat + 2 * (s.width ww).bytes ≤ s.memSize ∧
        (s.valueAt s.sp.toNat (s.width ww)).toNat % 2 ^ 32 = 0 := by
  rw [aluBinary_eq_fault (f := .divideByZero) nofun, checkedDivision_eq_divideByZero, topOperand, BitVec.toNat_setWidth]

end

/-! ## Instructions that raise no fault -/

/-- No instruction is refused: YIELD and HALT complete, and the others end with `endStep`. -/
theorem exec_ne_refused (i : Instr) (s : State) (r : Refusal) : exec i s ≠ .refused r := by
  cases i with
  | yield | halt => nofun
  | _ => exact endStep_ne_refused

/-- Under the FLAGS strategy every branch completes (44_control.md R222). -/
theorem exec_branchInstr_of_flags {s : State} (hsrc : s.cfg.branchSrc = .flags) (cond : Cond) (d : Disp) :
    exec (cond.branchInstr d) s = .next (s.continueAt (branchIp s.ip (cond.onFlags s.z s.n) d)) := by
  rw [exec_branchInstr, branch_eq_bind, evalCond_of_flags hsrc, bind_ok, endStep_ok]

/-- An instruction that faults in a state is none of those that complete there. -/
theorem ne_of_exec_eq_next {i j : Instr} {s t : State} {f : Fault} (hi : exec i s = .fault f)
    (hj : exec j s = .next t) : i ≠ j := by
  rintro rfl
  cases hj.symm.trans hi

/-! ## The obligations -/

/-- Settles O12: the bytes of the statement are the window of the fetch. -/
theorem stepRunsTheDecodedInstruction : Obligations.StepRunsTheDecodedInstruction :=
  fun _ _ hip hdecode => step_of_fetchInstr (fetchInstr_eq_ok.mpr ⟨hip, hdecode⟩)

/-- Settles O13: the window begins with the encoding, and the encoding decodes whatever follows it (O8). -/
theorem stepRunsTheEncodedInstruction : Obligations.StepRunsTheEncodedInstruction :=
  fun _ _ hwf hin hbytes => step_of_fetchInstr (fetchInstr_of_encode hwf hin hbytes)

/-- Settles O57: only DIV and MOD raise it, and they test the divisor after both pops. -/
theorem divideByZeroOnlyFromDivAndMod : Obligations.DivideByZeroOnlyFromDivAndMod := by
  intro i s
  constructor
  · intro h
    obtain ⟨⟨⟩⟩ | ⟨_, ww, rfl | rfl⟩ := exec_eq_fault h
    · exact ⟨ww, .inl rfl, division_eq_divideByZero.mp ((exec_div ww s).symm.trans h)⟩
    · exact ⟨ww, .inr rfl, division_eq_divideByZero.mp ((exec_mod ww s).symm.trans h)⟩
  · rintro ⟨ww, rfl | rfl, hzero⟩
    · exact (exec_div ww s).trans (division_eq_divideByZero.mpr hzero)
    · exact (exec_mod ww s).trans (division_eq_divideByZero.mpr hzero)

/-- Settles O58: the instructions it names complete in every state, so one that faults is none of them. -/
theorem instructionFaultsAreTheListedOnes : Obligations.InstructionFaultsAreTheListedOnes := by
  refine ⟨fun _ => rfl, rfl, rfl, rfl, rfl, fun i s => ⟨exec_ne_refused i s, fun f h => ?_⟩⟩
  refine ⟨exec_eq_fault h, ne_of_exec_eq_next h rfl, ne_of_exec_eq_next h rfl,
    fun d => ne_of_exec_eq_next h (exec_bra d s), fun d => ne_of_exec_eq_next h (exec_braAlt d s), fun hsrc d => ?_⟩
  have hne : ∀ cond : Cond, i ≠ cond.branchInstr d := fun cond =>
    ne_of_exec_eq_next h (exec_branchInstr_of_flags hsrc cond d)
  exact ⟨hne .eq, hne .ne, hne .lt, hne .gt, hne .le, hne .ge⟩

end Sys2Proof.Machine
end

section
/-!
The launch and the buffer's bounds (70_reset_and_hazards.md). A launch gives a state that holds its parameters, legal
where the launch is well formed (R280, R282); and from any state at all, legal or not, a step neither writes nor depends
on a byte outside the buffer (R282, 20_memory.md R62).
-/

namespace Sys2Proof.Machine

/-! ## No byte outside the buffer -/

/-- Of the changes of a working copy, `write` alone writes bytes, and all of them inside the buffer. -/
theorem Changes.readByte_outside {flags : Prop} {s t : State} (h : Changes flags s t) {a : Nat} (ha : s.memSize ≤ a) :
    t.readByte a = s.readByte a := by
  induction h with
  | refl => rfl
  | moveSp _ _ ih | setZN _ _ ih | finish _ ih => exact ih
  | write ht hb ih =>
    obtain ⟨hsize, _, _⟩ := ht.sameLaunch
    exact (Memory.read_writeBytes_outside _ (by omega)).trans ih

/-- Settles O52: a completed step is made of changes, and none of them changes a byte outside the buffer. -/
theorem noStepWritesOutsideTheBuffer : Obligations.NoStepWritesOutsideTheBuffer := by
  intro s t h a ha
  obtain ⟨_, _, h⟩ := step_eq_next.mp h
  exact (exec_changes h).readByte_outside ha

/-! ## States that agree in the buffer -/

namespace AgreeInTheBuffer

section
variable {s t : State} (h : AgreeInTheBuffer s t)

include h

theorem withSp (x : Addr) : AgreeInTheBuffer (s.withSp x) (t.withSp x) := by
  obtain ⟨hip, _, hrest⟩ := h
  exact ⟨hip, rfl, hrest⟩

theorem setZN (z n : Bool) : AgreeInTheBuffer (s.setZN z n) (t.setZN z n) := by
  obtain ⟨hip, hsp, hflags, hrest⟩ := h
  exact ⟨hip, hsp, congrArg (fun f => (f &&& 0xFC#8) ||| flagsOf z n) hflags, hrest⟩

theorem finish (ip : Addr) (k : Status) : AgreeInTheBuffer (s.finish ip k) (t.finish ip k) := by
  obtain ⟨_, hsp, hflags, hsize, hsp0, hcfg, _, hread⟩ := h
  exact ⟨rfl, hsp, hflags, hsize, hsp0, hcfg, rfl, hread⟩

/-- The same bytes written at the same address, in the buffer or not. -/
theorem writeBytes (a : Nat) (bs : List Byte) :
    AgreeInTheBuffer (s.withMem (s.mem.writeBytes a bs)) (t.withMem (t.mem.writeBytes a bs)) := by
  obtain ⟨hip, hsp, hflags, hsize, hsp0, hcfg, hstatus, hread⟩ := h
  refine ⟨hip, hsp, hflags, hsize, hsp0, hcfg, hstatus, fun x hx => ?_⟩
  have hx : s.mem.read x = t.mem.read x := hread x hx
  simp only [State.readByte_eq, State.withMem_mem, Memory.read_writeBytes, hx]

theorem z_and_n : s.z = t.z ∧ s.n = t.n := by
  obtain ⟨_, _, hflags, _⟩ := h
  exact ⟨congrArg (·.getLsbD 0) hflags, congrArg (·.getLsbD 1) hflags⟩

end

theorem congruence : Congruence AgreeInTheBuffer where
  ip := fun ⟨hip, _⟩ => hip
  sp := fun ⟨_, hsp, _⟩ => hsp
  memSize := fun ⟨_, _, _, hsize, _⟩ => hsize
  sp0 := fun ⟨_, _, _, _, hsp0, _⟩ => hsp0
  cfg := fun ⟨_, _, _, _, _, hcfg, _⟩ => hcfg
  read := fun ⟨_, _, _, _, _, _, _, hread⟩ => hread
  withSp := withSp
  writeBytes := writeBytes
  setZN := setZN

end AgreeInTheBuffer

/-- Settles O53: a step reads inside the buffer alone, and its changes and its end keep the agreement there. -/
theorem noStepReadsOutsideTheBuffer : Obligations.NoStepReadsOutsideTheBuffer := by
  intro s t h
  refine (step_same AgreeInTheBuffer.congruence h (AgreeInTheBuffer.z_and_n h)).imp ?_
  rintro _ _ _ ⟨⟨a, b, ip, status, hab, rfl, rfl⟩, _⟩
  exact AgreeInTheBuffer.finish hab ip status

/-! ## The launch -/

theorem flagsOf_reserved (z n : Bool) : (flagsOf z n).extractLsb' 2 6 = 0#6 := by cases z <;> cases n <;> rfl

/-- Settles O1: the launch copies its parameters, and the flag register is the layout of the given Z and N. -/
theorem launchStateHoldsTheParameters : Obligations.LaunchStateHoldsTheParameters := fun l =>
  ⟨fun _ => rfl, rfl, rfl, flagsOf_bit0 l.z0 l.n0, flagsOf_bit1 l.z0 l.n0, flagsOf_reserved l.z0 l.n0, rfl, rfl, rfl⟩

/-- Settles O2: `sp` starts at `SP0`, the reserved flag bits at 0, and the launch's own bounds are the rest. -/
theorem wellFormedLaunchIsLegal : Obligations.WellFormedLaunchIsLegal := by
  rintro l ⟨hsize, hsize', hsp0, _, hwf, hin⟩
  exact ⟨hwf, hin, ⟨hsize, hsize'⟩, ⟨Nat.le_refl _, hsp0⟩, flagsOf_reserved l.z0 l.n0⟩

end Sys2Proof.Machine
end

section
/-!
The reset state (70_reset_and_hazards.md section 1): the launch state of the default launch, so it is legal because that
launch is well formed.
-/

namespace Sys2Proof.Machine

/-- The values that log entries 3 to 5 choose for the open parameters keep the bounds of R282. -/
theorem Launch.default_wf : Launch.default.wf := by decide

/-- Settles O3: reset is a launch, and a well-formed launch is legal (R282). -/
theorem resetIsLegal : Obligations.ResetIsLegal := wellFormedLaunchIsLegal Launch.default Launch.default_wf

end Sys2Proof.Machine
end
